-- ==== Sys2Proof/Word.lean ====
section
/-! DEFINITION. The words of the RS CORE: field elements, host words, host addresses (spec/00_scope.md R7). -/

namespace Sys2Proof

/-- A field element of GF(256), or any other 8-bit register (R7, R100). -/
abbrev Byte := BitVec 8

/-- A word of the 32-bit host bus, and a command word (R60, R80). -/
abbrev Word := BitVec 32

/-- A 16-bit byte address of the host register space (R60). -/
abbrev Addr := BitVec 16

/-- A polynomial, most significant coefficient first (R8); also a codeword, a syndrome vector, a list of
positions or a list of magnitudes (R28). -/
abbrev Poly := List Byte

end Sys2Proof
end

