-- ==== Sys2Proof/Syntax.lean ====
section
/-! DEFINITION. The 24 commands of the RS CORE, one constructor per row of the opcode map (spec/30_encoding.md R85),
operands in the order of the assembler syntax, destinations first (R88); and the operands the assembler reads. -/

namespace Sys2Proof

/-- A scalar register G0..G15: a "g" field (R83). -/
abbrev GReg := Fin 16

/-- A polynomial register P0..P15: a "p" field (R83). -/
abbrev PReg := Fin 16

/-- The commands (R85). -/
inductive Instr where
  /-- `GADD gd, gx, gy` (R126). -/
  | gadd (d x y : GReg)
  /-- `GMUL gd, gx, gy` (R127). -/
  | gmul (d x y : GReg)
  /-- `GMULNT gd, gx, gy` (R128). -/
  | gmulnt (d x y : GReg)
  /-- `GDIV gd, gx, gy` (R129). -/
  | gdiv (d x y : GReg)
  /-- `GPOW gd, gx, n`, n = sext_16(IMM16) (R130, R84). -/
  | gpow (d x : GReg) (n : Int)
  /-- `GINV gd, gx` (R131). -/
  | ginv (d x : GReg)
  /-- `LOGR gd, gx` (R107). -/
  | logr (d x : GReg)
  /-- `EXPR gd, k`, k = zext_16(IMM16) (R108, R84). -/
  | expr (d : GReg) (k : Nat)
  /-- `PADD pd, pp, pq` (R141). -/
  | padd (d p q : PReg)
  /-- `PSCALE pd, pp, gx` (R143). -/
  | pscale (d p : PReg) (x : GReg)
  /-- `PMUL pd, pp, pq` (R145). -/
  | pmul (d p q : PReg)
  /-- `PEVAL gd, pp, gx` (R147). -/
  | peval (d : GReg) (p : PReg) (x : GReg)
  /-- `PDIVMOD pq, pr, pa, pb`: quotient, remainder, dividend, divisor (R149). -/
  | pdivmod (q r a b : PReg)
  /-- `SYND pd, pc` (R161). -/
  | synd (d c : PReg)
  /-- `FSYND pd, ps, pc` (R163). -/
  | fsynd (d s c : PReg)
  /-- `ELOC pd, pf` (R165). -/
  | eloc (d f : PReg)
  /-- `CHIEN pd, pl, pc` (R170). -/
  | chien (d l c : PReg)
  /-- `PLOC pd, pp, pc` (R168). -/
  | ploc (d p c : PReg)
  /-- `EEVAL pd, ps, pl` (R173). -/
  | eeval (d s l : PReg)
  /-- `FMAG pd, pe, pp, pc` (R175). -/
  | fmag (d e p c : PReg)
  /-- `CORR pd, pc, pp, pm` (R177). -/
  | corr (d c p m : PReg)
  /-- `GENPOLY pd` (R201). -/
  | genpoly (d : PReg)
  /-- `ENCODE pd, pa` (R203). -/
  | encode (d a : PReg)
  /-- `DECODE pd, pe, pc`: data destination, ecc destination, codeword (R206). -/
  | decode (d e c : PReg)
  deriving DecidableEq, Repr

/-- The mnemonic of a command, as the opcode map spells it (R85). -/
def Instr.mnemonic : Instr → String
  | .gadd _ _ _ => "GADD" | .gmul _ _ _ => "GMUL" | .gmulnt _ _ _ => "GMULNT" | .gdiv _ _ _ => "GDIV"
  | .gpow _ _ _ => "GPOW" | .ginv _ _ => "GINV" | .logr _ _ => "LOGR" | .expr _ _ => "EXPR"
  | .padd _ _ _ => "PADD" | .pscale _ _ _ => "PSCALE" | .pmul _ _ _ => "PMUL" | .peval _ _ _ => "PEVAL"
  | .pdivmod _ _ _ _ => "PDIVMOD" | .synd _ _ => "SYND" | .fsynd _ _ _ => "FSYND" | .eloc _ _ => "ELOC"
  | .chien _ _ _ => "CHIEN" | .ploc _ _ _ => "PLOC" | .eeval _ _ _ => "EEVAL" | .fmag _ _ _ _ => "FMAG"
  | .corr _ _ _ _ => "CORR" | .genpoly _ => "GENPOLY" | .encode _ _ => "ENCODE" | .decode _ _ _ => "DECODE"

/-- An operand of an assembly line: `g0`..`g15`, `p0`..`p15` or an immediate (R88). -/
inductive AsmOperand where
  | g (r : GReg)
  | p (r : PReg)
  | imm (n : Int)
  deriving DecidableEq, Repr

end Sys2Proof
end

