-- ==== Sys2Proof/WellFormed.lean ====
section
/-! DEFINITION. Which commands have an encoding: every register field is 0..15 by its type (spec/30_encoding.md R83), and
the two immediates must fit IMM16 (R84, R88). -/

namespace Sys2Proof

/-- n is a 16-bit two's complement integer (R84: "-32768..32767"). -/
def fitsSigned16 (n : Int) : Bool := decide (-32768 ≤ n) && decide (n ≤ 32767)

/-- k is a 16-bit unsigned integer (R84: "0..65535"). -/
def fitsUnsigned16 (k : Nat) : Bool := decide (k ≤ 65535)

/-- "An assembler refuses an immediate out of its range" (R88). No other command has a field that could be out of range. -/
def Instr.wf : Instr → Bool
  | .gpow _ _ n => fitsSigned16 n
  | .expr _ k => fitsUnsigned16 k
  | .gadd _ _ _ | .gmul _ _ _ | .gmulnt _ _ _ | .gdiv _ _ _ | .ginv _ _ | .logr _ _ => true
  | .padd _ _ _ | .pscale _ _ _ | .pmul _ _ _ | .peval _ _ _ | .pdivmod _ _ _ _ => true
  | .synd _ _ | .fsynd _ _ _ | .eloc _ _ | .chien _ _ _ | .ploc _ _ _ | .eeval _ _ _ => true
  | .fmag _ _ _ _ | .corr _ _ _ _ | .genpoly _ | .encode _ _ | .decode _ _ _ => true

end Sys2Proof
end

