-- ==== Sys2Proof/Decode.lean ====
section
/-! DEFINITION. The command word: its fields, the decoder (total on every 32-bit word), the opcode map as mask and match,
the encoder, the pseudo-instructions and the assembler (spec/30_encoding.md R80-R89). -/

namespace Sys2Proof

/-! ### Fields of a command word (R81, R82) -/

/-- The register field `w[lo+3:lo]` (R81). -/
def regField (w : Word) (lo : Nat) : Fin 16 := (w.extractLsb' lo 4).toFin

/-- The opcode byte OP, `w[31:24]` (R81, R82). -/
def opField (w : Word) : Nat := (w.extractLsb' 24 8).toNat

/-- D, `w[23:20]`. -/
def dField (w : Word) : Fin 16 := regField w 20

/-- A, `w[19:16]`. -/
def aField (w : Word) : Fin 16 := regField w 16

/-- B, `w[15:12]`. -/
def bField (w : Word) : Fin 16 := regField w 12

/-- C, `w[11:8]`. -/
def cField (w : Word) : Fin 16 := regField w 8

/-- Z, `w[7:0]`, which must be 0 in Format R. -/
def zField (w : Word) : Byte := w.extractLsb' 0 8

/-- IMM16, `w[15:0]`. -/
def immField (w : Word) : BitVec 16 := w.extractLsb' 0 16

/-- The immediate of GPOW: `sext_16(IMM16)` (R84). -/
def signedImm (w : Word) : Int := (immField w).toInt

/-- The immediate of EXPR: `zext_16(IMM16)` (R84). -/
def unsignedImm (w : Word) : Nat := (immField w).toNat

/-- Z = 0 (R83). -/
def unusedZ (w : Word) : Bool := zField w == 0#8

/-- C and Z are unused and 0 (R83). -/
def unusedCZ (w : Word) : Bool := cField w == 0 && unusedZ w

/-- B, C and Z are unused and 0 (R83). -/
def unusedBCZ (w : Word) : Bool := bField w == 0 && unusedCZ w

/-- A, B, C and Z are unused and 0 (R83). -/
def unusedABCZ (w : Word) : Bool := aField w == 0 && unusedBCZ w

/-- A is unused and 0 (R82, EXPR). -/
def unusedA (w : Word) : Bool := aField w == 0

/-- `some i` where the unused fields are 0, `none` (illegal) where one is not (R83, R86). -/
def legalIf (unused : Bool) (i : Instr) : Option Instr := if unused then some i else none

/-! ### Decoding (R85, R86, R87) -/

/-- The command a word encodes; `none` for every illegal word (R86). -/
def decode (w : Word) : Option Instr :=
  match opField w with
  | 0x10 => legalIf (unusedCZ w) (.gadd (dField w) (aField w) (bField w))
  | 0x11 => legalIf (unusedCZ w) (.gmul (dField w) (aField w) (bField w))
  | 0x12 => legalIf (unusedCZ w) (.gmulnt (dField w) (aField w) (bField w))
  | 0x13 => legalIf (unusedCZ w) (.gdiv (dField w) (aField w) (bField w))
  | 0x14 => some (.gpow (dField w) (aField w) (signedImm w))
  | 0x15 => legalIf (unusedBCZ w) (.ginv (dField w) (aField w))
  | 0x16 => legalIf (unusedBCZ w) (.logr (dField w) (aField w))
  | 0x17 => legalIf (unusedA w) (.expr (dField w) (unsignedImm w))
  | 0x20 => legalIf (unusedCZ w) (.padd (dField w) (aField w) (bField w))
  | 0x21 => legalIf (unusedCZ w) (.pscale (dField w) (aField w) (bField w))
  | 0x22 => legalIf (unusedCZ w) (.pmul (dField w) (aField w) (bField w))
  | 0x23 => legalIf (unusedCZ w) (.peval (dField w) (aField w) (bField w))
  | 0x24 => legalIf (unusedZ w) (.pdivmod (dField w) (cField w) (aField w) (bField w))
  | 0x30 => legalIf (unusedBCZ w) (.synd (dField w) (aField w))
  | 0x31 => legalIf (unusedCZ w) (.fsynd (dField w) (aField w) (bField w))
  | 0x32 => legalIf (unusedBCZ w) (.eloc (dField w) (aField w))
  | 0x33 => legalIf (unusedCZ w) (.chien (dField w) (aField w) (bField w))
  | 0x34 => legalIf (unusedCZ w) (.ploc (dField w) (aField w) (bField w))
  | 0x35 => legalIf (unusedCZ w) (.eeval (dField w) (aField w) (bField w))
  | 0x36 => legalIf (unusedZ w) (.fmag (dField w) (aField w) (bField w) (cField w))
  | 0x37 => legalIf (unusedZ w) (.corr (dField w) (aField w) (bField w) (cField w))
  | 0x40 => legalIf (unusedABCZ w) (.genpoly (dField w))
  | 0x41 => legalIf (unusedBCZ w) (.encode (dField w) (aField w))
  | 0x42 => legalIf (unusedCZ w) (.decode (dField w) (bField w) (aField w))
  | _ => none

/-- One row of the opcode map: a word is the command when `(w & mask) == pattern` (R85). -/
structure OpcodeRow where
  mnemonic : String
  pattern : Word
  mask : Word
  deriving DecidableEq, Repr

/-- `(w & mask) == match` (R85, R87). -/
def OpcodeRow.matches (r : OpcodeRow) (w : Word) : Bool := (w &&& r.mask) == r.pattern

/-- The rows 0x10..0x17 of the opcode map (R85). -/
def fieldRows : List OpcodeRow :=
  [⟨"GADD", 0x10000000, 0xFF000FFF⟩, ⟨"GMUL", 0x11000000, 0xFF000FFF⟩, ⟨"GMULNT", 0x12000000, 0xFF000FFF⟩,
   ⟨"GDIV", 0x13000000, 0xFF000FFF⟩, ⟨"GPOW", 0x14000000, 0xFF000000⟩, ⟨"GINV", 0x15000000, 0xFF00FFFF⟩,
   ⟨"LOGR", 0x16000000, 0xFF00FFFF⟩, ⟨"EXPR", 0x17000000, 0xFF0F0000⟩]

/-- The rows 0x20..0x24 of the opcode map (R85). -/
def polyRows : List OpcodeRow :=
  [⟨"PADD", 0x20000000, 0xFF000FFF⟩, ⟨"PSCALE", 0x21000000, 0xFF000FFF⟩, ⟨"PMUL", 0x22000000, 0xFF000FFF⟩,
   ⟨"PEVAL", 0x23000000, 0xFF000FFF⟩, ⟨"PDIVMOD", 0x24000000, 0xFF0000FF⟩]

/-- The rows 0x30..0x37 of the opcode map (R85). -/
def stageRows : List OpcodeRow :=
  [⟨"SYND", 0x30000000, 0xFF00FFFF⟩, ⟨"FSYND", 0x31000000, 0xFF000FFF⟩, ⟨"ELOC", 0x32000000, 0xFF00FFFF⟩,
   ⟨"CHIEN", 0x33000000, 0xFF000FFF⟩, ⟨"PLOC", 0x34000000, 0xFF000FFF⟩, ⟨"EEVAL", 0x35000000, 0xFF000FFF⟩,
   ⟨"FMAG", 0x36000000, 0xFF0000FF⟩, ⟨"CORR", 0x37000000, 0xFF0000FF⟩]

/-- The rows 0x40..0x42 of the opcode map (R85). -/
def codecRows : List OpcodeRow :=
  [⟨"GENPOLY", 0x40000000, 0xFF0FFFFF⟩, ⟨"ENCODE", 0x41000000, 0xFF00FFFF⟩, ⟨"DECODE", 0x42000000, 0xFF000FFF⟩]

/-- The opcode map (R85). -/
def opcodeRows : List OpcodeRow := fieldRows ++ polyRows ++ stageRows ++ codecRows

/-! ### Encoding (R81, R82, R88) -/

/-- The opcode byte of a command (R85). -/
def opcode : Instr → Nat
  | .gadd _ _ _ => 0x10 | .gmul _ _ _ => 0x11 | .gmulnt _ _ _ => 0x12 | .gdiv _ _ _ => 0x13
  | .gpow _ _ _ => 0x14 | .ginv _ _ => 0x15 | .logr _ _ => 0x16 | .expr _ _ => 0x17
  | .padd _ _ _ => 0x20 | .pscale _ _ _ => 0x21 | .pmul _ _ _ => 0x22 | .peval _ _ _ => 0x23
  | .pdivmod _ _ _ _ => 0x24 | .synd _ _ => 0x30 | .fsynd _ _ _ => 0x31 | .eloc _ _ => 0x32
  | .chien _ _ _ => 0x33 | .ploc _ _ _ => 0x34 | .eeval _ _ _ => 0x35 | .fmag _ _ _ _ => 0x36
  | .corr _ _ _ _ => 0x37 | .genpoly _ => 0x40 | .encode _ _ => 0x41 | .decode _ _ _ => 0x42

/-- A Format R word: OP, D, A, B, C and Z = 0 (R81). -/
def packR (op : Nat) (d a b c : Fin 16) : Word :=
  BitVec.ofNat 32 (op * 2 ^ 24 + d.val * 2 ^ 20 + a.val * 2 ^ 16 + b.val * 2 ^ 12 + c.val * 2 ^ 8)

/-- A Format I word: OP, D, A and IMM16 (R82). -/
def packI (op : Nat) (d a : Fin 16) (imm : BitVec 16) : Word :=
  BitVec.ofNat 32 (op * 2 ^ 24 + d.val * 2 ^ 20 + a.val * 2 ^ 16 + imm.toNat)

/-- The word of a command (R81, R82, R85, R88). It is the command's word for every well-formed command. -/
def encode (i : Instr) : Word :=
  match i with
  | .gadd d x y | .gmul d x y | .gmulnt d x y | .gdiv d x y => packR (opcode i) d x y 0
  | .gpow d x n => packI (opcode i) d x (BitVec.ofInt 16 n)
  | .ginv d x | .logr d x => packR (opcode i) d x 0 0
  | .expr d k => packI (opcode i) d 0 (BitVec.ofNat 16 k)
  | .padd d p q | .pmul d p q => packR (opcode i) d p q 0
  | .pscale d p x | .peval d p x => packR (opcode i) d p x 0
  | .pdivmod q r a b => packR (opcode i) q a b r
  | .synd d c => packR (opcode i) d c 0 0
  | .eloc d f => packR (opcode i) d f 0 0
  | .fsynd d s c => packR (opcode i) d s c 0
  | .chien d l c => packR (opcode i) d l c 0
  | .ploc d p c => packR (opcode i) d p c 0
  | .eeval d s l => packR (opcode i) d s l 0
  | .fmag d e p c => packR (opcode i) d e p c
  | .corr d c p m => packR (opcode i) d c p m
  | .genpoly d => packR (opcode i) d 0 0 0
  | .encode d a => packR (opcode i) d a 0 0
  | .decode d e c => packR (opcode i) d c e 0

/-! ### Pseudo-instructions (R89) -/

/-- `GSUB gd, gx, gy` is `GADD gd, gx, gy`. -/
def pseudoGsub (d x y : GReg) : Instr := .gadd d x y

/-- `PSUB pd, pp, pq` is `PADD pd, pp, pq`. -/
def pseudoPsub (d p q : PReg) : Instr := .padd d p q

/-- `GSQR gd, gx` is `GMUL gd, gx, gx`. -/
def pseudoGsqr (d x : GReg) : Instr := .gmul d x x

/-- `GMOV gd, gx` is `GPOW gd, gx, 1`. -/
def pseudoGmov (d x : GReg) : Instr := .gpow d x 1

/-- `GONE gd` is `EXPR gd, 0`. -/
def pseudoGone (d : GReg) : Instr := .expr d 0

/-! ### The assembler (R88) -/

/-- The command of a mnemonic and its operands, destinations first; `none` for a register of the wrong kind, an operand
count other than the row's, or an immediate out of its range (R88). Pseudo-instructions are expanded (R89). -/
def assembleOperands (mnemonic : String) (ops : List AsmOperand) : Option Instr :=
  match ops with
  | [.g d, .g x, .g y] =>
    match mnemonic with
    | "GADD" => some (.gadd d x y)
    | "GMUL" => some (.gmul d x y)
    | "GMULNT" => some (.gmulnt d x y)
    | "GDIV" => some (.gdiv d x y)
    | "GSUB" => some (pseudoGsub d x y)
    | _ => none
  | [.g d, .g x, .imm n] => if mnemonic == "GPOW" && fitsSigned16 n then some (.gpow d x n) else none
  | [.g d, .g x] =>
    match mnemonic with
    | "GINV" => some (.ginv d x)
    | "LOGR" => some (.logr d x)
    | "GSQR" => some (pseudoGsqr d x)
    | "GMOV" => some (pseudoGmov d x)
    | _ => none
  | [.g d, .imm n] => if mnemonic == "EXPR" && decide (0 ≤ n) && fitsUnsigned16 n.toNat then some (.expr d n.toNat) else none
  | [.g d] => if mnemonic == "GONE" then some (pseudoGone d) else none
  | [.p d, .p p, .p q] =>
    match mnemonic with
    | "PADD" => some (.padd d p q)
    | "PMUL" => some (.pmul d p q)
    | "PSUB" => some (pseudoPsub d p q)
    | "FSYND" => some (.fsynd d p q)
    | "CHIEN" => some (.chien d p q)
    | "PLOC" => some (.ploc d p q)
    | "EEVAL" => some (.eeval d p q)
    | "DECODE" => some (.decode d p q)
    | _ => none
  | [.p d, .p p, .g x] => if mnemonic == "PSCALE" then some (.pscale d p x) else none
  | [.g d, .p p, .g x] => if mnemonic == "PEVAL" then some (.peval d p x) else none
  | [.p a, .p b, .p c, .p d] =>
    match mnemonic with
    | "PDIVMOD" => some (.pdivmod a b c d)
    | "FMAG" => some (.fmag a b c d)
    | "CORR" => some (.corr a b c d)
    | _ => none
  | [.p d, .p p] =>
    match mnemonic with
    | "SYND" => some (.synd d p)
    | "ELOC" => some (.eloc d p)
    | "ENCODE" => some (.encode d p)
    | _ => none
  | [.p d] => if mnemonic == "GENPOLY" then some (.genpoly d) else none
  | _ => none

/-- The value of a digit character in base 16, or none. -/
def hexDigit (c : Char) : Option Nat :=
  if '0' ≤ c ∧ c ≤ '9' then some (c.toNat - '0'.toNat)
  else if 'a' ≤ c ∧ c ≤ 'f' then some (c.toNat - 'a'.toNat + 10)
  else if 'A' ≤ c ∧ c ≤ 'F' then some (c.toNat - 'A'.toNat + 10)
  else none

/-- The value of a digit string in a base, with the digits already read; none for a character that is no digit. -/
def digitsValue (base : Nat) : List Char → Nat → Option Nat
  | [], acc => some acc
  | c :: cs, acc =>
    match hexDigit c with
    | some v => if v < base then digitsValue base cs (acc * base + v) else none
    | none => none

/-- A non-empty digit string in a base. -/
def parseNumber (base : Nat) : List Char → Option Nat
  | [] => none
  | c :: cs => digitsValue base (c :: cs) 0

/-- `0`..`15` as a register is spelled (R88). -/
def parseRegister : List Char → Option (Fin 16)
  | [c] =>
    match digitsValue 10 [c] 0 with
    | some v => some (Fin.ofNat 16 v)
    | none => none
  | ['1', c] =>
    match digitsValue 10 [c] 0 with
    | some v => if v < 6 then some (Fin.ofNat 16 (10 + v)) else none
    | none => none
  | _ => none

/-- An immediate: decimal, optionally signed, or `0x` hexadecimal (R88). -/
def parseImmediate : List Char → Option Int
  | '0' :: 'x' :: cs => (parseNumber 16 cs).map Int.ofNat
  | '-' :: cs => (parseNumber 10 cs).map fun v => -(Int.ofNat v)
  | '+' :: cs => (parseNumber 10 cs).map Int.ofNat
  | cs => (parseNumber 10 cs).map Int.ofNat

/-- One operand: `g0`..`g15`, `p0`..`p15` or an immediate (R88). -/
def parseOperand : List Char → Option AsmOperand
  | 'g' :: cs => (parseRegister cs).map AsmOperand.g
  | 'p' :: cs => (parseRegister cs).map AsmOperand.p
  | cs => (parseImmediate cs).map AsmOperand.imm

/-- The pieces of a text between separators. -/
def splitAtChar (sep : Char) : List Char → List (List Char)
  | [] => [[]]
  | c :: cs =>
    if c = sep then [] :: splitAtChar sep cs
    else
      match splitAtChar sep cs with
      | [] => [[c]]
      | piece :: rest => (c :: piece) :: rest

/-- A piece without the spaces around it. -/
def trimSpaces (cs : List Char) : List Char :=
  ((cs.dropWhile (· == ' ')).reverse.dropWhile (· == ' ')).reverse

/-- All operands of a line, or none where one cannot be read. -/
def parseOperands : List (List Char) → Option (List AsmOperand)
  | [] => some []
  | piece :: rest =>
    match parseOperand (trimSpaces piece), parseOperands rest with
    | some o, some os => some (o :: os)
    | _, _ => none

/-- An assembly line `MNEMONIC op1, op2, …` (R88). -/
def assembleLine (line : List Char) : Option Instr :=
  let text := trimSpaces line
  let mnemonic := text.takeWhile (· != ' ')
  match parseOperands (splitAtChar ',' (text.dropWhile (· != ' '))) with
  | some ops => assembleOperands (String.ofList mnemonic) ops
  | none => none

/-! ### Words as the opcode table numbers them -/

/-- The command word whose lowest `nbits` bits are w's and whose other bits are 0. A command is one 32-bit bus word, so
no byte order enters (R67, R80). -/
def tableWord (nbits w : Nat) : Word := BitVec.ofNat 32 (w % 2 ^ nbits)

/-- The command this decoder reads from a table word; every row of the opcode map has 32 bits (R80). -/
def decodeTableWord (nbits w : Nat) : Option Instr := if nbits ≤ 32 then decode (tableWord nbits w) else none

end Sys2Proof
end

