-- ==== Sys2Proof/Config.lean ====
section
/-! DEFINITION. The constants of this RS CORE (spec/00_scope.md R5, R6; spec/10_state.md R21, R35) and its free values. -/

namespace Sys2Proof.Config

/-- NG, the number of scalar registers (R6). -/
abbrev ng : Nat := 16

/-- NP, the number of polynomial registers (R6). -/
abbrev np : Nat := 16

/-- PMAX, the most coefficients a polynomial register holds (R6). -/
abbrev pmax : Nat := 512

/-- NE, the number of erasure-list entries (R6). -/
abbrev ne : Nat := 255

/-- The longest codeword (R5: "Decoder requires codeword length ≤ 255"). -/
abbrev maxCodeword : Nat := 255

/-- The primitive polynomial 0x11D as a 9-bit word (R5). -/
def primitive : BitVec 9 := 0x11D#9

/-- The generator element 2 (R5). -/
def generator : Byte := 2#8

/-- The identification word (R21). -/
def idWord : Word := 0x52530100#32

/-- NSYM after reset: "nsym (= 7 in this design)" (R24, R35). -/
def nsymReset : Byte := 7#8

/-- DESIGN CHOICE (log 1, unsafe): what each of G0..G15 holds after reset, where the spec gives no value (R35). -/
def gReset : Byte := 0#8

/-- DESIGN CHOICE (log 2, unsafe): what a PCOEF or EPOS cell that nothing has written since reset reads as (R35). -/
def unwrittenCell : Byte := 0#8

/-- DESIGN CHOICE (log 3, safe): what EXP, LOG and LOG[0] hold where the build has written nothing (R31, R105). -/
def unbuiltEntry : Byte := 0#8

/-- FREE VALUE (log 4): the word the n-th host read of command-owned state while BUSY = 1 returns (R271, U2). -/
opaque busyRead : Nat → Word

end Sys2Proof.Config
end

