-- ==== Sys2Proof/Machine/State.lean ====
section
/-! DEFINITION. The state of the RS CORE as plain data, and its value after reset (spec/10_state.md). Fields marked MODEL
are the model's own: the host and the schedule that drive the core, the counter of free values, the record of which cells
have been written. -/

namespace Sys2Proof.Machine

/-- The failure codes of R231. A failure is an ordinary outcome of a command, reported in STATUS (R230, R239). -/
inductive Failure where
  /-- 0x01: "divide by field element 0". -/
  | divisionByZero
  /-- 0x02: "inverse of field element 0 requested"; also 0 raised to a negative power. -/
  | inverseOfZero
  /-- 0x03: a codeword operand longer than 255; for ENCODE, data length + NSYM > 255. -/
  | messageTooLong
  /-- 0x04: ELEN > NSYM. -/
  | tooManyErasures
  /-- 0x05: "locator degree implies `2·errors + erasures > nsym`". -/
  | tooManyErrors
  /-- 0x06: the root search found another count than the locator degree, or none when correction was expected. -/
  | couldNotLocateErrors
  /-- 0x07: "Forney derivative product is zero for some error position". -/
  | cannotComputeMagnitude
  /-- 0x08: "post-correction syndrome recheck still nonzero". -/
  | couldNotCorrect
  /-- 0x10: the command word matches no opcode pattern. -/
  | illegalCommand
  /-- 0x11: an operand or result of an illegal length, or an EXPR index above 509. -/
  | rangeError
  /-- 0x12: two destinations are the same register. -/
  | operandConflict
  /-- 0x13: LOGR of 0. -/
  | logOfZero
  /-- 0x14: a PDIVMOD divisor whose leading coefficient is not 1. -/
  | nonMonicDivisor
  /-- 0x15: a position ≥ the codeword length, or a repeated erasure. -/
  | badPosition
  deriving DecidableEq, Repr

/-- The field tables EXP[0..509] and LOG[0..255] (R31). -/
structure Tables where
  exp : List Byte
  log : List Byte
  deriving DecidableEq, Repr

/-- What the sequencer is doing: the one home of BUSY, BUILDING and CMDQ (R32; log 9). -/
inductive Sequencer where
  /-- BUSY = 0: no build runs and no command is accepted. -/
  | idle
  /-- BUILDING: the table build runs (R103, R261). -/
  | building
  /-- CMDQ holds an accepted command word (R32, R270). -/
  | command (w : Word)
  deriving DecidableEq, Repr

/-- One action of the host: a bus read or write (R61), or the polling loop `wait` (R90). -/
inductive HostOp where
  /-- `MemRead(addr, 4)`. -/
  | read (addr : Addr)
  /-- `MemWrite(addr, 4, v)`. -/
  | write (addr : Addr) (v : Word)
  /-- Read STATUS until BUSY reads 0. -/
  | wait
  deriving DecidableEq, Repr

/-- Who moves next: the host, the sequencer (R277), or the platform asserting reset (R260). -/
inductive Turn where
  | host
  | sequencer
  | reset
  deriving DecidableEq, Repr

/-- A sparse store of byte cells keyed by host address, strictly rising, with no entry equal to what an unlisted address
reads as (`Config.unwrittenCell`). -/
abbrev Memory := List Host.Cell

/-- The two model faults that R239 reserves. The machine's `step` raises neither: it reads the value a log entry names
(logs 1, 2) or a free value (log 4). `Safety.checkedStep` raises both. -/
inductive Fault where
  /-- A command or the host reads a G, PCOEF or EPOS cell that nothing has written since reset (R36, U1). Raised by
  `Safety.checkedStep` only. Safe: the machine stops where the spec fixes no value. -/
  | uninitialisedCell (addr : Nat)
  /-- The host reads command-owned state while BUSY = 1 (R271, U2). Raised by `Safety.checkedStep` only. Safe: the machine
  stops where the spec fixes no value. -/
  | busyRead (addr : Nat)
  deriving DecidableEq, Repr

/-- Reasons for which an instruction would have no meaning. -/
inductive Refusal where
  /-- The instruction has no meaning in the model yet. Raised by exec's refused arms, of which there is none. Safe. -/
  | notModelled (mnemonic : String)
  deriving DecidableEq, Repr

/-- The state of the RS CORE (R20-R37) and of the agents that drive it (R277). -/
structure State where
  /-- STATUS.READY (R22). -/
  ready : Bool
  /-- STATUS.ERR (R22). -/
  err : Bool
  /-- STATUS.OVR (R22). -/
  ovr : Bool
  /-- STATUS.SZ (R22). -/
  sz : Bool
  /-- STATUS.ERRCODE (R22): none is 0x00; no code outside R231 is ever written. -/
  errcode : Option Failure
  /-- NSYM (R24). -/
  nsym : Byte
  /-- INFO.NERRATA (R25). -/
  nerrata : Byte
  /-- INFO.NERR (R25). -/
  nerr : Byte
  /-- ELEN (R29). -/
  elen : Byte
  /-- G0..G15 (R26). -/
  g : Vector Byte 16
  /-- PLEN[0..15] (R28). -/
  plen : Vector Nat 16
  /-- The PCOEF (R28) and EPOS (R30) cells, keyed by their host addresses (R64). -/
  cells : Memory
  /-- EXP and LOG (R31). -/
  tables : Tables
  /-- The sequencer: BUSY, BUILDING and CMDQ (R32). -/
  seq : Sequencer
  /-- MODEL: the host's actions still to make, in program order (R277; log 5). -/
  hostOps : List HostOp
  /-- MODEL: the schedule, who moves next (R277; log 5). -/
  turns : List Turn
  /-- MODEL: the words the host's reads returned, newest first (log 8). -/
  hostReads : List Word
  /-- MODEL: how many free values have been read (log 4). -/
  freeIndex : Nat
  /-- MODEL: the host addresses of the G, PCOEF and EPOS cells written since reset, strictly rising (R36; log 10). -/
  written : List Nat
  deriving DecidableEq, Repr

/-- The tables before the build: 510 and 256 entries of unspecified content (R31, R35; DESIGN CHOICE, log 3). -/
def Tables.unbuilt : Tables :=
  { exp := List.replicate 510 Config.unbuiltEntry, log := List.replicate 256 Config.unbuiltEntry }

/-- The machine right after reset (R35): STATUS reads 0x00000002, NSYM = 7, the build is running, and the host has nothing
queued. G, PCOEF and EPOS are at the values of logs 1 and 2, the tables at those of log 3. -/
def State.reset : State :=
  { ready := false
    err := false
    ovr := false
    sz := false
    errcode := none
    nsym := Config.nsymReset
    nerrata := 0#8
    nerr := 0#8
    elen := 0#8
    g := Vector.replicate 16 Config.gReset
    plen := Vector.replicate 16 0
    cells := []
    tables := Tables.unbuilt
    seq := .building
    hostOps := []
    turns := []
    hostReads := []
    freeIndex := 0
    written := [] }

end Sys2Proof.Machine
end

