-- ==== Sys2Proof/Machine/Ops.lean ====
section
/-! DEFINITION. The shared operations: byte cells, the record of written cells, completing a command with success, and
`raiseFail`, the one operation that takes a failure (spec/60_exceptions.md R230, R235). -/

namespace Sys2Proof.Machine

/-! ### Byte cells -/

/-- What a cell holds; an unlisted address reads as `Config.unwrittenCell` (log 2). -/
def Memory.read : Memory → Nat → Byte
  | [], _ => Config.unwrittenCell
  | (x, y) :: rest, a => if x = a then y else Memory.read rest a

/-- Put a byte in front of the cells of higher addresses, or nothing where the byte is what an unlisted address reads as. -/
def Memory.place (a : Nat) (b : Byte) (rest : Memory) : Memory :=
  if b = Config.unwrittenCell then rest else (a, b) :: rest

/-- Write one cell, keeping the canonical form. -/
def Memory.write : Memory → Nat → Byte → Memory
  | [], a, b => Memory.place a b []
  | (x, y) :: rest, a, b =>
    if a < x then Memory.place a b ((x, y) :: rest)
    else if a = x then Memory.place a b rest
    else (x, y) :: Memory.write rest a b

/-- The n cells from address a on; a cell's address is 4 above the one before (R64). -/
def Memory.readList (m : Memory) (a : Nat) : Nat → List Byte
  | 0 => []
  | n + 1 => m.read a :: Memory.readList m (a + 4) n

/-- Write the cells from address a on with the entries of a list. -/
def Memory.writeList (m : Memory) (a : Nat) : List Byte → Memory
  | [] => m
  | b :: bs => Memory.writeList (m.write a b) (a + 4) bs

/-- The canonical form: addresses strictly rising, no entry equal to what an unlisted address reads as. -/
abbrev Memory.wf (m : Memory) : Prop :=
  m.Pairwise (fun p q => p.1 < q.1) ∧ ∀ p ∈ m, p.2 ≠ Config.unwrittenCell

/-! ### Which cells have been written since reset (R36, log 10) -/

/-- Add an address to a strictly rising list of addresses. -/
def markCell : List Nat → Nat → List Nat
  | [], a => [a]
  | x :: rest, a => if a < x then a :: x :: rest else if a = x then x :: rest else x :: markCell rest a

/-- Add the n addresses a, a + 4, … . -/
def markCells (w : List Nat) (a : Nat) : Nat → List Nat
  | 0 => w
  | n + 1 => markCells (markCell w a) (a + 4) n

/-! ### Completion of a command (R230, R235, R270) -/

/-- Success: ERR <- 0, ERRCODE <- 0x00, BUSY <- 0 and CMDQ empty (R235, R270). -/
def succeed (s : State) : State := { s with err := false, errcode := none, seq := .idle }

/-- `raise Fail(code)`: ERR <- 1, ERRCODE <- code, BUSY <- 0, and nothing else changes (R230, R233, R236). No state is
saved and there is no handler; there is no return from it (R236, R237). -/
def raiseFail (s : State) (code : Failure) : State := { s with err := true, errcode := some code, seq := .idle }

/-- Complete a command with what its rule computed: the state with every destination written, or the failure, in which
case nothing but ERR, ERRCODE and BUSY changes (R232, R233, R234). -/
def complete (s : State) (r : Except Failure State) : Host.Outcome State Fault Refusal :=
  match r with
  | .ok t => .next (succeed t)
  | .error code => .next (raiseFail s code)

end Sys2Proof.Machine
end

