-- ==== Sys2Proof/Machine/Operands.lean ====
section
/-! DEFINITION. The operand forms: the scalar registers, the polynomial registers, the erasure list, position lists
(spec/10_state.md R26-R30, spec/00_scope.md R10, spec/30_encoding.md R83) and the host addresses of their cells
(spec/20_memory.md R64). -/

namespace Sys2Proof.Machine

/-! ### Host addresses of the cells (R64) -/

/-- G[k] is at 0x0040 + 4·k. -/
def gAddr (k : GReg) : Nat := 0x0040 + 4 * k.val

/-- PLEN[k] is at 0x0080 + 4·k. -/
def plenAddr (k : PReg) : Nat := 0x0080 + 4 * k.val

/-- EPOS[i] is at 0x0400 + 4·i. -/
def eposAddr (i : Nat) : Nat := 0x0400 + 4 * i

/-- PCOEF[k][i] is at 0x8000 + 0x800·k + 4·i. -/
def pcoefAddr (k : PReg) (i : Nat) : Nat := 0x8000 + 0x800 * k.val + 4 * i

/-- The addresses the byte cells of `State.cells` may have: those of EPOS[0..254] and PCOEF[0..15][0..511]. -/
abbrev isCellAddr (a : Nat) : Prop :=
  a % 4 = 0 ∧ ((0x0400 ≤ a ∧ a < 0x07FC) ∨ (0x8000 ≤ a ∧ a < 0x10000))

/-! ### Sequencer views (R32) -/

/-- STATUS.BUSY: the build runs, or a command is accepted and not yet complete (R22). -/
def State.busy (s : State) : Bool := s.seq != .idle

/-- BUILDING: true from reset until the table build completes (R32). -/
def State.building (s : State) : Bool := s.seq == .building

/-- CMDQ: the accepted command word, held from acceptance to completion (R32). -/
def State.cmdq (s : State) : Option Word :=
  match s.seq with
  | .command w => some w
  | .idle | .building => none

/-! ### Scalar registers: the g fields (R10, R26, R83) -/

/-- `G[k]`. -/
def State.readG (s : State) (k : GReg) : Byte := s.g[k.val]

/-- `G[k] <- v`. -/
def State.writeG (s : State) (k : GReg) (v : Byte) : State :=
  { s with g := s.g.set k.val v, written := markCell s.written (gAddr k) }

/-! ### Polynomial registers: the p fields (R10, R27, R28, R83) -/

/-- `PLEN[k]`. -/
def State.readPlen (s : State) (k : PReg) : Nat := s.plen[k.val]

/-- `poly(k)`: the list `[PCOEF[k][0], …, PCOEF[k][PLEN[k]-1]]`. -/
def State.poly (s : State) (k : PReg) : Poly := s.cells.readList (pcoefAddr k 0) (s.readPlen k)

/-- The effect of `P[k] <- L` for a list of at most PMAX entries: PLEN[k] <- len(L), PCOEF[k][i] <- L[i], and the cells
above keep their values (R27). -/
def State.writePoly (s : State) (k : PReg) (l : Poly) : State :=
  { s with
    plen := s.plen.set k.val l.length
    cells := s.cells.writeList (pcoefAddr k 0) l
    written := markCells s.written (pcoefAddr k 0) l.length }

/-- `P[k] <- L`: "A command whose result would be longer raises RangeError before any write" (R27). -/
def State.storePoly (s : State) (k : PReg) (l : Poly) : Except Failure State :=
  if l.length ≤ Config.pmax then .ok (s.writePoly k l) else .error .rangeError

/-- Two destinations written together, or neither (R233, R234). -/
def State.storePolys (s : State) (k1 : PReg) (l1 : Poly) (k2 : PReg) (l2 : Poly) : Except Failure State :=
  if l1.length ≤ Config.pmax ∧ l2.length ≤ Config.pmax then .ok ((s.writePoly k1 l1).writePoly k2 l2)
  else .error .rangeError

/-! ### NSYM, the erasure list and position lists (R24, R29, R30, R160) -/

/-- `m = NSYM` (R160). -/
def State.m (s : State) : Nat := s.nsym.toNat

/-- `ν = ELEN` (R160). -/
def State.nu (s : State) : Nat := s.elen.toNat

/-- `era = [EPOS[0], …, EPOS[ELEN-1]]`, in this order (R30, R160). -/
def State.era (s : State) : List Byte := s.cells.readList (eposAddr 0) s.nu

/-! ### Completing with a result -/

/-- Complete a command that writes one scalar register (R120). -/
def completeG (s : State) (d : GReg) (r : Except Failure Byte) : Host.Outcome State Fault Refusal :=
  complete s (r.map fun v => s.writeG d v)

/-- Complete a command that writes one polynomial register (R27, R151). -/
def completeP (s : State) (d : PReg) (r : Except Failure Poly) : Host.Outcome State Fault Refusal :=
  complete s (r.bind fun l => s.storePoly d l)

/-- Complete a command that writes two polynomial registers (R233, R234). -/
def completePP (s : State) (d1 d2 : PReg) (r : Except Failure (Poly × Poly)) : Host.Outcome State Fault Refusal :=
  complete s (r.bind fun l => s.storePolys d1 l.1 d2 l.2)

end Sys2Proof.Machine
end

