-- ==== Sys2Proof/Machine/Flags.lean ====
section
/-! DEFINITION. The status flags and their words: ERRCODE values (spec/60_exceptions.md R231), the STATUS and INFO layouts
(spec/10_state.md R22, R25), and the SZ rule (R23). -/

namespace Sys2Proof.Machine

/-- The numeric failure codes (R231). -/
def Failure.code : Failure → Byte
  | .divisionByZero => 0x01#8
  | .inverseOfZero => 0x02#8
  | .messageTooLong => 0x03#8
  | .tooManyErasures => 0x04#8
  | .tooManyErrors => 0x05#8
  | .couldNotLocateErrors => 0x06#8
  | .cannotComputeMagnitude => 0x07#8
  | .couldNotCorrect => 0x08#8
  | .illegalCommand => 0x10#8
  | .rangeError => 0x11#8
  | .operandConflict => 0x12#8
  | .logOfZero => 0x13#8
  | .nonMonicDivisor => 0x14#8
  | .badPosition => 0x15#8

/-- STATUS.ERRCODE: 0x00 on success, else the code (R22, R231). -/
def errcodeByte : Option Failure → Byte
  | none => 0x00#8
  | some f => f.code

/-- A flag as the number of its bit. -/
def flagBit (b : Bool) (k : Nat) : Nat := if b then 2 ^ k else 0

/-- The STATUS word (R22): READY 0, BUSY 1, ERR 2, OVR 3, SZ 4, ERRCODE 15:8, every other bit 0. -/
def statusWord (s : State) : Word :=
  BitVec.ofNat 32
    (flagBit s.ready 0 + flagBit s.busy 1 + flagBit s.err 2 + flagBit s.ovr 3 + flagBit s.sz 4
      + (errcodeByte s.errcode).toNat * 2 ^ 8)

/-- The INFO word (R25): NERRATA 7:0, NERR 15:8, every other bit 0. -/
def infoWord (s : State) : Word := BitVec.ofNat 32 (s.nerrata.toNat + s.nerr.toNat * 2 ^ 8)

/-- Every entry of a list is 0: "zero syndrome" (R23, R179). -/
def allZero (l : List Byte) : Bool := l.all (· == 0#8)

/-- `STATUS.SZ <- b`, on successful completion of SYND or DECODE (R23). -/
def State.writeSz (s : State) (b : Bool) : State := { s with sz := b }

/-- `INFO <- (NERRATA, NERR)`, on successful completion of DECODE (R25). Both counts are at most 254 there (log 14). -/
def State.writeInfo (s : State) (nerrata nerr : Nat) : State :=
  { s with nerrata := BitVec.ofNat 8 nerrata, nerr := BitVec.ofNat 8 nerr }

end Sys2Proof.Machine
end

