-- ==== Sys2Proof/Machine/Field.lean ====
section
/-! DEFINITION. GF(256): the bootstrap multiplier, the table build, and the field functions over the tables
(spec/40_gf_tables.md R100-R106, spec/41_gf_arith.md R121-R125). -/

namespace Sys2Proof.Machine

/-! ### The bootstrap multiplier (R101) -/

/-- `x <- x << 1; if x[8] == 1: x <- x ^ 0x11D`: multiplication by the generator 2, in 9 bits (R101). -/
def xtime (x : Byte) : Byte :=
  let y : BitVec 9 := x.setWidth 9 <<< 1
  (if y.getLsbD 8 then y ^^^ Config.primitive else y).setWidth 8

/-- The loop of `gmul_nolut`, at most n more rounds; y is 0 after 8 (R101). -/
def gmulNolutLoop : Nat → Byte → Byte → Byte → Byte
  | 0, _, _, r => r
  | n + 1, x, y, r =>
    if y = 0#8 then r
    else gmulNolutLoop n (xtime x) (y >>> 1) (if y.getLsbD 0 then r ^^^ x else r)

/-- `gmul_nolut(x, y)` (R101). -/
def gmulNolut (x y : Byte) : Byte := gmulNolutLoop 8 x y 0#8

/-! ### The table build (R102) -/

/-- n successive values of x, each `gmul_nolut(·, 2)` of the one before (R102). -/
def powersFrom : Nat → Byte → List Byte
  | 0, _ => []
  | n + 1, x => x :: powersFrom n (gmulNolut x Config.generator)

/-- EXP[0..254]: the powers of the generator from 1 on (R102). -/
def expPeriod : List Byte := powersFrom 255 1#8

/-- EXP[0..509]: the period and its repetition (R102, R104). -/
def expTable : List Byte := expPeriod ++ expPeriod

/-- `LOG[x] <- i` for the successive values x, with i counting up (R102). -/
def recordLogs : List Byte → Nat → List Byte → List Byte
  | [], _, log => log
  | x :: xs, i, log => recordLogs xs (i + 1) (log.set x.toNat (BitVec.ofNat 8 i))

/-- `build_tables()`: EXP is written whole, LOG[1..255] is written, LOG[0] keeps what it held (R102, R105). -/
def buildTables (t : Tables) : Tables := { exp := expTable, log := recordLogs expPeriod 0 t.log }

/-! ### Table reads -/

/-- `EXP[i]` (R10, R31). -/
def Tables.expAt (t : Tables) (i : Nat) : Byte := t.exp.getD i Config.unbuiltEntry

/-- `LOG[x]` as an integer 0..254 (R10, R31). No rule reads LOG[0] (R105). -/
def Tables.logAt (t : Tables) (x : Byte) : Nat := (t.log.getD x.toNat Config.unbuiltEntry).toNat

/-! ### Field functions (R121-R125) -/

/-- `gmul(x, y)` (R121). -/
def gmul (t : Tables) (x y : Byte) : Byte :=
  if x = 0#8 ∨ y = 0#8 then 0#8 else t.expAt (t.logAt x + t.logAt y)

/-- `EXP[LOG[x] + 255 - LOG[y]]`, or 0 for x = 0: `gdiv` where y ≠ 0 (R123). -/
def quotient (t : Tables) (x y : Byte) : Byte :=
  if x = 0#8 then 0#8 else t.expAt (t.logAt x + 255 - t.logAt y)

/-- `gdiv(x, y)` (R123). -/
def gdiv (t : Tables) (x y : Byte) : Except Failure Byte :=
  if y = 0#8 then .error .divisionByZero else .ok (quotient t x y)

/-- `gpow(x, n)`, with the floor modulo of R11 (R124). -/
def gpow (t : Tables) (x : Byte) (n : Int) : Except Failure Byte :=
  if x = 0#8 then
    if n > 0 then .ok 0#8
    else if n = 0 then .ok 1#8
    else .error .inverseOfZero
  else .ok (t.expAt (((t.logAt x : Int) * n) % 255).toNat)

/-- `EXP[255 - LOG[x]]`: `ginv` where x ≠ 0 (R125). -/
def inverse (t : Tables) (x : Byte) : Byte := t.expAt (255 - t.logAt x)

/-- `ginv(x)` (R125). -/
def ginv (t : Tables) (x : Byte) : Except Failure Byte :=
  if x = 0#8 then .error .inverseOfZero else .ok (inverse t x)

/-- The locator `X(p) = EXP[n-1-p]` of position p of a codeword of length n (R13, R160). -/
def locator (t : Tables) (n : Nat) (p : Byte) : Byte := t.expAt (n - 1 - p.toNat)

end Sys2Proof.Machine
end

