-- ==== Sys2Proof/Machine/Bus.lean ====
section
/-! DEFINITION. The host side of the machine: the register map, host reads and writes with the busy protocol, acceptance of
a command, completion of the table build, and reset (spec/20_memory.md R60-R70, spec/70_reset_and_hazards.md R260-R277). -/

namespace Sys2Proof.Machine

/-! ### The register map (R63, R64, R65) -/

/-- What a host address names (R64). -/
inductive Target where
  | id
  | status
  | cmd
  | nsym
  | info
  | elen
  | g (k : GReg)
  | plen (k : PReg)
  | epos (i : Nat)
  | pcoef (k : PReg) (i : Nat)
  /-- Reserved or unmapped (R65). -/
  | reserved
  /-- addr[1:0] ≠ 00 (R63). -/
  | misaligned
  deriving DecidableEq, Repr

/-- The register an address names (R63, R64, R65). -/
def decodeAddr (addr : Addr) : Target :=
  let a := addr.toNat
  if a % 4 ≠ 0 then .misaligned
  else if a = 0x0000 then .id
  else if a = 0x0004 then .status
  else if a = 0x0008 then .cmd
  else if a = 0x000C then .nsym
  else if a = 0x0010 then .info
  else if a = 0x0014 then .elen
  else if a < 0x0040 then .reserved
  else if a < 0x0080 then .g (Fin.ofNat 16 ((a - 0x0040) / 4))
  else if a < 0x00C0 then .plen (Fin.ofNat 16 ((a - 0x0080) / 4))
  else if a < 0x0400 then .reserved
  else if a < 0x07FC then .epos ((a - 0x0400) / 4)
  else if a < 0x8000 then .reserved
  else .pcoef (Fin.ofNat 16 ((a - 0x8000) / 0x800)) ((a - 0x8000) % 0x800 / 4)

/-- Command-owned state: every register except ID and STATUS (R34). CMD, reserved and misaligned addresses name none. -/
def Target.commandOwned : Target → Bool
  | .nsym | .info | .elen | .g _ | .plen _ | .epos _ | .pcoef _ _ => true
  | .id | .status | .cmd | .reserved | .misaligned => false

/-- A write that is dropped and sets OVR while BUSY = 1: to CMD or to any read-write register (R272). -/
def Target.overruns : Target → Bool
  | .cmd | .nsym | .elen | .g _ | .plen _ | .epos _ | .pcoef _ _ => true
  | .id | .status | .info | .reserved | .misaligned => false

/-- The G, PCOEF or EPOS cell a target names: the cells with no reset value (R36). -/
def Target.cell : Target → Option Nat
  | .g k => some (gAddr k)
  | .epos i => some (eposAddr i)
  | .pcoef k i => some (pcoefAddr k i)
  | .id | .status | .cmd | .nsym | .info | .elen | .plen _ | .reserved | .misaligned => none

/-! ### Host reads (R61, R64, R67, R271) -/

/-- The word of a register at BUSY = 0, its unused bits 0 (R62, R64, R67). -/
def registerWord (s : State) : Target → Word
  | .id => Config.idWord
  | .status => statusWord s
  | .cmd => 0
  | .nsym => s.nsym.setWidth 32
  | .info => infoWord s
  | .elen => s.elen.setWidth 32
  | .g k => (s.readG k).setWidth 32
  | .plen k => BitVec.ofNat 32 (s.readPlen k)
  | .epos i => (s.cells.read (eposAddr i)).setWidth 32
  | .pcoef k i => (s.cells.read (pcoefAddr k i)).setWidth 32
  | .reserved => 0
  | .misaligned => 0

/-- Whether a host read of the target returns an unspecified value: command-owned state while BUSY = 1 (R271). -/
def readsUnspecified (s : State) (target : Target) : Bool := s.busy && target.commandOwned

/-- The word a host read returns: a free value where R271 leaves it unspecified (log 4), else the register's word. -/
def readWord (s : State) (target : Target) : Word :=
  if readsUnspecified s target then Config.busyRead s.freeIndex else registerWord s target

/-- HostRead(addr): the result goes to the host, and the core does not change (R68, R277). -/
def hostRead (s : State) (addr : Addr) : State :=
  { s with
    hostReads := readWord s (decodeAddr addr) :: s.hostReads
    freeIndex := if readsUnspecified s (decodeAddr addr) then s.freeIndex + 1 else s.freeIndex }

/-! ### Host writes (R61, R64, R68, R270, R272) -/

/-- Acceptance: CMDQ <- the written word, BUSY <- 1, OVR <- 0, in one step (R270). -/
def acceptCommand (s : State) (w : Word) : State := { s with seq := .command w, ovr := false }

/-- Write a byte cell and record that it has been written. -/
def State.writeCell (s : State) (a : Nat) (b : Byte) : State :=
  { s with cells := s.cells.write a b, written := markCell s.written a }

/-- A host write at BUSY = 0 (R24, R26, R28, R29, R30, R37, R64): 8-bit registers take bits [7:0]; NSYM ignores 255 and PLEN
ignores a value above 512 in bits [9:0]; read-only, reserved and misaligned targets ignore the write. -/
def writeRegister (s : State) (target : Target) (v : Word) : State :=
  match target with
  | .cmd => acceptCommand s v
  | .nsym => if v.setWidth 8 = 255#8 then s else { s with nsym := v.setWidth 8 }
  | .elen => { s with elen := v.setWidth 8 }
  | .g k => s.writeG k (v.setWidth 8)
  | .plen k =>
    if (v.setWidth 10 : BitVec 10).toNat > Config.pmax then s
    else { s with plen := s.plen.set k.val (v.setWidth 10 : BitVec 10).toNat }
  | .epos i => s.writeCell (eposAddr i) (v.setWidth 8)
  | .pcoef k i => s.writeCell (pcoefAddr k i) (v.setWidth 8)
  | .id | .status | .info | .reserved | .misaligned => s

/-- HostWrite(addr, v): while BUSY = 1 a write to CMD or a read-write register is dropped and sets OVR, and every other write
is ignored (R272); at BUSY = 0 it takes effect. -/
def hostWrite (s : State) (addr : Addr) (v : Word) : State :=
  if s.busy then
    if (decodeAddr addr).overruns then { s with ovr := true } else s
  else writeRegister s (decodeAddr addr) v

/-! ### The host's turn (R70, R90, R277) -/

/-- The host makes its next action. `wait` reads STATUS and stays where it is while BUSY reads 1 (R90). A host with nothing
left to do makes no access. -/
def hostTurn (s : State) : State :=
  match s.hostOps with
  | [] => s
  | .read addr :: rest => hostRead { s with hostOps := rest } addr
  | .write addr v :: rest => hostWrite { s with hostOps := rest } addr v
  | .wait :: rest => hostRead { s with hostOps := if s.busy then .wait :: rest else rest } 0x0004

/-! ### Build completion and reset (R103, R260, R261) -/

/-- Build completion: EXP and LOG are built, READY <- 1, BUSY <- 0, and nothing else is written (R103, R261 step 3). -/
def completeBuild (s : State) : State := { s with tables := buildTables s.tables, ready := true, seq := .idle }

/-- Reset of the core: every state element of the core takes its reset value, whatever was running (R260). The host's queue,
the schedule, the words it has read and the free-value counter are not the core's and stay. -/
def resetCore (s : State) : State :=
  { State.reset with hostOps := s.hostOps, turns := s.turns, hostReads := s.hostReads, freeIndex := s.freeIndex }

end Sys2Proof.Machine
end

