-- ==== Sys2Proof/Machine/Poly.lean ====
section
/-! DEFINITION. Polynomial algebra over GF(256) (spec/42_poly.md R140-R148). A polynomial is a list, most significant
coefficient first (R8). -/

namespace Sys2Proof.Machine

/-- `zeros(k)` (R9). -/
def zeros (k : Nat) : Poly := List.replicate k 0#8

/-- A list with zeros in front of it, n entries long. -/
def alignRight (n : Nat) (p : Poly) : Poly := zeros (n - p.length) ++ p

/-- `padd(p, q)`: aligned to the right, XOR coefficient by coefficient (R140). -/
def padd (p q : Poly) : Poly :=
  let n := max p.length q.length
  List.zipWith (· ^^^ ·) (alignRight n p) (alignRight n q)

/-- `pscale(p, x) = [gmul(p[i], x) …]` (R142). -/
def pscale (t : Tables) (p : Poly) (x : Byte) : Poly := p.map fun c => gmul t c x

/-- The convolution of p and q, coefficient[i+j] the XOR of all `gmul(p[i], q[j])`: the leading coefficient of p times q,
shifted above the product of the rest of p with q (R144; the order of the XORs does not matter there; log 12). -/
def convolve (t : Tables) : Poly → Poly → Poly
  | [], q => zeros (q.length - 1)
  | c :: p, q => padd (q.map (gmul t c) ++ zeros p.length) (convolve t p q)

/-- `pmul(p, q)`: RangeError for an empty operand, else the convolution (R144). -/
def pmul (t : Tables) (p q : Poly) : Except Failure Poly :=
  if p.length = 0 ∨ q.length = 0 then .error .rangeError else .ok (convolve t p q)

/-- Horner's loop from acc on: `acc <- gmul(acc, x) ^ p[i]` (R146). -/
def hornerFrom (t : Tables) (x : Byte) : Byte → Poly → Byte
  | acc, [] => acc
  | acc, c :: p => hornerFrom t x (gmul t acc x ^^^ c) p

/-- `peval(p, x)` for a p that is not empty; the empty list, which no caller passes, gives 0 (R146). -/
def horner (t : Tables) (p : Poly) (x : Byte) : Byte :=
  match p with
  | [] => 0#8
  | c :: rest => hornerFrom t x c rest

/-- `peval(p, x)`: RangeError for the empty list (R146). -/
def peval (t : Tables) (p : Poly) (x : Byte) : Except Failure Byte :=
  if p.length = 0 then .error .rangeError else .ok (horner t p x)

/-- XOR a list into the front of the working copy: `w[i+j] <- w[i+j] ^ …` for j = 1, 2, … (R148). -/
def xorFront : Poly → Poly → Poly
  | [], w => w
  | _ :: _, [] => []
  | x :: xs, y :: ys => (y ^^^ x) :: xorFront xs ys

/-- n passes of synthetic division of the working copy by the divisor whose coefficients after the first are `tail`: the
quotient coefficients found, and what is left of the working copy (R148; the pass skips j = 0). -/
def divPass (t : Tables) (tail : Poly) : Nat → Poly → Poly × Poly
  | 0, w => ([], w)
  | _ + 1, [] => ([], [])
  | n + 1, coef :: w =>
    let w' := if coef = 0#8 then w else xorFront (tail.map fun b => gmul t b coef) w
    let qr := divPass t tail n w'
    (coef :: qr.1, qr.2)

/-- The two results of `pdivmod` for operands that pass its checks: `len(a) - len(b) + 1` passes (R148). -/
def divide (t : Tables) (a b : Poly) : Poly × Poly := divPass t b.tail (a.length + 1 - b.length) a

/-- `pdivmod(a, b)`: a divisor that is not empty, a dividend at least one shorter than it, a monic divisor, in that order
(R148). -/
def pdivmod (t : Tables) (a b : Poly) : Except Failure (Poly × Poly) :=
  if b.length = 0 then .error .rangeError
  else if a.length < b.length - 1 then .error .rangeError
  else if b.head? ≠ some 1#8 then .error .nonMonicDivisor
  else .ok (divide t a b)

end Sys2Proof.Machine
end

