-- ==== Sys2Proof/Machine/Stages.lean ====
section
/-! DEFINITION. The decoder stages as functions (spec/43_decoder_stages.md R160-R176). Where the spec says that a field
function inside a stage never fails, the stage uses the function's value directly (log 11). -/

namespace Sys2Proof.Machine

/-! ### The two checks (R160) -/

/-- `cwlen(c)`: a codeword has 1 to 255 entries (R160). -/
def cwlen (c : Poly) : Except Failure Nat :=
  if c.length > Config.maxCodeword then .error .messageTooLong
  else if c.length = 0 then .error .rangeError
  else .ok c.length

/-- Every entry of L is a position of a codeword of length n (R160). -/
def inRange (l : List Byte) (n : Nat) : Bool := l.all fun p => decide (p.toNat < n)

/-- `check_pos(L, n, distinct)` (R160). -/
def checkPos (l : List Byte) (n : Nat) (distinct : Bool) : Except Failure Unit :=
  if inRange l n = false then .error .badPosition
  else if distinct = true ∧ ¬ l.Nodup then .error .badPosition
  else .ok ()

/-! ### syndrome_calc -/

/-- `syndromes(c, m)`: a reserved 0 and the m values of c at 2^0 .. 2^(m-1) (R179). -/
def syndromes (t : Tables) (c : Poly) (m : Nat) : Poly :=
  0#8 :: (List.range m).map fun i => horner t c (t.expAt i)

/-- One erasure's pass: `f[j] <- gmul(f[j], x) ^ f[j+1]` for ascending j, with f[j+1] not yet updated (R162). -/
def foldPass (t : Tables) (x : Byte) : Poly → Poly
  | [] => []
  | [a] => [a]
  | a :: b :: rest => (gmul t a x ^^^ b) :: foldPass t x (b :: rest)

/-- `forney_synd(S, era, n)` (R162). -/
def forneySynd (t : Tables) (s : Poly) (era : List Byte) (n : Nat) : Poly :=
  era.foldl (fun f p => foldPass t (locator t n p) f) s.tail

/-! ### error_locator_poly -/

/-- The two polynomials that the Berlekamp-Massey iteration keeps (R164). -/
structure Locators where
  err : Poly
  old : Poly
  deriving DecidableEq, Repr

/-- The discrepancy of step i: f[i] and the products `gmul(err[len(err)-1-j], f[i-j])`, j = 1..len(err)-1 (R164). -/
def discrepancy (t : Tables) (f err : Poly) (i : Nat) : Byte :=
  (List.range' 1 (err.length - 1)).foldl
    (fun delta j => delta ^^^ gmul t (err.getD (err.length - 1 - j) 0#8) (f.getD (i - j) 0#8)) (f.getD i 0#8)

/-- Step i of the iteration: shift old, and where delta ≠ 0 apply the degree-increase rule and accumulate (R164). -/
def bmStep (t : Tables) (f : Poly) (st : Locators) (i : Nat) : Locators :=
  let delta := discrepancy t f st.err i
  let old := st.old ++ [0#8]
  if delta = 0#8 then { err := st.err, old := old }
  else if old.length > st.err.length then
    let old' := pscale t st.err (inverse t delta)
    { err := padd (pscale t old delta) (pscale t old' delta), old := old' }
  else { err := padd st.err (pscale t old delta), old := old }

/-- The error locator after k steps, leading zeros not yet stripped (R164). -/
def bmIterate (t : Tables) (f : Poly) (k : Nat) : Locators :=
  (List.range k).foldl (bmStep t f) { err := [1#8], old := [1#8] }

/-- `while len(err) > 0 and err[0] == 0: err <- err[1..]` (R164). -/
def stripZeros (p : Poly) : Poly := p.dropWhile (· == 0#8)

/-- `bm_locator(f, ν, m)` (R164; the test is the §7 form, 90_conflicts.md C3). -/
def bmLocator (t : Tables) (f : Poly) (nu m : Nat) : Except Failure Poly :=
  let err := stripZeros (bmIterate t f (m - nu)).err
  if 2 * (err.length - 1) + nu > m then .error .tooManyErrors else .ok err

/-- `errata_loc(Pos, n)`: the product of the factors [X(p), 1] (R167). -/
def errataLoc (t : Tables) (pos : List Byte) (n : Nat) : Poly :=
  pos.foldl (fun l p => convolve t l [locator t n p, 1#8]) [1#8]

/-! ### chien_search -/

/-- The positions n-1-i at which `rev(loc)` has the root 2^i, for ascending i (R169). -/
def rootPositions (t : Tables) (loc : Poly) (n : Nat) : List Byte :=
  ((List.range n).filter fun i => horner t loc.reverse (t.expAt i) == 0#8).map fun i => BitVec.ofNat 8 (n - 1 - i)

/-- `chien_roots(loc, n)` (R169; the empty-set condition is DECODE's, 90_conflicts.md C4). -/
def chienRoots (t : Tables) (loc : Poly) (n : Nat) : Except Failure (List Byte) :=
  let pos := rootPositions t loc n
  if pos.length ≠ loc.length - 1 then .error .couldNotLocateErrors else .ok pos

/-! ### forney_magnitude -/

/-- `err_eval(S, L, m)`: the product of rev(S) and L modulo x^(m+1), reversed (R171; the divisor is that of 90_conflicts.md
C6). -/
def errEval (t : Tables) (s l : Poly) (m : Nat) : Poly :=
  (divide t (convolve t s.reverse l) (1#8 :: zeros (m + 1))).2.reverse

/-- The product of `1 ^ gmul(Xi_inv, X[j])` over all j ≠ i (R174). -/
def derivProduct (t : Tables) (xs : List Byte) (i : Nat) (xInv : Byte) : Byte :=
  (List.range xs.length).foldl
    (fun prime j => if j = i then prime else gmul t prime (1#8 ^^^ gmul t xInv (xs.getD j 0#8))) 1#8

/-- The magnitude of entry i of the locator list, or CannotComputeMagnitude where the product is 0 (R174). -/
def magnitudeAt (t : Tables) (ev : Poly) (xs : List Byte) (i : Nat) : Except Failure Byte :=
  let x := xs.getD i 0#8
  let xInv := inverse t x
  let prime := derivProduct t xs i xInv
  let y := gmul t x (horner t ev.reverse xInv)
  if prime = 0#8 then .error .cannotComputeMagnitude else .ok (quotient t y prime)

/-- The magnitudes of the entries `is`, in order; the first failure ends the computation (R174). -/
def magnitudes (t : Tables) (ev : Poly) (xs : List Byte) : List Nat → Except Failure (List Byte)
  | [] => .ok []
  | i :: is =>
    match magnitudeAt t ev xs i with
    | .error e => .error e
    | .ok mag =>
      match magnitudes t ev xs is with
      | .error e => .error e
      | .ok rest => .ok (mag :: rest)

/-- `forney_mag(ev, Pos, n)`, with Xi = X(p) (R174; 90_conflicts.md C2). -/
def forneyMag (t : Tables) (ev : Poly) (pos : List Byte) (n : Nat) : Except Failure (List Byte) :=
  let xs := pos.map (locator t n)
  magnitudes t ev xs (List.range xs.length)

/-! ### Correction -/

/-- The error vector: `e[Pos[k]] <- mags[k]`, a later k replacing an earlier one (R176). -/
def errorVector (len : Nat) (pos mags : List Byte) : Poly :=
  (pos.zip mags).foldl (fun e pm => e.set pm.1.toNat pm.2) (zeros len)

/-- `apply_corr(c, Pos, mags)` (R176). -/
def applyCorr (c : Poly) (pos mags : List Byte) : Poly :=
  List.zipWith (· ^^^ ·) c (errorVector c.length pos mags)

end Sys2Proof.Machine
end

