-- ==== Sys2Proof/Machine/StageCommands.lean ====
section
/-! DEFINITION. The stage commands SYND, FSYND, ELOC, CHIEN, PLOC, EEVAL, FMAG, CORR: each command's checks in the order of
its rule, then the stage's function (spec/43_decoder_stages.md R161-R177). -/

namespace Sys2Proof.Machine

/-- The syndrome vector of SYND, after the codeword length check (R161). -/
def syndChecked (t : Tables) (c : Poly) (m : Nat) : Except Failure Poly :=
  match cwlen c with
  | .error e => .error e
  | .ok _ => .ok (syndromes t c m)

/-- SYND: `P[D] <- syndromes(c, m)`, and SZ says whether every entry is 0 (R161, R23). -/
def execSynd (d c : PReg) (s : State) : Host.Outcome State Fault Refusal :=
  complete s ((syndChecked s.tables (s.poly c) s.m).bind fun l => (s.writeSz (allZero l)).storePoly d l)

/-- The Forney syndromes of FSYND, after its checks; of the codeword only the length is used (R163). -/
def fsyndChecked (t : Tables) (synd cw : Poly) (era : List Byte) (m : Nat) : Except Failure Poly :=
  if synd.length ≠ m + 1 then .error .rangeError
  else
    match cwlen cw with
    | .error e => .error e
    | .ok n =>
      match checkPos era n true with
      | .error e => .error e
      | .ok _ => .ok (forneySynd t synd era n)

/-- FSYND: `P[D] <- forney_synd(S, era, n)` (R163). -/
def execFsynd (d synd c : PReg) (s : State) : Host.Outcome State Fault Refusal :=
  completeP s d (fsyndChecked s.tables (s.poly synd) (s.poly c) s.era s.m)

/-- The locator of ELOC, after its checks (R165). -/
def elocChecked (t : Tables) (f : Poly) (nu m : Nat) : Except Failure Poly :=
  if f.length ≠ m then .error .rangeError
  else if nu > m then .error .tooManyErasures
  else bmLocator t f nu m

/-- ELOC: `P[D] <- bm_locator(f, ELEN, m)` (R165). -/
def execEloc (d f : PReg) (s : State) : Host.Outcome State Fault Refusal :=
  completeP s d (elocChecked s.tables (s.poly f) s.nu s.m)

/-- The positions of CHIEN, after its checks; of the codeword only the length is used (R170). -/
def chienChecked (t : Tables) (loc cw : Poly) : Except Failure Poly :=
  if loc.length = 0 then .error .rangeError
  else
    match cwlen cw with
    | .error e => .error e
    | .ok n => chienRoots t loc n

/-- CHIEN: `P[D] <- chien_roots(loc, n)` (R170). -/
def execChien (d l c : PReg) (s : State) : Host.Outcome State Fault Refusal :=
  completeP s d (chienChecked s.tables (s.poly l) (s.poly c))

/-- The errata locator of PLOC, after its checks; of the codeword only the length is used (R168). -/
def plocChecked (t : Tables) (pos cw : Poly) : Except Failure Poly :=
  match cwlen cw with
  | .error e => .error e
  | .ok n =>
    match checkPos pos n false with
    | .error e => .error e
    | .ok _ => if pos.length + 1 > Config.pmax then .error .rangeError else .ok (errataLoc t pos n)

/-- PLOC: `P[D] <- errata_loc(Pos, n)` (R168). -/
def execPloc (d p c : PReg) (s : State) : Host.Outcome State Fault Refusal :=
  completeP s d (plocChecked s.tables (s.poly p) (s.poly c))

/-- The evaluator of EEVAL, after its checks (R173). -/
def eevalChecked (t : Tables) (synd l : Poly) (m : Nat) : Except Failure Poly :=
  if synd.length ≠ m + 1 then .error .rangeError
  else if l.length = 0 then .error .rangeError
  else .ok (errEval t synd l m)

/-- EEVAL: `P[D] <- err_eval(S, L, m)` (R173). -/
def execEeval (d synd l : PReg) (s : State) : Host.Outcome State Fault Refusal :=
  completeP s d (eevalChecked s.tables (s.poly synd) (s.poly l) s.m)

/-- The magnitudes of FMAG, after its checks; of the codeword only the length is used (R175). -/
def fmagChecked (t : Tables) (ev pos cw : Poly) : Except Failure Poly :=
  if ev.length = 0 then .error .rangeError
  else
    match cwlen cw with
    | .error e => .error e
    | .ok n =>
      match checkPos pos n false with
      | .error e => .error e
      | .ok _ => forneyMag t ev pos n

/-- FMAG: `P[D] <- forney_mag(ev, Pos, n)` (R175). -/
def execFmag (d e p c : PReg) (s : State) : Host.Outcome State Fault Refusal :=
  completeP s d (fmagChecked s.tables (s.poly e) (s.poly p) (s.poly c))

/-- The corrected codeword of CORR, after its checks (R177). -/
def corrChecked (cw pos mags : Poly) : Except Failure Poly :=
  match cwlen cw with
  | .error e => .error e
  | .ok n =>
    if pos.length ≠ mags.length then .error .rangeError
    else
      match checkPos pos n false with
      | .error e => .error e
      | .ok _ => .ok (applyCorr cw pos mags)

/-- CORR: `P[D] <- apply_corr(c, Pos, mags)` (R177). -/
def execCorr (d c p mg : PReg) (s : State) : Host.Outcome State Fault Refusal :=
  completeP s d (corrChecked (s.poly c) (s.poly p) (s.poly mg))

end Sys2Proof.Machine
end

