-- ==== Sys2Proof/Machine/Codec.lean ====
section
/-! DEFINITION. rs_encoder_datapath and rs_decoder_datapath: GENPOLY, ENCODE, DECODE (spec/44_codec.md R200-R208). -/

namespace Sys2Proof.Machine

/-! ### Generator and encoder -/

/-- `genpoly(m)`: the product of the binomials [1, EXP[i]], i = 0..m-1 (R200). -/
def genpoly (t : Tables) (m : Nat) : Poly :=
  (List.range m).foldl (fun g i => convolve t g [1#8, t.expAt i]) [1#8]

/-- GENPOLY: `P[D] <- genpoly(NSYM)` (R201). -/
def execGenpoly (d : PReg) (s : State) : Host.Outcome State Fault Refusal :=
  completeP s d (.ok (genpoly s.tables s.m))

/-- `encode(data, m)`: the data, then the remainder of data ++ zeros(m) by the generator (R202; the pad is that of
90_conflicts.md C1). -/
def encodeWord (t : Tables) (data : Poly) (m : Nat) : Poly :=
  data ++ (divide t (data ++ zeros m) (genpoly t m)).2

/-- The codeword of ENCODE, after its length check (R203). -/
def encodeChecked (t : Tables) (data : Poly) (m : Nat) : Except Failure Poly :=
  if data.length + m > Config.maxCodeword then .error .messageTooLong else .ok (encodeWord t data m)

/-- ENCODE: `P[D] <- encode(data, m)` (R203). -/
def execEncode (d a : PReg) (s : State) : Host.Outcome State Fault Refusal :=
  completeP s d (encodeChecked s.tables (s.poly a) s.m)

/-! ### Decoder -/

/-- What a successful DECODE found: the corrected codeword, whether the no-correction exit was taken, and the two counts of
INFO (R206). -/
structure Decoded where
  word : Poly
  clean : Bool
  nerrata : Nat
  nerr : Nat
  deriving DecidableEq, Repr

/-- DECODE's operand checks after OperandConflict, in order (R205). -/
def decodeChecks (c : Poly) (era : List Byte) (m : Nat) : Except Failure Unit :=
  if c.length > Config.maxCodeword then .error .messageTooLong
  else if era.length > m then .error .tooManyErasures
  else if c.length = 0 ∨ c.length < m then .error .rangeError
  else checkPos era c.length true

/-- Step 2: erasure blanking on a local copy (R206). -/
def blank (c : Poly) (era : List Byte) : Poly := era.foldl (fun w p => w.set p.toNat 0#8) c

/-- Steps 7 to 9 for the blanked codeword c, its syndromes and the positions to correct, of which `nerr` are located
errors (R206). -/
def correct (t : Tables) (c synd : Poly) (pos : List Byte) (nerr m : Nat) : Except Failure Decoded :=
  let ev := errEval t synd (errataLoc t pos c.length) m
  match forneyMag t ev pos c.length with
  | .error e => .error e
  | .ok mags =>
    let word := applyCorr c pos mags
    if allZero (syndromes t word m) = true then .ok { word := word, clean := false, nerrata := pos.length, nerr := nerr }
    else .error .couldNotCorrect

/-- Steps 4 to 9 for the blanked codeword c and its syndromes (R206). -/
def locateAndCorrect (t : Tables) (c synd : Poly) (era : List Byte) (m : Nat) : Except Failure Decoded :=
  match bmLocator t (forneySynd t synd era c.length) era.length m with
  | .error e => .error e
  | .ok loc =>
    match chienRoots t loc c.length with
    | .error e => .error e
    | .ok pos =>
      if (era ++ pos).length = 0 then .error .couldNotLocateErrors
      else correct t c synd (era ++ pos) pos.length m

/-- Steps 3 to 9 for the blanked codeword c: the no-correction exit, or the correction path (R206). -/
def decodeBlanked (t : Tables) (c : Poly) (era : List Byte) (m : Nat) : Except Failure Decoded :=
  let synd := syndromes t c m
  if allZero synd = true then .ok { word := c, clean := true, nerrata := 0, nerr := 0 }
  else locateAndCorrect t c synd era m

/-- Steps 1 to 9 (R205, R206). -/
def decodeWord (t : Tables) (c : Poly) (era : List Byte) (m : Nat) : Except Failure Decoded :=
  match decodeChecks c era m with
  | .error e => .error e
  | .ok _ => decodeBlanked t (blank c era) era m

/-- Step 10: data `c[0..n-m-1]` to one register and ecc `c[n-m..n-1]` to the other, with SZ and INFO (R206, R208). -/
def storeDecoded (s : State) (d e : PReg) (r : Decoded) : Except Failure State :=
  ((s.writeSz r.clean).writeInfo r.nerrata r.nerr).storePolys d (r.word.take (r.word.length - s.m)) e
    (r.word.drop (r.word.length - s.m))

/-- DECODE: data to `P[D]`, ecc to `P[B]`; OperandConflict where they are one register, checked first (R205, R206). -/
def execDecode (d e c : PReg) (s : State) : Host.Outcome State Fault Refusal :=
  complete s
    ((if d = e then .error .operandConflict else decodeWord s.tables (s.poly c) s.era s.m).bind
      fun r => storeDecoded s d e r)

end Sys2Proof.Machine
end

