-- ==== Sys2Proof/Machine/FieldCommands.lean ====
section
/-! DEFINITION. The commands of log_exp_tables, gf256_mult_core and gf256_inv_core
(spec/40_gf_tables.md R107, R108; spec/41_gf_arith.md R126-R131). -/

namespace Sys2Proof.Machine

/-- GADD: `G[D] <- G[A] ^ G[B]` (R126). -/
def execGadd (d x y : GReg) (s : State) : Host.Outcome State Fault Refusal :=
  completeG s d (.ok (s.readG x ^^^ s.readG y))

/-- GMUL: `G[D] <- gmul(G[A], G[B])` (R127). -/
def execGmul (d x y : GReg) (s : State) : Host.Outcome State Fault Refusal :=
  completeG s d (.ok (gmul s.tables (s.readG x) (s.readG y)))

/-- GMULNT: `G[D] <- gmul_nolut(G[A], G[B])` (R128). -/
def execGmulnt (d x y : GReg) (s : State) : Host.Outcome State Fault Refusal :=
  completeG s d (.ok (gmulNolut (s.readG x) (s.readG y)))

/-- GDIV: `G[D] <- gdiv(G[A], G[B])` (R129). -/
def execGdiv (d x y : GReg) (s : State) : Host.Outcome State Fault Refusal :=
  completeG s d (gdiv s.tables (s.readG x) (s.readG y))

/-- GPOW: `G[D] <- gpow(G[A], sext_16(IMM16))` (R130). -/
def execGpow (d x : GReg) (n : Int) (s : State) : Host.Outcome State Fault Refusal :=
  completeG s d (gpow s.tables (s.readG x) n)

/-- GINV: `G[D] <- ginv(G[A])` (R131). -/
def execGinv (d x : GReg) (s : State) : Host.Outcome State Fault Refusal :=
  completeG s d (ginv s.tables (s.readG x))

/-- The value of LOGR: LOG[x], or LogOfZero for x = 0 (R107). -/
def logRead (t : Tables) (x : Byte) : Except Failure Byte :=
  if x = 0#8 then .error .logOfZero else .ok (BitVec.ofNat 8 (t.logAt x))

/-- LOGR: `G[D] <- LOG[G[A]]` (R107). -/
def execLogr (d x : GReg) (s : State) : Host.Outcome State Fault Refusal :=
  completeG s d (logRead s.tables (s.readG x))

/-- The value of EXPR: EXP[k], or RangeError for k > 509 (R108). -/
def expRead (t : Tables) (k : Nat) : Except Failure Byte :=
  if k > 509 then .error .rangeError else .ok (t.expAt k)

/-- EXPR: `G[D] <- EXP[zext_16(IMM16)]` (R108). -/
def execExpr (d : GReg) (k : Nat) (s : State) : Host.Outcome State Fault Refusal :=
  completeG s d (expRead s.tables k)

end Sys2Proof.Machine
end

