-- ==== Sys2Proof/Machine/PolyCommands.lean ====
section
/-! DEFINITION. The commands of polynomial_mult and polynomial_divmod (spec/42_poly.md R141-R149). -/

namespace Sys2Proof.Machine

/-- PADD: `P[D] <- padd(poly(A), poly(B))` (R141). -/
def execPadd (d p q : PReg) (s : State) : Host.Outcome State Fault Refusal :=
  completeP s d (.ok (padd (s.poly p) (s.poly q)))

/-- PSCALE: `P[D] <- pscale(poly(A), G[B])` (R143). -/
def execPscale (d p : PReg) (x : GReg) (s : State) : Host.Outcome State Fault Refusal :=
  completeP s d (.ok (pscale s.tables (s.poly p) (s.readG x)))

/-- The value of PMUL: RangeError for an empty operand or a result longer than PMAX, before the product (R145, R232). -/
def pmulChecked (t : Tables) (p q : Poly) : Except Failure Poly :=
  if p.length = 0 ∨ q.length = 0 then .error .rangeError
  else if p.length + q.length - 1 > Config.pmax then .error .rangeError
  else pmul t p q

/-- PMUL: `P[D] <- pmul(poly(A), poly(B))` (R145). -/
def execPmul (d p q : PReg) (s : State) : Host.Outcome State Fault Refusal :=
  completeP s d (pmulChecked s.tables (s.poly p) (s.poly q))

/-- PEVAL: `G[D] <- peval(poly(A), G[B])` (R147). -/
def execPeval (d : GReg) (p : PReg) (x : GReg) (s : State) : Host.Outcome State Fault Refusal :=
  completeG s d (peval s.tables (s.poly p) (s.readG x))

/-- PDIVMOD: OperandConflict where the two destinations are one register, checked first; else quotient to `P[D]`, remainder
to `P[C]`, together (R149). -/
def execPdivmod (q r a b : PReg) (s : State) : Host.Outcome State Fault Refusal :=
  completePP s q r (if q = r then .error .operandConflict else pdivmod s.tables (s.poly a) (s.poly b))

end Sys2Proof.Machine
end

