-- ==== Sys2Proof/Machine/Dispatch.lean ====
section
/-! DEFINITION. One meaning per command: what the sequencer's completion of the command does (spec/70_reset_and_hazards.md
R270, spec/30_encoding.md R85). -/

namespace Sys2Proof.Machine

def exec (i : Instr) (s : State) : Host.Outcome State Fault Refusal :=
  match i with
  -- Galois field engine (0x1x)
  | .gadd d x y => Sys2Proof.Machine.execGadd d x y s
  | .gmul d x y => Sys2Proof.Machine.execGmul d x y s
  | .gmulnt d x y => Sys2Proof.Machine.execGmulnt d x y s
  | .gdiv d x y => Sys2Proof.Machine.execGdiv d x y s
  | .gpow d x n => Sys2Proof.Machine.execGpow d x n s
  | .ginv d x => Sys2Proof.Machine.execGinv d x s
  | .logr d x => Sys2Proof.Machine.execLogr d x s
  | .expr d k => Sys2Proof.Machine.execExpr d k s
  -- polynomial algebra (0x2x)
  | .padd d p q => Sys2Proof.Machine.execPadd d p q s
  | .pscale d p x => Sys2Proof.Machine.execPscale d p x s
  | .pmul d p q => Sys2Proof.Machine.execPmul d p q s
  | .peval d p x => Sys2Proof.Machine.execPeval d p x s
  | .pdivmod q r a b => Sys2Proof.Machine.execPdivmod q r a b s
  -- decoder stages (0x3x)
  | .synd d c => Sys2Proof.Machine.execSynd d c s
  | .fsynd d v c => Sys2Proof.Machine.execFsynd d v c s
  | .eloc d f => Sys2Proof.Machine.execEloc d f s
  | .chien d l c => Sys2Proof.Machine.execChien d l c s
  | .ploc d p c => Sys2Proof.Machine.execPloc d p c s
  | .eeval d v l => Sys2Proof.Machine.execEeval d v l s
  | .fmag d e p c => Sys2Proof.Machine.execFmag d e p c s
  | .corr d c p m => Sys2Proof.Machine.execCorr d c p m s
  -- generator, encoder, decoder (0x4x)
  | .genpoly d => Sys2Proof.Machine.execGenpoly d s
  | .encode d a => Sys2Proof.Machine.execEncode d a s
  | .decode d e c => Sys2Proof.Machine.execDecode d e c s

end Sys2Proof.Machine
end

