-- ==== Sys2Proof/Machine/Sequencer.lean ====
section
/-! DEFINITION. The sequencer's turn and the choice of who moves (spec/70_reset_and_hazards.md R270, R275, R277). -/

namespace Sys2Proof.Machine

/-- Execute an accepted command word as one indivisible step: decode it, and run the command or fail with IllegalCommand
(R86, R87, R232, R270). -/
def executeWord (w : Word) (s : State) : Host.Outcome State Fault Refusal :=
  match decode w with
  | some i => exec i s
  | none => .next (raiseFail s .illegalCommand)

/-- Complete: enabled only while BUSY = 1 (R277). An idle sequencer has no step to take and nothing changes (R242; log 7). -/
def sequencerTurn (s : State) : Host.Outcome State Fault Refusal :=
  match s.seq with
  | .idle => .next s
  | .building => .next (completeBuild s)
  | .command w => executeWord w s

/-- Who moves next: as the schedule says; when it is used up, the sequencer while BUSY = 1, else the host (R275, R277;
log 5). -/
def State.nextTurn (s : State) : Turn :=
  match s.turns with
  | t :: _ => t
  | [] => if s.busy then .sequencer else .host

/-- The state with this turn taken off the schedule. -/
def State.popTurn (s : State) : State := { s with turns := s.turns.tail }

/-- One step of the machine (R277). -/
def takeTurn (s : State) : Host.Outcome State Fault Refusal :=
  match s.nextTurn with
  | .host => .next (hostTurn s.popTurn)
  | .sequencer => sequencerTurn s.popTurn
  | .reset => .next (resetCore s.popTurn)

/-- The state in which the very next step executes a command word: the build is complete (as it always is before a command
is accepted, R103), the host's CMD write of the word is accepted (R270), and the next turn is the sequencer's. -/
def acceptForNextStep (s : State) (w : Word) : State :=
  { acceptCommand (if s.ready then s else completeBuild s) w with turns := .sequencer :: s.turns }

end Sys2Proof.Machine
end

