-- ==== Sys2Proof/Machine/Step.lean ====
section
/-! DEFINITION. The step function (spec/70_reset_and_hazards.md R277), and a command word placed where the next step
executes it. -/

namespace Sys2Proof.Machine

/-- One step: the agent whose turn it is moves (R277). -/
def step (s : State) : Host.Outcome State Fault Refusal := takeTurn s

/-- s with the command word of an opcode-table row accepted, so that the very next step executes it (log 6). -/
def State.withFetchWord (s : State) (nbits w : Nat) : State := acceptForNextStep s (tableWord nbits w)

end Sys2Proof.Machine
end

