-- ==== Sys2Proof/Machine/HostProgram.lean ====
section
/-! DEFINITION. The host program notation: poke, peek, wait, issue, loadp, loade (spec/30_encoding.md R90). -/

namespace Sys2Proof.Machine

/-- `poke ADDR, V`. -/
def poke (addr : Nat) (v : Word) : List HostOp := [.write (BitVec.ofNat 16 addr) v]

/-- `peek ADDR`. -/
def peek (addr : Nat) : List HostOp := [.read (BitVec.ofNat 16 addr)]

/-- `wait`. -/
def waitIdle : List HostOp := [.wait]

/-- `wait`, then the write of a word to CMD. -/
def issueWord (w : Word) : List HostOp := waitIdle ++ poke 0x0008 w

/-- `issue CMD`. -/
def issue (i : Instr) : List HostOp := issueWord (encode i)

/-- Writes of the cells from an address on. -/
def pokeCells (a : Nat) : List Byte → List HostOp
  | [] => []
  | b :: bs => poke a (b.setWidth 32) ++ pokeCells (a + 4) bs

/-- `loadp k, [c0, …, cL-1]`, preceded by `wait`, so that a command still running drops none of its writes (R90, R272;
log 21). -/
def loadp (k : PReg) (l : Poly) : List HostOp :=
  waitIdle ++ poke (plenAddr k) (BitVec.ofNat 32 l.length) ++ pokeCells (pcoefAddr k 0) l

/-- `loade [e0, …, eν-1]`, preceded by `wait` (R90, R272; log 21). -/
def loade (l : List Byte) : List HostOp :=
  waitIdle ++ poke 0x0014 (BitVec.ofNat 32 l.length) ++ pokeCells (eposAddr 0) l

end Sys2Proof.Machine
end

