-- ==== Sys2Proof/Safety.lean ====
section
/-! DEFINITION. What counts as a good state and as a safe step: the invariant of the machine, the cells a step reads, the
step that raises the two model faults of spec/60_exceptions.md R239, and agreement on written cells. -/

namespace Sys2Proof.Machine

/-! ### The invariant -/

/-- LOG[1..255] as the build leaves it (R102, R106). -/
def logPeriod : List Byte := (recordLogs expPeriod 0 Tables.unbuilt.log).tail

/-- The tables hold what the build writes: all of EXP, and LOG[1..255]; LOG[0] may be anything (R105, R106). -/
def Tables.Built (t : Tables) : Prop := t.exp = expTable ∧ t.log.tail = logPeriod

/-- What holds of the machine in every state that a run from reset reaches. -/
structure State.Inv (s : State) : Prop where
  /-- The byte cells are in canonical form. -/
  cells_canonical : s.cells.wf
  /-- Only EPOS and PCOEF cells are stored as byte cells (R64). -/
  cells_mapped : ∀ p ∈ s.cells, isCellAddr p.1
  /-- A cell that holds something has been written since reset (R36). -/
  cells_written : ∀ p ∈ s.cells, p.1 ∈ s.written
  /-- The record of written cells is strictly rising. -/
  written_rising : s.written.Pairwise (· < ·)
  /-- "0 ≤ nsym ≤ 254" (R24). -/
  nsym_legal : s.nsym.toNat ≤ 254
  /-- PLEN[k] is 0..PMAX (R28). -/
  plen_legal : ∀ k : PReg, s.readPlen k ≤ Config.pmax
  /-- ERR is 1 exactly where ERRCODE is not 0x00 (R23). -/
  err_code : s.err = s.errcode.isSome
  /-- READY is 0 exactly while the table build runs (R22, R32). -/
  ready_built : s.ready = !s.building
  /-- LOG has 256 entries (R31). -/
  log_length : s.tables.log.length = 256
  /-- "READY: 1 once the field tables are built" (R22). -/
  tables_built : s.ready = true → s.tables.Built

/-! ### The cells a step reads (R36, log 13) -/

/-- The cells read through PLEN[k]. -/
def polyCells (s : State) (k : PReg) : List Nat := (List.range (s.readPlen k)).map (pcoefAddr k)

/-- The cells read through ELEN. -/
def eraCells (s : State) : List Nat := (List.range s.nu).map eposAddr

/-- The G, PCOEF and EPOS cells whose contents a command uses. An operand of which "only its length is used" reads no cell. -/
def operandCells (i : Instr) (s : State) : List Nat :=
  match i with
  | .gadd _ x y | .gmul _ x y | .gmulnt _ x y | .gdiv _ x y => [gAddr x, gAddr y]
  | .gpow _ x _ | .ginv _ x | .logr _ x => [gAddr x]
  | .expr _ _ => []
  | .padd _ p q | .pmul _ p q => polyCells s p ++ polyCells s q
  | .pscale _ p x => polyCells s p ++ [gAddr x]
  | .peval _ p x => polyCells s p ++ [gAddr x]
  | .pdivmod _ _ a b => polyCells s a ++ polyCells s b
  | .synd _ c => polyCells s c
  | .fsynd _ v _ => polyCells s v ++ eraCells s
  | .eloc _ f => polyCells s f
  | .chien _ l _ => polyCells s l
  | .ploc _ p _ => polyCells s p
  | .eeval _ v l => polyCells s v ++ polyCells s l
  | .fmag _ e p _ => polyCells s e ++ polyCells s p
  | .corr _ c p mg => polyCells s c ++ polyCells s p ++ polyCells s mg
  | .genpoly _ => []
  | .encode _ a => polyCells s a
  | .decode _ _ c => polyCells s c ++ eraCells s

/-- The cells whose contents the next step uses: a command's operands at its execution (R270), a host read's cell (R61). -/
def cellsRead (s : State) : List Nat :=
  match s.nextTurn with
  | .reset => []
  | .host =>
    match s.hostOps with
    | .read addr :: _ => if s.busy then [] else (decodeAddr addr).cell.toList
    | .write _ _ :: _ | .wait :: _ | [] => []
  | .sequencer =>
    match s.seq with
    | .idle | .building => []
    | .command w =>
      match decode w with
      | some i => operandCells i s
      | none => []

/-- The first cell the next step uses that nothing has written since reset (R36, U1). -/
def uninitialisedRead (s : State) : Option Nat := (cellsRead s).find? fun a => decide (a ∉ s.written)

/-- The host address the next step reads although its value is unspecified while BUSY = 1 (R271, U2). -/
def unspecifiedRead (s : State) : Option Nat :=
  match s.nextTurn, s.hostOps with
  | .host, .read addr :: _ => if readsUnspecified s (decodeAddr addr) then some addr.toNat else none
  | _, _ => none

/-- The step that R239 asks of a model: a fault where a cell that nothing has written is read, or command-owned state is
read while BUSY = 1; elsewhere the machine's own step. A claim about a program is to be made about this step. -/
def checkedStep (s : State) : Host.Outcome State Fault Refusal :=
  match uninitialisedRead s with
  | some a => .fault (.uninitialisedCell a)
  | none =>
    match unspecifiedRead s with
    | some a => .fault (.busyRead a)
    | none => step s

/-! ### Agreement on written cells -/

/-- Two states that differ at most in the contents of G, PCOEF and EPOS cells that nothing has written since reset. -/
structure AgreeOnWritten (s t : State) : Prop where
  same_rest : { t with g := s.g, cells := s.cells } = s
  same_g : ∀ k : GReg, gAddr k ∈ s.written → s.readG k = t.readG k
  same_cells : ∀ a ∈ s.written, s.cells.read a = t.cells.read a

end Sys2Proof.Machine
end

