-- ==== Sys2Proof/Certificates/Slice0/Obligations.lean ====
section
/-! DEFINITION. The statements about the RS CORE. The definitions under Sys2Proof.Spec say in plain field arithmetic, with no
table and none of the model's own algorithms, what the rules ask for. -/

namespace Sys2Proof.Spec

open Sys2Proof.Machine

/-! ### Field arithmetic from the primitive polynomial alone (R100) -/

/-- The 15-bit carry-less product (R101). -/
def carryless (x y : Byte) : BitVec 15 :=
  (List.range 8).foldl (fun acc i => if y.getLsbD i then acc ^^^ (x.setWidth 15 <<< i) else acc) 0#15

/-- "XOR-reduce any bit ≥ bit 8 using the primitive polynomial", from bit 14 down (R101). -/
def reduce (v : BitVec 15) : Byte :=
  ((List.range 7).foldl (fun v k => if v.getLsbD (14 - k) then v ^^^ (0x11D#15 <<< (6 - k)) else v) v).setWidth 8

/-- The product of GF(256) (R100). -/
def product (x y : Byte) : Byte := reduce (carryless x y)

/-- x^n by repeated multiplication. -/
def power (x : Byte) : Nat → Byte
  | 0 => 1#8
  | n + 1 => product (power x n) x

/-- f(0) ^ f(1) ^ … ^ f(n-1). -/
def xorSum (n : Nat) (f : Nat → Byte) : Byte := (List.range n).foldl (fun acc i => acc ^^^ f i) 0#8

/-- f(0) · f(1) · … · f(n-1). -/
def productOf (n : Nat) (f : Nat → Byte) : Byte := (List.range n).foldl (fun acc i => product acc (f i)) 1#8

/-! ### Polynomials by their coefficients (R8) -/

/-- The coefficient of x^j (R8). -/
def coeff (p : Poly) (j : Nat) : Byte := p.reverse.getD j 0#8

/-- The coefficient of x^k of the product of two polynomials. -/
def productCoeff (p q : Poly) (k : Nat) : Byte := xorSum (k + 1) fun i => product (coeff p i) (coeff q (k - i))

/-- The product of two polynomials, most significant coefficient first, of length len(p) + len(q) - 1. -/
def productPoly (p q : Poly) : Poly :=
  (List.range (p.length + q.length - 1)).map fun i => productCoeff p q (p.length + q.length - 2 - i)

/-- The value of a polynomial at y. -/
def evalAt (p : Poly) (y : Byte) : Byte := xorSum p.length fun i => product (coeff p i) (power y i)

/-- The locator 2^(n-1-p) of position p (R13). -/
def locatorOf (n p : Nat) : Byte := power 2#8 (n - 1 - p)

/-- The values of c at 2^0 .. 2^(m-1), behind a reserved 0 (R179). -/
def syndromesOf (c : Poly) (m : Nat) : Poly := 0#8 :: (List.range m).map fun i => evalAt c (power 2#8 i)

/-- c vanishes at 2^0 .. 2^(m-1): it is a codeword (R204). -/
def isCodeword (c : Poly) (m : Nat) : Prop := ∀ i < m, evalAt c (power 2#8 i) = 0#8

/-- Every entry of a list is a position of a codeword of length n (R160). -/
def positionsOf (l : List Byte) (n : Nat) : Prop := ∀ p ∈ l, p.toNat < n

/-- One pass of the Forney fold (R162): entry j is x·f[j] ^ f[j+1], the last entry stays. -/
def foldOnce (x : Byte) (f : Poly) : Poly :=
  (List.range f.length).map fun j =>
    if j + 1 < f.length then product x (f.getD j 0#8) ^^^ f.getD (j + 1) 0#8 else f.getD j 0#8

/-- The sum of two polynomials, aligned to the right (R140). -/
def sumPoly (p q : Poly) : Poly :=
  (List.range (max p.length q.length)).map fun i =>
    coeff p (max p.length q.length - 1 - i) ^^^ coeff q (max p.length q.length - 1 - i)

/-- Every coefficient times x (R142). -/
def scalePoly (p : Poly) (x : Byte) : Poly := p.map fun c => product c x

/-- The inverse of a nonzero element: the one y with x · y = 1. -/
def inverseOf (x : Byte) : Byte :=
  (((List.range 256).map (BitVec.ofNat 8)).find? fun y => decide (product x y = 1#8)).getD 0#8

/-- The discrepancy of step i for the locator err: f[i] and the products `err[len(err)-1-j] · f[i-j]`, j = 1..len(err)-1
(R164). -/
def discrepancyAt (f err : Poly) (i : Nat) : Byte :=
  f.getD i 0#8 ^^^ xorSum (err.length - 1) fun j => product (coeff err (j + 1)) (f.getD (i - (j + 1)) 0#8)

/-- Step i of the iteration on (err, old): old moves up by one power of x; where the discrepancy is not 0, old and err swap,
scaled, if old is the longer (the degree-increase rule), and old times the discrepancy is added to err (R164). -/
def iterationStep (f : Poly) (st : Poly × Poly) (i : Nat) : Poly × Poly :=
  if discrepancyAt f st.1 i = 0#8 then (st.1, st.2 ++ [0#8])
  else if st.1.length < (st.2 ++ [0#8]).length then
    (sumPoly (scalePoly (st.2 ++ [0#8]) (discrepancyAt f st.1 i))
        (scalePoly (scalePoly st.1 (inverseOf (discrepancyAt f st.1 i))) (discrepancyAt f st.1 i)),
      scalePoly st.1 (inverseOf (discrepancyAt f st.1 i)))
  else (sumPoly st.1 (scalePoly (st.2 ++ [0#8]) (discrepancyAt f st.1 i)), st.2 ++ [0#8])

/-- The error locator after k steps from ([1], [1]), its leading zeros stripped (R164). -/
def errorLocator (f : Poly) (k : Nat) : Poly :=
  ((List.range k).foldl (iterationStep f) ([1#8], [1#8])).1.dropWhile fun c => c == 0#8

/-- The entry of the error vector at position i: the magnitude of the last k with Pos[k] = i, or 0 (R176). -/
def errorAt (pos mags : List Byte) (i : Nat) : Byte :=
  match (pos.zip mags).reverse.find? (fun pm => decide (pm.1.toNat = i)) with
  | some pm => pm.2
  | none => 0#8

/-- The product of the factors [X(p), 1] over a position list (R167). -/
def locatorProduct (pos : List Byte) (n : Nat) : Poly :=
  pos.foldl (fun l p => productPoly l [locatorOf n p.toNat, 1#8]) [1#8]

/-- The syndromes of c after one pass of the Forney fold for each erasure (R162, R179). -/
def foldedSyndromes (c : Poly) (era : List Byte) (m : Nat) : Poly :=
  era.foldl (fun f p => foldOnce (locatorOf c.length p.toNat) f) (syndromesOf c m).tail

/-- The positions n-1-i at which the reversed locator has the root 2^i, for ascending i (R169). -/
def locatedPositions (loc : Poly) (n : Nat) : List Byte :=
  ((List.range n).filter fun i => evalAt loc.reverse (power 2#8 i) == 0#8).map fun i => BitVec.ofNat 8 (n - 1 - i)

/-- The coefficients of x^0 .. x^m of rev(S) · L (R171, R172). -/
def lowCoefficients (synd l : Poly) (m : Nat) : Poly := (List.range (m + 1)).map (productCoeff synd.reverse l)

/-- The magnitude of entry i of a position list: X(i) times the value of the reversed evaluator at X(i)^-1, divided by the
product of 1 ^ X(i)^-1·X(j), j ≠ i (R174). -/
def magnitudeOf (ev : Poly) (pos : List Byte) (n i : Nat) : Byte :=
  let x := fun j => locatorOf n (pos.getD j 0#8).toNat
  product (product (x i) (evalAt ev.reverse (inverseOf (x i))))
    (inverseOf (productOf pos.length fun j => if j = i then 1#8 else 1#8 ^^^ product (inverseOf (x i)) (x j)))

/-- Steps 7 to 9 of DECODE on the blanked word c: c with the magnitude of every position of the list added (R206). -/
def correctedWord (c : Poly) (pos : List Byte) (m : Nat) : Poly :=
  (List.range c.length).map fun i => c.getD i 0#8 ^^^ errorAt pos
    ((List.range pos.length).map
      (magnitudeOf (lowCoefficients (syndromesOf c m) (locatorProduct pos c.length) m) pos c.length)) i

/-- The received word with a 0 at every erased position (R206 step 2). -/
def blanked (c : Poly) (era : List Byte) : Poly :=
  (List.range c.length).map fun i => if era.any (fun p => decide (p.toNat = i)) then 0#8 else c.getD i 0#8

/-- How many positions at which two words differ are not erased. -/
def undeclaredErrors (w c : Poly) (era : List Byte) : Nat :=
  ((List.range c.length).filter fun i =>
    decide (w.getD i 0#8 ≠ c.getD i 0#8) && !(era.any fun p => decide (p.toNat = i))).length

/-! ### Command words by their bits (R81, R82) -/

/-- The register field `w[lo+3:lo]`. -/
def nibble (w : Word) (lo : Nat) : Fin 16 := Fin.ofNat 16 (w.toNat / 2 ^ lo)

/-- `zext_16(IMM16)`. -/
def immediate (w : Word) : Nat := w.toNat % 65536

/-- `sext_16(IMM16)`. -/
def signedImmediate (w : Word) : Int := if immediate w < 32768 then immediate w else (immediate w : Int) - 65536

/-- The words of one row of the opcode map (R85): a word that matches decodes to f of it, and a word with the row's OP and
a nonzero unused field is illegal (R83). -/
def Encodes (pattern mask : Word) (f : Word → Instr) : Prop :=
  ∀ w : Word, (w &&& mask = pattern → decode w = some (f w)) ∧
    (w &&& 0xFF000000#32 = pattern → w &&& mask ≠ pattern → decode w = none)

/-! ### What commands write (R23, R25, R85, R231) -/

/-- The scalar destination of a command that has one (R85). -/
def scalarDest : Instr → Option GReg
  | .gadd d _ _ | .gmul d _ _ | .gmulnt d _ _ | .gdiv d _ _ => some d
  | .gpow d _ _ | .ginv d _ | .logr d _ | .expr d _ | .peval d _ _ => some d
  | .padd _ _ _ | .pscale _ _ _ | .pmul _ _ _ | .pdivmod _ _ _ _ | .synd _ _ | .fsynd _ _ _ | .eloc _ _ => none
  | .chien _ _ _ | .ploc _ _ _ | .eeval _ _ _ | .fmag _ _ _ _ | .corr _ _ _ _ | .genpoly _ | .encode _ _ => none
  | .decode _ _ _ => none

/-- The polynomial destinations of a command (R85). -/
def polyDests : Instr → List PReg
  | .gadd _ _ _ | .gmul _ _ _ | .gmulnt _ _ _ | .gdiv _ _ _ => []
  | .gpow _ _ _ | .ginv _ _ | .logr _ _ | .expr _ _ | .peval _ _ _ => []
  | .padd d _ _ | .pscale d _ _ | .pmul d _ _ | .synd d _ | .fsynd d _ _ | .eloc d _ => [d]
  | .chien d _ _ | .ploc d _ _ | .eeval d _ _ | .fmag d _ _ _ | .corr d _ _ _ | .genpoly d | .encode d _ => [d]
  | .pdivmod q r _ _ => [q, r]
  | .decode d e _ => [d, e]

/-- The scalar registers a command reads (R85). -/
def scalarSources : Instr → List GReg
  | .gadd _ x y | .gmul _ x y | .gmulnt _ x y | .gdiv _ x y => [x, y]
  | .gpow _ x _ | .ginv _ x | .logr _ x | .pscale _ _ x | .peval _ _ x => [x]
  | .expr _ _ | .padd _ _ _ | .pmul _ _ _ | .pdivmod _ _ _ _ | .synd _ _ | .fsynd _ _ _ | .eloc _ _ => []
  | .chien _ _ _ | .ploc _ _ _ | .eeval _ _ _ | .fmag _ _ _ _ | .corr _ _ _ _ | .genpoly _ | .encode _ _ => []
  | .decode _ _ _ => []

/-- The polynomial registers whose coefficients a command reads; not those of which "only its length is used" (R85, R163,
R168, R170, R175). -/
def polySources : Instr → List PReg
  | .gadd _ _ _ | .gmul _ _ _ | .gmulnt _ _ _ | .gdiv _ _ _ | .gpow _ _ _ | .ginv _ _ | .logr _ _ | .expr _ _ => []
  | .padd _ p q | .pmul _ p q | .pdivmod _ _ p q | .eeval _ p q | .fmag _ p q _ => [p, q]
  | .pscale _ p _ | .peval _ p _ | .synd _ p | .fsynd _ p _ | .eloc _ p | .chien _ p _ | .ploc _ p _ => [p]
  | .encode _ p | .decode _ _ p => [p]
  | .corr _ c p m => [c, p, m]
  | .genpoly _ => []

/-- The commands that read the positions of the erasure list (R163, R205, R206). -/
def readsErasures : Instr → Bool
  | .fsynd _ _ _ | .decode _ _ _ => true
  | .gadd _ _ _ | .gmul _ _ _ | .gmulnt _ _ _ | .gdiv _ _ _ | .gpow _ _ _ | .ginv _ _ | .logr _ _ | .expr _ _ => false
  | .padd _ _ _ | .pscale _ _ _ | .pmul _ _ _ | .peval _ _ _ | .pdivmod _ _ _ _ | .synd _ _ | .eloc _ _ => false
  | .chien _ _ _ | .ploc _ _ _ | .eeval _ _ _ | .fmag _ _ _ _ | .corr _ _ _ _ | .genpoly _ | .encode _ _ => false

/-- The host address of a G, PCOEF or EPOS cell that a command reads, through PLEN and ELEN (R36, R64). -/
def isSourceCell (i : Instr) (s : State) (a : Nat) : Prop :=
  (∃ k ∈ scalarSources i, a = 0x0040 + 4 * k.val) ∨
    (∃ k ∈ polySources i, ∃ j < s.readPlen k, a = 0x8000 + 0x800 * k.val + 4 * j) ∨
    (readsErasures i = true ∧ ∃ j < s.elen.toNat, a = 0x0400 + 4 * j)

/-- The host address of a G or PCOEF cell that a command wrote, the new PLEN read in t (R27, R36, R85). -/
def isDestinationCell (i : Instr) (t : State) (a : Nat) : Prop :=
  (∃ k, scalarDest i = some k ∧ a = 0x0040 + 4 * k.val) ∨
    ∃ k ∈ polyDests i, ∃ j < t.readPlen k, a = 0x8000 + 0x800 * k.val + 4 * j

/-- The commands that may write SZ (R23). -/
def writesSz : Instr → Bool
  | .synd _ _ | .decode _ _ _ => true
  | .gadd _ _ _ | .gmul _ _ _ | .gmulnt _ _ _ | .gdiv _ _ _ | .gpow _ _ _ | .ginv _ _ | .logr _ _ | .expr _ _ => false
  | .padd _ _ _ | .pscale _ _ _ | .pmul _ _ _ | .peval _ _ _ | .pdivmod _ _ _ _ | .fsynd _ _ _ | .eloc _ _ => false
  | .chien _ _ _ | .ploc _ _ _ | .eeval _ _ _ | .fmag _ _ _ _ | .corr _ _ _ _ | .genpoly _ | .encode _ _ => false

/-- The command that may write INFO (R25). -/
def writesInfo : Instr → Bool
  | .decode _ _ _ => true
  | .gadd _ _ _ | .gmul _ _ _ | .gmulnt _ _ _ | .gdiv _ _ _ | .gpow _ _ _ | .ginv _ _ | .logr _ _ | .expr _ _ => false
  | .padd _ _ _ | .pscale _ _ _ | .pmul _ _ _ | .peval _ _ _ | .pdivmod _ _ _ _ | .fsynd _ _ _ | .eloc _ _ => false
  | .chien _ _ _ | .ploc _ _ _ | .eeval _ _ _ | .fmag _ _ _ _ | .corr _ _ _ _ | .genpoly _ | .encode _ _ => false
  | .synd _ _ => false

/-- The codes the rows "raised by" of R231 give a command, in the order of its checks. -/
def mayRaise : Instr → List Failure
  | .gadd _ _ _ | .gmul _ _ _ | .gmulnt _ _ _ | .padd _ _ _ | .pscale _ _ _ | .genpoly _ => []
  | .gdiv _ _ _ => [.divisionByZero]
  | .gpow _ _ _ | .ginv _ _ => [.inverseOfZero]
  | .logr _ _ => [.logOfZero]
  | .expr _ _ | .pmul _ _ _ | .peval _ _ _ | .eeval _ _ _ => [.rangeError]
  | .pdivmod _ _ _ _ => [.operandConflict, .rangeError, .nonMonicDivisor]
  | .synd _ _ => [.messageTooLong, .rangeError]
  | .fsynd _ _ _ => [.rangeError, .messageTooLong, .badPosition]
  | .eloc _ _ => [.rangeError, .tooManyErasures, .tooManyErrors]
  | .chien _ _ _ => [.rangeError, .messageTooLong, .couldNotLocateErrors]
  | .ploc _ _ _ => [.messageTooLong, .rangeError, .badPosition]
  | .fmag _ _ _ _ => [.rangeError, .messageTooLong, .badPosition, .cannotComputeMagnitude]
  | .corr _ _ _ _ => [.messageTooLong, .rangeError, .badPosition]
  | .encode _ _ => [.messageTooLong]
  | .decode _ _ _ => [.operandConflict, .messageTooLong, .tooManyErasures, .rangeError, .badPosition, .tooManyErrors,
      .couldNotLocateErrors, .cannotComputeMagnitude, .couldNotCorrect]

/-- The state that no command writes: READY, OVR, NSYM, ELEN, the tables, and the host's side. -/
def KeepsControl (s t : State) : Prop :=
  t.ready = s.ready ∧ t.ovr = s.ovr ∧ t.nsym = s.nsym ∧ t.elen = s.elen ∧ t.tables = s.tables ∧ t.hostOps = s.hostOps ∧
    t.turns = s.turns ∧ t.hostReads = s.hostReads ∧ t.freeIndex = s.freeIndex

/-- INFO is as it was. -/
def KeepsInfo (s t : State) : Prop := t.nerrata = s.nerrata ∧ t.nerr = s.nerr

/-- The word a host read of an address returns. -/
def readAt (s : State) (addr : Addr) : Word := (hostRead s addr).hostReads.headD 0#32

/-- The address of an 8-bit read-write cell: ELEN, G, EPOS, PCOEF (R64). -/
def isByteCell (a : Nat) : Prop :=
  a % 4 = 0 ∧ (a = 0x0014 ∨ (0x0040 ≤ a ∧ a < 0x0080) ∨ (0x0400 ≤ a ∧ a < 0x07FC) ∨ 0x8000 ≤ a)

/-- CMD or a read-write register of the map (R64, R272). -/
def isWritable (a : Nat) : Prop :=
  a % 4 = 0 ∧ (a = 0x0008 ∨ a = 0x000C ∨ a = 0x0014 ∨ (0x0040 ≤ a ∧ a < 0x00C0) ∨ (0x0400 ≤ a ∧ a < 0x07FC) ∨ 0x8000 ≤ a)

/-- The address of command-owned state (R34, R64). -/
def isCommandOwned (a : Nat) : Prop :=
  a % 4 = 0 ∧ (a = 0x000C ∨ a = 0x0010 ∨ a = 0x0014 ∨ (0x0040 ≤ a ∧ a < 0x00C0) ∨ (0x0400 ≤ a ∧ a < 0x07FC) ∨ 0x8000 ≤ a)

/-- The step from s to t writes that G, PCOEF or EPOS cell, whatever the byte: a command that succeeds writes its destinations,
and a host write at BUSY = 0 its cell (R36, R61). -/
def writesCell (s t : State) (a : Nat) : Prop :=
  (∃ w i, s.nextTurn = .sequencer ∧ s.seq = .command w ∧ decode w = some i ∧ t.err = false ∧ isDestinationCell i t a) ∨
    ∃ addr v rest, s.nextTurn = .host ∧ s.busy = false ∧ s.hostOps = .write addr v :: rest ∧ isByteCell addr.toNat ∧
      addr ≠ 0x0014#16 ∧ a = addr.toNat

/-- The host's next access is a read of that address, whose word is unspecified: BUSY = 1 and the state is command-owned
(R271). -/
def readsUnspecifiedAt (s : State) (addr : Addr) : Prop :=
  s.nextTurn = .host ∧ s.busy = true ∧ isCommandOwned addr.toNat ∧ ∃ rest, s.hostOps = .read addr :: rest

/-- A reserved address of the map (R64, R65). -/
def isReserved (a : Nat) : Prop :=
  a % 4 = 0 ∧ ((0x0018 ≤ a ∧ a ≤ 0x003C) ∨ (0x00C0 ≤ a ∧ a ≤ 0x03FC) ∨ (0x07FC ≤ a ∧ a ≤ 0x7FFC))

end Sys2Proof.Spec

open Sys2Proof Sys2Proof.Machine Sys2Proof.Spec

/-! ### Encoding -/

/-- R81-R85, R88: assembling a well-formed command and decoding the word gives the command back. -/
def Obligations.DecodeOfEncode : Prop := ∀ i : Instr, i.wf = true → decode (encode i) = some i

/-- R80-R87: each word has one meaning; the word of the decoded command is the word itself. -/
def Obligations.EncodeOfDecode : Prop := ∀ (w : Word) (i : Instr), decode w = some i → encode i = w ∧ i.wf = true

/-- R85, R87: the decoder finds the row `(w & mask) == match` of the opcode map, and at most one row matches. -/
def Obligations.DecodeFollowsOpcodeMap : Prop :=
  ∀ w : Word,
    (∀ i, decode w = some i → ∃ r ∈ opcodeRows, r.matches w = true ∧ r.mnemonic = i.mnemonic) ∧
      (decode w = none → ∀ r ∈ opcodeRows, r.matches w = false) ∧
      ∀ r ∈ opcodeRows, ∀ r' ∈ opcodeRows, r.matches w = true → r'.matches w = true → r = r'

/-- R86: a word that matches no row, and every word whose OP byte is not listed, is illegal; once accepted it completes with
IllegalCommand (0x10) and no other state changes. -/
def Obligations.IllegalWordsFail : Prop :=
  (∀ w : Word, (∀ r ∈ opcodeRows, r.matches w = false) → decode w = none) ∧
  (∀ w : Word, (w.toNat / 2 ^ 24 ≤ 0x0F ∨ (0x18 ≤ w.toNat / 2 ^ 24 ∧ w.toNat / 2 ^ 24 ≤ 0x1F) ∨
      (0x25 ≤ w.toNat / 2 ^ 24 ∧ w.toNat / 2 ^ 24 ≤ 0x2F) ∨ (0x38 ≤ w.toNat / 2 ^ 24 ∧ w.toNat / 2 ^ 24 ≤ 0x3F) ∨
      0x43 ≤ w.toNat / 2 ^ 24) → decode w = none) ∧
  decode 0#32 = none ∧ Failure.illegalCommand.code = 0x10#8 ∧
  ∀ (s : State) (w : Word), decode w = none → s.nextTurn = .sequencer → s.seq = .command w →
    step s = .next { s.popTurn with err := true, errcode := some .illegalCommand, seq := .idle }

/-- Words written out from R81, R82 and R85 (spec/95_test_vectors.md 2.6). -/
def Obligations.HandEncodedWordsDecode : Prop :=
  decode 0x11312000#32 = some (.gmul 3 1 2) ∧ decode 0x42415000#32 = some (.decode 4 5 1) ∧
    decode 0x1471FFFF#32 = some (.gpow 7 1 (-1)) ∧ decode 0x179000CE#32 = some (.expr 9 206) ∧
    decode 0x24201300#32 = some (.pdivmod 2 3 0 1) ∧ decode 0x37905800#32 = some (.corr 9 0 5 8) ∧
    decode 0x11312001#32 = none ∧ decode 0x15512000#32 = none ∧ decode 0x17010008#32 = none ∧ decode 0x43000000#32 = none

/-! ### Steps -/

/-- R270: the sequencer's step executes the command its word decodes to; and `withFetchWord` places a word so that the very
next step executes it. -/
def Obligations.StepRunsTheDecodedCommand : Prop :=
  (∀ (s : State) (w : Word) (i : Instr), s.nextTurn = .sequencer → s.seq = .command w → decode w = some i →
    step s = exec i s.popTurn) ∧
  ∀ (s : State) (nbits w : Nat) (i : Instr), decodeTableWord nbits w = some i →
    (s.withFetchWord nbits w).cmdq = some (tableWord nbits w) ∧
      step (s.withFetchWord nbits w) = exec i (s.withFetchWord nbits w).popTurn

/-- R277: the host's step makes its next access, in program order. -/
def Obligations.StepMakesTheHostsAccess : Prop :=
  ∀ (s : State) (op : HostOp) (rest : List HostOp), s.nextTurn = .host → s.hostOps = op :: rest →
    (∀ addr, op = .read addr → step s = .next (hostRead { s.popTurn with hostOps := rest } addr)) ∧
      (∀ addr v, op = .write addr v → step s = .next (hostWrite { s.popTurn with hostOps := rest } addr v)) ∧
      (op = .wait → s.busy = true → step s = .next (hostRead s.popTurn 0x0004)) ∧
      (op = .wait → s.busy = false → step s = .next (hostRead { s.popTurn with hostOps := rest } 0x0004))

/-- Every step keeps the invariant of the machine, from every state that meets it. -/
def Obligations.StepKeepsInvariant : Prop := ∀ s t : State, s.Inv → step s = .next t → t.Inv

/-- The state after reset meets the invariant. -/
def Obligations.ResetMeetsInvariant : Prop := State.reset.Inv

/-- R35: the values the spec gives for reset. R260: reset takes effect whatever runs; the core is then as after reset, the
table build started, and the host's side stays. -/
def Obligations.ResetValues : Prop :=
  readAt State.reset 0x0000 = 0x52530100#32 ∧ readAt State.reset 0x0004 = 0x00000002#32 ∧ State.reset.ready = false ∧
    State.reset.busy = true ∧ State.reset.err = false ∧ State.reset.ovr = false ∧ State.reset.sz = false ∧
    errcodeByte State.reset.errcode = 0#8 ∧ State.reset.nsym = 7#8 ∧ infoWord State.reset = 0#32 ∧
    State.reset.elen = 0#8 ∧ (∀ k, State.reset.readPlen k = 0) ∧ State.reset.building = true ∧ State.reset.cmdq = none ∧
    ∀ s : State, s.nextTurn = .reset →
      step s = .next { State.reset with
        hostOps := s.hostOps, turns := s.turns.tail, hostReads := s.hostReads, freeIndex := s.freeIndex }

/-- R103, R261 step 3: in one step EXP and LOG are built, READY <- 1 and BUSY <- 0, and nothing else is written. -/
def Obligations.BuildCompletes : Prop :=
  ∀ s : State, s.Inv → s.nextTurn = .sequencer → s.seq = .building →
    ∃ t, step s = .next t ∧ t.tables.Built ∧ t.ready = true ∧ t.busy = false ∧
      { t with tables := s.tables, ready := s.ready, seq := s.seq, turns := s.turns } = s

/-- R31, R261 step 4: once built, READY stays 1 and the tables never change until the next reset. -/
def Obligations.TablesStayBuilt : Prop :=
  ∀ s t : State, s.Inv → s.ready = true → s.nextTurn ≠ .reset → step s = .next t → t.ready = true ∧ t.tables = s.tables

/-- R275: the build and every accepted command complete; from a busy state an idle state is reached within the turns the
schedule still holds and one more. -/
def Obligations.BusyStatesBecomeIdle : Prop :=
  ∀ s : State, s.busy = true →
    ∃ k t, k ≤ s.turns.length + 1 ∧ Host.Core.run Sys2Proof.core k s = .next t ∧ State.busy t = false

/-- R104, R106: EXP repeats with period 255, and EXP on 0..254 and LOG on 1..255 are inverse bijections. -/
def Obligations.TablesAreInverse : Prop :=
  ∀ t : Tables, t.Built →
    (∀ i, 255 ≤ i → i ≤ 509 → t.expAt i = t.expAt (i - 255)) ∧ (∀ i, i ≤ 254 → t.expAt i = power 2#8 i) ∧
      (∀ i, i ≤ 254 → t.logAt (t.expAt i) = i) ∧ ∀ x : Byte, x ≠ 0#8 → t.logAt x ≤ 254 ∧ t.expAt (t.logAt x) = x

/-! ### The host's accesses -/

/-- R64: what a read of each register returns while BUSY = 0, its unused bits 0. R28, R30, R64: the list that a command
reads from P[k] is PCOEF[k][0..PLEN[k]-1], and its erasure list is EPOS[0..ELEN-1], the very cells the host addresses. -/
def Obligations.RegisterMapReads : Prop :=
  (∀ s : State, s.busy = false →
    readAt s 0x0000 = 0x52530100#32 ∧ readAt s 0x0004 = statusWord s ∧ readAt s 0x0008 = 0#32 ∧
      readAt s 0x000C = s.nsym.setWidth 32 ∧ readAt s 0x0010 = infoWord s ∧ readAt s 0x0014 = s.elen.setWidth 32 ∧
      (∀ k : GReg, readAt s (BitVec.ofNat 16 (0x0040 + 4 * k.val)) = (s.readG k).setWidth 32) ∧
      (∀ k : PReg, readAt s (BitVec.ofNat 16 (0x0080 + 4 * k.val)) = BitVec.ofNat 32 (s.readPlen k)) ∧
      (∀ i < 255, readAt s (BitVec.ofNat 16 (0x0400 + 4 * i)) = (s.cells.read (0x0400 + 4 * i)).setWidth 32) ∧
      ∀ (k : PReg) (i : Nat), i < 512 → readAt s (BitVec.ofNat 16 (0x8000 + 0x800 * k.val + 4 * i)) =
        (s.cells.read (0x8000 + 0x800 * k.val + 4 * i)).setWidth 32) ∧
  ∀ s : State,
    (∀ k : PReg, s.poly k = (List.range (s.readPlen k)).map fun i => s.cells.read (0x8000 + 0x800 * k.val + 4 * i)) ∧
      s.era = (List.range s.elen.toNat).map fun i => s.cells.read (0x0400 + 4 * i)

/-- R24, R28, R29, R64, R70: while BUSY = 0 a read returns the most recent write, as WARL filters it; a write to any other
address than CMD that is not read-write changes nothing; no write changes what another address reads. -/
def Obligations.HostWriteThenRead : Prop :=
  ∀ (s : State) (addr : Addr) (v : Word), s.Inv → s.busy = false → addr ≠ 0x0008#16 →
    (isByteCell addr.toNat → readAt (hostWrite s addr v) addr = v &&& 0xFF#32) ∧
      (addr = 0x000C#16 → readAt (hostWrite s addr v) addr =
        if v &&& 0xFF#32 = 0xFF#32 then readAt s addr else v &&& 0xFF#32) ∧
      (addr.toNat % 4 = 0 → 0x0080 ≤ addr.toNat → addr.toNat < 0x00C0 → readAt (hostWrite s addr v) addr =
        if 512 < (v &&& 0x3FF#32).toNat then readAt s addr else v &&& 0x3FF#32) ∧
      (¬ isWritable addr.toNat → hostWrite s addr v = s) ∧
      ∀ other : Addr, other ≠ addr → readAt (hostWrite s addr v) other = readAt s other

/-- R63, R65: misaligned and reserved addresses read 0 and ignore writes, without setting OVR, whatever BUSY is. -/
def Obligations.MisalignedAndReservedIgnored : Prop :=
  ∀ (s : State) (addr : Addr) (v : Word), addr.toNat % 4 ≠ 0 ∨ isReserved addr.toNat →
    readAt s addr = 0#32 ∧ hostWrite s addr v = s

/-- R270: a CMD write at BUSY = 0 sets CMDQ, BUSY <- 1 and OVR <- 0 in one step, and nothing else. -/
def Obligations.CommandAcceptance : Prop :=
  ∀ (s : State) (v : Word), s.busy = false →
    hostWrite s 0x0008 v = { s with seq := .command v, ovr := false } ∧ (hostWrite s 0x0008 v).cmdq = some v ∧
      (hostWrite s 0x0008 v).busy = true

/-- R272: while BUSY = 1 a write to CMD or to a read-write register is dropped and sets OVR; every other write is ignored. -/
def Obligations.WritesWhileBusyAreDropped : Prop :=
  ∀ (s : State) (addr : Addr) (v : Word), s.busy = true →
    (isWritable addr.toNat → hostWrite s addr v = { s with ovr := true }) ∧
      (¬ isWritable addr.toNat → hostWrite s addr v = s)

/-- R271: while BUSY = 1 ID and STATUS read as defined, and CMD, reserved and misaligned addresses read 0. Nothing is said of
the word that command-owned state reads as. R22, R68, R277: at all times a read changes nothing of the core, and adds the word
read to those the host has read. -/
def Obligations.ReadsWhileBusy : Prop :=
  (∀ (s : State) (addr : Addr), s.busy = true →
    readAt s 0x0000 = 0x52530100#32 ∧ readAt s 0x0004 = statusWord s ∧ readAt s 0x0008 = 0#32 ∧
      (addr.toNat % 4 ≠ 0 ∨ isReserved addr.toNat → readAt s addr = 0#32)) ∧
  ∀ (s : State) (addr : Addr), { hostRead s addr with hostReads := s.hostReads, freeIndex := s.freeIndex } = s ∧
    (hostRead s addr).hostReads = readAt s addr :: s.hostReads

/-- R23, R274: OVR is set only by a write of the host dropped while BUSY = 1, and cleared only by an accepted CMD write or
reset. -/
def Obligations.OverrunFlagEvents : Prop :=
  ∀ s t : State, step s = .next t →
    (s.ovr = false → t.ovr = true → s.nextTurn = .host ∧ s.busy = true ∧
      ∃ addr v rest, s.hostOps = .write addr v :: rest ∧ isWritable addr.toNat) ∧
      (s.ovr = true → t.ovr = false → s.nextTurn = .reset ∨
        (s.nextTurn = .host ∧ s.busy = false ∧ ∃ v rest, s.hostOps = .write 0x0008 v :: rest))

/-- R22, R25, R231: the layouts of STATUS and INFO, and the failure codes. -/
def Obligations.StatusAndInfoLayout : Prop :=
  (∀ s : State, (statusWord s).getLsbD 0 = s.ready ∧ (statusWord s).getLsbD 1 = s.busy ∧
      (statusWord s).getLsbD 2 = s.err ∧ (statusWord s).getLsbD 3 = s.ovr ∧ (statusWord s).getLsbD 4 = s.sz ∧
      (statusWord s).extractLsb' 5 3 = 0#3 ∧ (statusWord s).extractLsb' 8 8 = errcodeByte s.errcode ∧
      (statusWord s).extractLsb' 16 16 = 0#16) ∧
  (∀ s : State, (infoWord s).extractLsb' 0 8 = s.nerrata ∧ (infoWord s).extractLsb' 8 8 = s.nerr ∧
      (infoWord s).extractLsb' 16 16 = 0#16) ∧
  errcodeByte none = 0x00#8 ∧
  [Failure.divisionByZero, .inverseOfZero, .messageTooLong, .tooManyErasures, .tooManyErrors, .couldNotLocateErrors,
    .cannotComputeMagnitude, .couldNotCorrect].map Failure.code = [1#8, 2#8, 3#8, 4#8, 5#8, 6#8, 7#8, 8#8] ∧
  [Failure.illegalCommand, .rangeError, .operandConflict, .logOfZero, .nonMonicDivisor, .badPosition].map Failure.code =
    [0x10#8, 0x11#8, 0x12#8, 0x13#8, 0x14#8, 0x15#8]

/-! ### Completion, failures and frames -/

/-- R23, R235, R270: every command completes; BUSY <- 0, CMDQ is empty, ERR <- (code ≠ 0). -/
def Obligations.EveryCommandCompletes : Prop :=
  ∀ (i : Instr) (s : State), ∃ t, exec i s = .next t ∧ t.busy = false ∧ t.cmdq = none ∧ t.err = t.errcode.isSome

/-- R230, R233: a failed command changes ERR, ERRCODE and BUSY, and nothing else. -/
def Obligations.FailedCommandWritesOnlyStatus : Prop :=
  ∀ (i : Instr) (s t : State), exec i s = .next t → t.err = true →
    ∃ code, t = { s with err := true, errcode := some code, seq := .idle }

/-- R231: a command raises only the codes the table gives it. -/
def Obligations.CommandsRaiseOnlyTheirCodes : Prop :=
  ∀ (i : Instr) (s t : State) (code : Failure), s.Inv → exec i s = .next t → t.errcode = some code → code ∈ mayRaise i

/-- The frame of the commands with one scalar destination: GADD, GMUL, GMULNT, GDIV, GPOW, GINV, LOGR, EXPR, PEVAL. -/
def Obligations.ScalarDestinationFrame : Prop :=
  ∀ (i : Instr) (d : GReg) (s t : State), scalarDest i = some d → exec i s = .next t →
    (∀ k, k ≠ d → t.readG k = s.readG k) ∧ (∀ k, t.readPlen k = s.readPlen k) ∧ (∀ a, t.cells.read a = s.cells.read a) ∧
      KeepsControl s t ∧ t.sz = s.sz ∧ KeepsInfo s t

/-- The frame of the commands with polynomial destinations: PADD, PSCALE, PMUL, PDIVMOD, SYND, FSYND, ELOC, CHIEN, PLOC,
EEVAL, FMAG, CORR, GENPOLY, ENCODE, DECODE. The bytes stored are the cells PCOEF[d][j], j below the new PLEN[d], of each
destination d: cells above keep their values (R27). -/
def Obligations.PolynomialDestinationFrame : Prop :=
  ∀ (i : Instr) (s t : State), scalarDest i = none → exec i s = .next t →
    (∀ k, t.readG k = s.readG k) ∧ (∀ k, k ∉ polyDests i → t.readPlen k = s.readPlen k) ∧
      (∀ a, (∀ d ∈ polyDests i, ∀ j < t.readPlen d, a ≠ pcoefAddr d j) → t.cells.read a = s.cells.read a) ∧
      (t.err = true → (∀ k, t.readPlen k = s.readPlen k) ∧ ∀ a, t.cells.read a = s.cells.read a) ∧
      KeepsControl s t ∧ (writesSz i = false → t.sz = s.sz) ∧ (writesInfo i = false → KeepsInfo s t)

/-- R27: `P[k] <- L`. -/
def Obligations.PolynomialWriteEffect : Prop :=
  ∀ (s : State) (k : PReg) (l : Poly), s.Inv →
    (512 < l.length → s.storePoly k l = .error .rangeError) ∧
      (l.length ≤ 512 → ∃ t, s.storePoly k l = .ok t ∧ t.readPlen k = l.length ∧ t.poly k = l ∧
        (∀ i (h : i < l.length), t.cells.read (0x8000 + 0x800 * k.val + 4 * i) = l[i]) ∧
        (∀ i, l.length ≤ i → i < 512 →
          t.cells.read (0x8000 + 0x800 * k.val + 4 * i) = s.cells.read (0x8000 + 0x800 * k.val + 4 * i)) ∧
        ∀ k', k' ≠ k → t.poly k' = s.poly k')

/-! ### Field commands -/

/-- R122: the table product is the bootstrap product, both are the product of the field, and the field laws hold. -/
def Obligations.TableProductIsFieldProduct : Prop :=
  ∀ t : Tables, t.Built →
    (∀ x y, gmul t x y = gmulNolut x y) ∧ (∀ x y, gmul t x y = product x y) ∧ (∀ x y, gmul t x y = gmul t y x) ∧
      (∀ x y z, gmul t (gmul t x y) z = gmul t x (gmul t y z)) ∧
      (∀ x y z, gmul t x (y ^^^ z) = gmul t x y ^^^ gmul t x z) ∧ (∀ x, gmul t 1#8 x = x) ∧ ∀ x, gmul t 0#8 x = 0#8

/-- R132: field consistency. -/
def Obligations.FieldConsistency : Prop :=
  ∀ (t : Tables) (x y : Byte), t.Built → x ≠ 0#8 → y ≠ 0#8 →
    gdiv t (gmul t x y) y = .ok x ∧ (∃ z, ginv t x = .ok z ∧ gmul t x z = 1#8) ∧ gpow t x 0 = .ok 1#8 ∧
      gpow t x 255 = gpow t x 0

/-- R126: GADD. -/
def Obligations.GaddAddsInTheField : Prop :=
  Encodes 0x10000000#32 0xFF000FFF#32 (fun w => .gadd (nibble w 20) (nibble w 16) (nibble w 12)) ∧
  ∀ (s : State) (d x y : GReg), exec (.gadd d x y) s = .next (succeed (s.writeG d (s.readG x ^^^ s.readG y)))

/-- R127: GMUL writes the product of the field. -/
def Obligations.GmulMultiplies : Prop :=
  Encodes 0x11000000#32 0xFF000FFF#32 (fun w => .gmul (nibble w 20) (nibble w 16) (nibble w 12)) ∧
  ∀ (s : State) (d x y : GReg), s.Inv → s.ready = true →
    exec (.gmul d x y) s = .next (succeed (s.writeG d (product (s.readG x) (s.readG y))))

/-- R128: GMULNT writes the product of the field, in every state: it reads no table. -/
def Obligations.GmulntMultiplies : Prop :=
  Encodes 0x12000000#32 0xFF000FFF#32 (fun w => .gmulnt (nibble w 20) (nibble w 16) (nibble w 12)) ∧
  ∀ (s : State) (d x y : GReg),
    exec (.gmulnt d x y) s = .next (succeed (s.writeG d (product (s.readG x) (s.readG y))))

/-- R129: GDIV writes the z with z · y = x, and fails with DivisionByZero where y = 0, whatever x is. -/
def Obligations.GdivDivides : Prop :=
  Encodes 0x13000000#32 0xFF000FFF#32 (fun w => .gdiv (nibble w 20) (nibble w 16) (nibble w 12)) ∧
  ∀ (s : State) (d x y : GReg), s.Inv → s.ready = true →
    (s.readG y = 0#8 → exec (.gdiv d x y) s = .next (raiseFail s .divisionByZero)) ∧
      (s.readG y ≠ 0#8 → ∃ z, product z (s.readG y) = s.readG x ∧ exec (.gdiv d x y) s = .next (succeed (s.writeG d z)))

/-- R130: GPOW with the signed exponent sext_16(IMM16); 0^0 = 1, and 0 to a negative power fails with InverseOfZero. -/
def Obligations.GpowRaisesToPower : Prop :=
  Encodes 0x14000000#32 0xFF000000#32 (fun w => .gpow (nibble w 20) (nibble w 16) (signedImmediate w)) ∧
  ∀ (s : State) (d x : GReg) (n : Int), s.Inv → s.ready = true →
    (0 ≤ n → exec (.gpow d x n) s = .next (succeed (s.writeG d (power (s.readG x) n.toNat)))) ∧
      (n < 0 → s.readG x = 0#8 → exec (.gpow d x n) s = .next (raiseFail s .inverseOfZero)) ∧
      (n < 0 → s.readG x ≠ 0#8 → ∃ z, product z (power (s.readG x) (-n).toNat) = 1#8 ∧
        exec (.gpow d x n) s = .next (succeed (s.writeG d z)))

/-- R131: GINV writes the z with x · z = 1, and fails with InverseOfZero where x = 0. -/
def Obligations.GinvInverts : Prop :=
  Encodes 0x15000000#32 0xFF00FFFF#32 (fun w => .ginv (nibble w 20) (nibble w 16)) ∧
  ∀ (s : State) (d x : GReg), s.Inv → s.ready = true →
    (s.readG x = 0#8 → exec (.ginv d x) s = .next (raiseFail s .inverseOfZero)) ∧
      (s.readG x ≠ 0#8 → ∃ z, product (s.readG x) z = 1#8 ∧ exec (.ginv d x) s = .next (succeed (s.writeG d z)))

/-- R107: LOGR writes the r in 0..254 with 2^r = x, and fails with LogOfZero where x = 0. -/
def Obligations.LogrTakesLogarithm : Prop :=
  Encodes 0x16000000#32 0xFF00FFFF#32 (fun w => .logr (nibble w 20) (nibble w 16)) ∧
  ∀ (s : State) (d x : GReg), s.Inv → s.ready = true →
    (s.readG x = 0#8 → exec (.logr d x) s = .next (raiseFail s .logOfZero)) ∧
      (s.readG x ≠ 0#8 → ∃ r : Nat, r ≤ 254 ∧ power 2#8 r = s.readG x ∧
        exec (.logr d x) s = .next (succeed (s.writeG d (BitVec.ofNat 8 r))))

/-- R108: EXPR writes 2^k for k ≤ 509, and fails with RangeError above. -/
def Obligations.ExprReadsExponentTable : Prop :=
  Encodes 0x17000000#32 0xFF0F0000#32 (fun w => .expr (nibble w 20) (immediate w)) ∧
  ∀ (s : State) (d : GReg) (k : Nat), s.Inv → s.ready = true →
    (k ≤ 509 → exec (.expr d k) s = .next (succeed (s.writeG d (power 2#8 k)))) ∧
      (509 < k → exec (.expr d k) s = .next (raiseFail s .rangeError))

/-! ### Polynomial commands -/

/-- R141, R140: PADD adds coefficient by coefficient, aligned to the right. -/
def Obligations.PaddAddsPolynomials : Prop :=
  Encodes 0x20000000#32 0xFF000FFF#32 (fun w => .padd (nibble w 20) (nibble w 16) (nibble w 12)) ∧
  ∀ (s : State) (d p q : PReg), s.Inv →
    exec (.padd d p q) s = .next (succeed (s.writePoly d
      ((List.range (max (s.poly p).length (s.poly q).length)).map fun i =>
        coeff (s.poly p) (max (s.poly p).length (s.poly q).length - 1 - i) ^^^
          coeff (s.poly q) (max (s.poly p).length (s.poly q).length - 1 - i))))

/-- R143, R142: PSCALE multiplies every coefficient. -/
def Obligations.PscaleScalesPolynomial : Prop :=
  Encodes 0x21000000#32 0xFF000FFF#32 (fun w => .pscale (nibble w 20) (nibble w 16) (nibble w 12)) ∧
  ∀ (s : State) (d p : PReg) (x : GReg), s.Inv → s.ready = true →
    exec (.pscale d p x) s = .next (succeed (s.writePoly d ((s.poly p).map fun c => product c (s.readG x))))

/-- R145, R144: PMUL writes the product, and fails with RangeError for an empty operand or a result longer than 512. -/
def Obligations.PmulMultipliesPolynomials : Prop :=
  Encodes 0x22000000#32 0xFF000FFF#32 (fun w => .pmul (nibble w 20) (nibble w 16) (nibble w 12)) ∧
  ∀ (s : State) (d p q : PReg), s.Inv → s.ready = true →
    ((s.poly p).length = 0 ∨ (s.poly q).length = 0 ∨ 512 < (s.poly p).length + (s.poly q).length - 1 →
      exec (.pmul d p q) s = .next (raiseFail s .rangeError)) ∧
    ((s.poly p).length ≠ 0 → (s.poly q).length ≠ 0 → (s.poly p).length + (s.poly q).length - 1 ≤ 512 →
      exec (.pmul d p q) s = .next (succeed (s.writePoly d (productPoly (s.poly p) (s.poly q)))))

/-- R147, R146: PEVAL writes the value at x, and fails with RangeError for the empty list. -/
def Obligations.PevalEvaluates : Prop :=
  Encodes 0x23000000#32 0xFF000FFF#32 (fun w => .peval (nibble w 20) (nibble w 16) (nibble w 12)) ∧
  ∀ (s : State) (d : GReg) (p : PReg) (x : GReg), s.Inv → s.ready = true →
    ((s.poly p).length = 0 → exec (.peval d p x) s = .next (raiseFail s .rangeError)) ∧
      ((s.poly p).length ≠ 0 →
        exec (.peval d p x) s = .next (succeed (s.writeG d (evalAt (s.poly p) (s.readG x)))))

/-- R149, R148, R150: PDIVMOD writes the quotient and the remainder with dividend = quotient · divisor + remainder, and makes
its checks in the order OperandConflict, RangeError, NonMonicDivisor. -/
def Obligations.PdivmodDivides : Prop :=
  Encodes 0x24000000#32 0xFF0000FF#32 (fun w => .pdivmod (nibble w 20) (nibble w 8) (nibble w 16) (nibble w 12)) ∧
  ∀ (s : State) (q r a b : PReg), s.Inv → s.ready = true →
    (q = r → exec (.pdivmod q r a b) s = .next (raiseFail s .operandConflict)) ∧
    (q ≠ r → (s.poly b).length = 0 ∨ (s.poly a).length < (s.poly b).length - 1 →
      exec (.pdivmod q r a b) s = .next (raiseFail s .rangeError)) ∧
    (q ≠ r → (s.poly b).length ≠ 0 → (s.poly b).length - 1 ≤ (s.poly a).length → (s.poly b).head? ≠ some 1#8 →
      exec (.pdivmod q r a b) s = .next (raiseFail s .nonMonicDivisor)) ∧
    (q ≠ r → (s.poly b).length - 1 ≤ (s.poly a).length → (s.poly b).head? = some 1#8 →
      ∃ quo rem : Poly, exec (.pdivmod q r a b) s = .next (succeed ((s.writePoly q quo).writePoly r rem)) ∧
        quo.length = (s.poly a).length + 1 - (s.poly b).length ∧ rem.length = (s.poly b).length - 1 ∧
        ∀ k, coeff (s.poly a) k = productCoeff quo (s.poly b) k ^^^ coeff rem k)

/-! ### Decoder stages -/

/-- R161, R179: SYND writes the reserved 0 and the values at 2^0 .. 2^(m-1); SZ <- every entry is 0. -/
def Obligations.SyndComputesSyndromes : Prop :=
  Encodes 0x30000000#32 0xFF00FFFF#32 (fun w => .synd (nibble w 20) (nibble w 16)) ∧
  ∀ (s : State) (d c : PReg), s.Inv → s.ready = true →
    (255 < (s.poly c).length → exec (.synd d c) s = .next (raiseFail s .messageTooLong)) ∧
    ((s.poly c).length = 0 → exec (.synd d c) s = .next (raiseFail s .rangeError)) ∧
    ((s.poly c).length ≠ 0 → (s.poly c).length ≤ 255 →
      ∃ zero : Bool, (zero = true ↔ ∀ x ∈ syndromesOf (s.poly c) s.nsym.toNat, x = 0#8) ∧
        exec (.synd d c) s =
          .next (succeed ({ s with sz := zero }.writePoly d (syndromesOf (s.poly c) s.nsym.toNat))))

/-- R163, R162: FSYND folds the erasures into the syndromes, and makes its checks in order. -/
def Obligations.FsyndFoldsErasures : Prop :=
  Encodes 0x31000000#32 0xFF000FFF#32 (fun w => .fsynd (nibble w 20) (nibble w 16) (nibble w 12)) ∧
  ∀ (s : State) (d v c : PReg), s.Inv → s.ready = true →
    ((s.poly v).length ≠ s.nsym.toNat + 1 → exec (.fsynd d v c) s = .next (raiseFail s .rangeError)) ∧
    ((s.poly v).length = s.nsym.toNat + 1 → 255 < (s.poly c).length →
      exec (.fsynd d v c) s = .next (raiseFail s .messageTooLong)) ∧
    ((s.poly v).length = s.nsym.toNat + 1 → (s.poly c).length = 0 →
      exec (.fsynd d v c) s = .next (raiseFail s .rangeError)) ∧
    ((s.poly v).length = s.nsym.toNat + 1 → (s.poly c).length ≠ 0 → (s.poly c).length ≤ 255 →
      (¬ (positionsOf s.era (s.poly c).length ∧ s.era.Nodup) →
        exec (.fsynd d v c) s = .next (raiseFail s .badPosition)) ∧
      (positionsOf s.era (s.poly c).length → s.era.Nodup →
        exec (.fsynd d v c) s = .next (succeed (s.writePoly d
          (s.era.foldl (fun f p => foldOnce (locatorOf (s.poly c).length p.toNat) f) (s.poly v).tail)))))

/-- R165, R164: ELOC makes its checks in order and writes the stripped locator of the iteration of R164, in plain field
arithmetic, after m - ν steps. -/
def Obligations.ElocWritesLocator : Prop :=
  Encodes 0x32000000#32 0xFF00FFFF#32 (fun w => .eloc (nibble w 20) (nibble w 16)) ∧
  ∀ (s : State) (d f : PReg) (loc : Poly), s.Inv → s.ready = true →
    loc = errorLocator (s.poly f) (s.nsym.toNat - s.elen.toNat) →
    ((s.poly f).length ≠ s.nsym.toNat → exec (.eloc d f) s = .next (raiseFail s .rangeError)) ∧
    ((s.poly f).length = s.nsym.toNat → s.nsym.toNat < s.elen.toNat →
      exec (.eloc d f) s = .next (raiseFail s .tooManyErasures)) ∧
    ((s.poly f).length = s.nsym.toNat → s.elen.toNat ≤ s.nsym.toNat →
      (s.nsym.toNat < 2 * (loc.length - 1) + s.elen.toNat →
        exec (.eloc d f) s = .next (raiseFail s .tooManyErrors)) ∧
      (2 * (loc.length - 1) + s.elen.toNat ≤ s.nsym.toNat →
        exec (.eloc d f) s = .next (succeed (s.writePoly d loc))))

/-- R166: the locator of ELOC has at least one coefficient, ends in 0x01, has a nonzero leading coefficient, and obeys
2·errs + ν ≤ m; at step i of the iteration len(err) ≤ i + 1; only f[0..m-ν-1] are read. -/
def Obligations.LocatorProperties : Prop :=
  (∀ (t : Tables) (f : Poly) (nu m : Nat) (loc : Poly), t.Built → bmLocator t f nu m = .ok loc →
    loc.getLast? = some 1#8 ∧ loc.head? ≠ some 0#8 ∧ 2 * (loc.length - 1) + nu ≤ m) ∧
  (∀ (t : Tables) (f : Poly) (i : Nat), t.Built →
    (bmIterate t f i).err.length ≤ i + 1 ∧ (bmIterate t f i).err.getLast? = some 1#8) ∧
  (∀ (t : Tables) (f f' : Poly) (k : Nat), f.take k = f'.take k → bmIterate t f k = bmIterate t f' k) ∧
  ∀ (t : Tables) (f : Poly) (m : Nat), bmLocator t f m m = .ok [1#8]

/-- R170, R169: CHIEN writes the positions n-1-i at which the reversed locator has the root 2^i, in ascending order of i, and
fails with CouldNotLocateErrors where their number is not len(loc) - 1. -/
def Obligations.ChienFindsRoots : Prop :=
  Encodes 0x33000000#32 0xFF000FFF#32 (fun w => .chien (nibble w 20) (nibble w 16) (nibble w 12)) ∧
  ∀ (s : State) (d l c : PReg) (roots : List Nat), s.Inv → s.ready = true →
    roots = (List.range (s.poly c).length).filter (fun i => evalAt (s.poly l).reverse (power 2#8 i) == 0#8) →
    ((s.poly l).length = 0 → exec (.chien d l c) s = .next (raiseFail s .rangeError)) ∧
    ((s.poly l).length ≠ 0 → 255 < (s.poly c).length →
      exec (.chien d l c) s = .next (raiseFail s .messageTooLong)) ∧
    ((s.poly l).length ≠ 0 → (s.poly c).length = 0 → exec (.chien d l c) s = .next (raiseFail s .rangeError)) ∧
    ((s.poly l).length ≠ 0 → (s.poly c).length ≠ 0 → (s.poly c).length ≤ 255 →
      (roots.length ≠ (s.poly l).length - 1 → exec (.chien d l c) s = .next (raiseFail s .couldNotLocateErrors)) ∧
      (roots.length = (s.poly l).length - 1 → exec (.chien d l c) s =
        .next (succeed (s.writePoly d (roots.map fun i => BitVec.ofNat 8 ((s.poly c).length - 1 - i))))))

/-- R168, R167: PLOC writes the product of the factors [X(p), 1] over the position list. -/
def Obligations.PlocMultipliesFactors : Prop :=
  Encodes 0x34000000#32 0xFF000FFF#32 (fun w => .ploc (nibble w 20) (nibble w 16) (nibble w 12)) ∧
  ∀ (s : State) (d p c : PReg), s.Inv → s.ready = true →
    (255 < (s.poly c).length → exec (.ploc d p c) s = .next (raiseFail s .messageTooLong)) ∧
    ((s.poly c).length = 0 → exec (.ploc d p c) s = .next (raiseFail s .rangeError)) ∧
    ((s.poly c).length ≠ 0 → (s.poly c).length ≤ 255 →
      (¬ positionsOf (s.poly p) (s.poly c).length → exec (.ploc d p c) s = .next (raiseFail s .badPosition)) ∧
      (positionsOf (s.poly p) (s.poly c).length → (s.poly p).length = 512 →
        exec (.ploc d p c) s = .next (raiseFail s .rangeError)) ∧
      (positionsOf (s.poly p) (s.poly c).length → (s.poly p).length < 512 →
        exec (.ploc d p c) s = .next (succeed (s.writePoly d
          ((s.poly p).foldl (fun l x => productPoly l [locatorOf (s.poly c).length x.toNat, 1#8]) [1#8])))))

/-- R173, R171, R172: EEVAL writes entry i = the coefficient of x^i of rev(S) · L, i = 0..m. -/
def Obligations.EevalKeepsLowCoefficients : Prop :=
  Encodes 0x35000000#32 0xFF000FFF#32 (fun w => .eeval (nibble w 20) (nibble w 16) (nibble w 12)) ∧
  ∀ (s : State) (d v l : PReg), s.Inv → s.ready = true →
    ((s.poly v).length ≠ s.nsym.toNat + 1 ∨ (s.poly l).length = 0 →
      exec (.eeval d v l) s = .next (raiseFail s .rangeError)) ∧
    ((s.poly v).length = s.nsym.toNat + 1 → (s.poly l).length ≠ 0 →
      exec (.eeval d v l) s = .next (succeed (s.writePoly d
        ((List.range (s.nsym.toNat + 1)).map fun i => productCoeff (s.poly v).reverse (s.poly l) i))))

/-- R175, R174: FMAG writes the magnitudes in the order of the positions: the magnitude of position i times the product of
1 ^ X(i)^-1·X(j), j ≠ i, is X(i) times the value of the reversed evaluator at X(i)^-1. It fails with CannotComputeMagnitude
exactly where a position is repeated. -/
def Obligations.FmagComputesMagnitudes : Prop :=
  Encodes 0x36000000#32 0xFF0000FF#32 (fun w => .fmag (nibble w 20) (nibble w 16) (nibble w 12) (nibble w 8)) ∧
  ∀ (s : State) (d e p c : PReg), s.Inv → s.ready = true →
    ((s.poly e).length = 0 → exec (.fmag d e p c) s = .next (raiseFail s .rangeError)) ∧
    ((s.poly e).length ≠ 0 → 255 < (s.poly c).length →
      exec (.fmag d e p c) s = .next (raiseFail s .messageTooLong)) ∧
    ((s.poly e).length ≠ 0 → (s.poly c).length = 0 → exec (.fmag d e p c) s = .next (raiseFail s .rangeError)) ∧
    ((s.poly e).length ≠ 0 → (s.poly c).length ≠ 0 → (s.poly c).length ≤ 255 →
      (¬ positionsOf (s.poly p) (s.poly c).length → exec (.fmag d e p c) s = .next (raiseFail s .badPosition)) ∧
      (positionsOf (s.poly p) (s.poly c).length → ¬ (s.poly p).Nodup →
        exec (.fmag d e p c) s = .next (raiseFail s .cannotComputeMagnitude)) ∧
      (positionsOf (s.poly p) (s.poly c).length → (s.poly p).Nodup →
        ∃ mags : List Byte, exec (.fmag d e p c) s = .next (succeed (s.writePoly d mags)) ∧
          mags.length = (s.poly p).length ∧
          ∀ i < mags.length, ∀ inv : Byte,
            product (locatorOf (s.poly c).length ((s.poly p).getD i 0#8).toNat) inv = 1#8 →
            product (mags.getD i 0#8) (productOf mags.length fun j =>
                if j = i then 1#8
                else 1#8 ^^^ product inv (locatorOf (s.poly c).length ((s.poly p).getD j 0#8).toNat)) =
              product (locatorOf (s.poly c).length ((s.poly p).getD i 0#8).toNat) (evalAt (s.poly e).reverse inv)))

/-- R177, R176: CORR XORs the error vector into the codeword, the later entry of a repeated position winning. -/
def Obligations.CorrAppliesErrorVector : Prop :=
  Encodes 0x37000000#32 0xFF0000FF#32 (fun w => .corr (nibble w 20) (nibble w 16) (nibble w 12) (nibble w 8)) ∧
  ∀ (s : State) (d c p mg : PReg), s.Inv →
    (255 < (s.poly c).length → exec (.corr d c p mg) s = .next (raiseFail s .messageTooLong)) ∧
    ((s.poly c).length = 0 → exec (.corr d c p mg) s = .next (raiseFail s .rangeError)) ∧
    ((s.poly c).length ≠ 0 → (s.poly c).length ≤ 255 → (s.poly p).length ≠ (s.poly mg).length →
      exec (.corr d c p mg) s = .next (raiseFail s .rangeError)) ∧
    ((s.poly c).length ≠ 0 → (s.poly c).length ≤ 255 → (s.poly p).length = (s.poly mg).length →
      (¬ positionsOf (s.poly p) (s.poly c).length → exec (.corr d c p mg) s = .next (raiseFail s .badPosition)) ∧
      (positionsOf (s.poly p) (s.poly c).length →
        exec (.corr d c p mg) s = .next (succeed (s.writePoly d
          ((List.range (s.poly c).length).map fun i =>
            (s.poly c).getD i 0#8 ^^^ errorAt (s.poly p) (s.poly mg) i)))))

/-! ### Codec -/

/-- R201, R200: GENPOLY writes the product of the binomials [1, 2^i], i = 0..m-1: m + 1 coefficients, the first 1, with the
roots 2^0 .. 2^(m-1). -/
def Obligations.GenpolyBuildsGenerator : Prop :=
  Encodes 0x40000000#32 0xFF0FFFFF#32 (fun w => .genpoly (nibble w 20)) ∧
  ∀ (s : State) (d : PReg) (gen : Poly), s.Inv → s.ready = true →
    gen = (List.range s.nsym.toNat).foldl (fun g i => productPoly g [1#8, power 2#8 i]) [1#8] →
    exec (.genpoly d) s = .next (succeed (s.writePoly d gen)) ∧ gen.length = s.nsym.toNat + 1 ∧ gen.head? = some 1#8 ∧
      isCodeword gen s.nsym.toNat

/-- R203, R202, R204: ENCODE writes a codeword of length len(data) + m that begins with the data and whose syndromes are all
0; it fails with MessageTooLong where the length would exceed 255. -/
def Obligations.EncodeWritesCodeword : Prop :=
  Encodes 0x41000000#32 0xFF00FFFF#32 (fun w => .encode (nibble w 20) (nibble w 16)) ∧
  ∀ (s : State) (d a : PReg), s.Inv → s.ready = true →
    (255 < (s.poly a).length + s.nsym.toNat → exec (.encode d a) s = .next (raiseFail s .messageTooLong)) ∧
    ((s.poly a).length + s.nsym.toNat ≤ 255 →
      ∃ word : Poly, exec (.encode d a) s = .next (succeed (s.writePoly d word)) ∧
        word.length = (s.poly a).length + s.nsym.toNat ∧ word.take (s.poly a).length = s.poly a ∧
        isCodeword word s.nsym.toNat)

/-- R205, R206: DECODE's operand checks in their order; then, where the blanked word is no codeword, the failure or the result
of steps 4 to 10 in stage order: TooManyErrors by the locator's degree, CouldNotLocateErrors where the roots do not match it
or no position is left, CannotComputeMagnitude where a position is repeated, CouldNotCorrect where the corrected word is no
codeword, and else its two parts, SZ <- 0 and INFO <- (len(Pos), len(pos)). -/
def Obligations.DecodeChecksInOrder : Prop :=
  Encodes 0x42000000#32 0xFF000FFF#32 (fun w => .decode (nibble w 20) (nibble w 12) (nibble w 16)) ∧
  (∀ (s : State) (d e c : PReg),
    (d = e → exec (.decode d e c) s = .next (raiseFail s .operandConflict)) ∧
    (d ≠ e → 255 < (s.poly c).length → exec (.decode d e c) s = .next (raiseFail s .messageTooLong)) ∧
    (d ≠ e → (s.poly c).length ≤ 255 → s.nsym.toNat < s.elen.toNat →
      exec (.decode d e c) s = .next (raiseFail s .tooManyErasures)) ∧
    (d ≠ e → (s.poly c).length ≤ 255 → s.elen.toNat ≤ s.nsym.toNat →
      (s.poly c).length = 0 ∨ (s.poly c).length < s.nsym.toNat →
      exec (.decode d e c) s = .next (raiseFail s .rangeError)) ∧
    (d ≠ e → (s.poly c).length ≤ 255 → s.elen.toNat ≤ s.nsym.toNat → (s.poly c).length ≠ 0 →
      s.nsym.toNat ≤ (s.poly c).length → ¬ (positionsOf s.era (s.poly c).length ∧ s.era.Nodup) →
      exec (.decode d e c) s = .next (raiseFail s .badPosition))) ∧
  ∀ (s : State) (d e c : PReg) (n m : Nat) (w loc pos word : Poly), s.Inv → s.ready = true → d ≠ e →
    n = (s.poly c).length → m = s.nsym.toNat → n ≤ 255 → s.elen.toNat ≤ m → n ≠ 0 → m ≤ n → positionsOf s.era n →
    s.era.Nodup → w = blanked (s.poly c) s.era → ¬ isCodeword w m →
    loc = errorLocator (foldedSyndromes w s.era m) (m - s.elen.toNat) → pos = locatedPositions loc n →
    word = correctedWord w (s.era ++ pos) m →
    (m < 2 * (loc.length - 1) + s.elen.toNat → exec (.decode d e c) s = .next (raiseFail s .tooManyErrors)) ∧
    (2 * (loc.length - 1) + s.elen.toNat ≤ m →
      (pos.length ≠ loc.length - 1 ∨ s.era ++ pos = [] →
        exec (.decode d e c) s = .next (raiseFail s .couldNotLocateErrors)) ∧
      (pos.length = loc.length - 1 → s.era ++ pos ≠ [] →
        (¬ (s.era ++ pos).Nodup → exec (.decode d e c) s = .next (raiseFail s .cannotComputeMagnitude)) ∧
        ((s.era ++ pos).Nodup →
          (¬ isCodeword word m → exec (.decode d e c) s = .next (raiseFail s .couldNotCorrect)) ∧
          (isCodeword word m → exec (.decode d e c) s = .next (succeed
            (({ s with
                  sz := false
                  nerrata := BitVec.ofNat 8 (s.era ++ pos).length
                  nerr := BitVec.ofNat 8 pos.length }.writePoly d (word.take (n - m))).writePoly e (word.drop (n - m))))))))

/-- R206 steps 1 to 3, R208: where the blanked word is a codeword, DECODE takes the no-correction exit: it writes the two
parts of the blanked word, SZ <- 1 and INFO <- 0. -/
def Obligations.DecodeNoCorrectionExit : Prop :=
  ∀ (s : State) (d e c : PReg) (w : Poly), s.Inv → s.ready = true → d ≠ e → (s.poly c).length ≤ 255 →
    s.elen.toNat ≤ s.nsym.toNat → (s.poly c).length ≠ 0 → s.nsym.toNat ≤ (s.poly c).length →
    positionsOf s.era (s.poly c).length → s.era.Nodup → w = blanked (s.poly c) s.era → isCodeword w s.nsym.toNat →
    exec (.decode d e c) s = .next (succeed (({ s with sz := true, nerrata := 0#8, nerr := 0#8 }.writePoly d
      (w.take (w.length - s.nsym.toNat))).writePoly e (w.drop (w.length - s.nsym.toNat))))

/-- R206, R207: a successful DECODE returns a codeword, split at n - m. Outside the erasures it differs from the received
word at no more than NERR positions; 2·NERR + ν ≤ m; NERRATA counts the erasures and the located errors, or is 0 on the
no-correction exit, which SZ = 1 marks. -/
def Obligations.DecodeReturnsCodeword : Prop :=
  ∀ (s t : State) (d e c : PReg), s.Inv → s.ready = true → exec (.decode d e c) s = .next t → t.err = false →
    (t.poly d ++ t.poly e).length = (s.poly c).length ∧ (t.poly e).length = s.nsym.toNat ∧
      isCodeword (t.poly d ++ t.poly e) s.nsym.toNat ∧
      undeclaredErrors (t.poly d ++ t.poly e) (s.poly c) s.era ≤ t.nerr.toNat ∧
      2 * t.nerr.toNat + s.elen.toNat ≤ s.nsym.toNat ∧
      (t.sz = true → t.nerrata = 0#8 ∧ t.nerr = 0#8 ∧ t.poly d ++ t.poly e = blanked (s.poly c) s.era) ∧
      (t.sz = false → t.nerrata.toNat = s.elen.toNat + t.nerr.toNat)

/-- R207: correction capacity. A received word that differs from a codeword of its length in e undeclared positions and the
ν declared erasures, 2·e + ν ≤ m, is decoded to that codeword. -/
def Obligations.DecodeCorrectsWithinCapacity : Prop :=
  ∀ (s : State) (d e c : PReg) (w : Poly), s.Inv → s.ready = true → d ≠ e → w.length = (s.poly c).length →
    (s.poly c).length ≠ 0 → (s.poly c).length ≤ 255 → s.nsym.toNat ≤ (s.poly c).length →
    positionsOf s.era (s.poly c).length → s.era.Nodup → isCodeword w s.nsym.toNat →
    2 * undeclaredErrors w (s.poly c) s.era + s.elen.toNat ≤ s.nsym.toNat →
    ∃ t, exec (.decode d e c) s = .next t ∧ t.err = false ∧ t.poly d = w.take (w.length - s.nsym.toNat) ∧
      t.poly e = w.drop (w.length - s.nsym.toNat)

/-- Round trip (R204, R206): ENCODE, then DECODE of the result with no erasures, gives the data back through the
no-correction exit. -/
def Obligations.EncodeThenDecodeRoundTrip : Prop :=
  ∀ (s : State) (w a d e : PReg), s.Inv → s.ready = true → d ≠ e → s.elen = 0#8 →
    (s.poly a).length + s.nsym.toNat ≤ 255 → (s.poly a).length + s.nsym.toNat ≠ 0 →
    ∃ t u, exec (.encode w a) s = .next t ∧ exec (.decode d e w) t = .next u ∧ u.err = false ∧ u.poly d = s.poly a ∧
      (s.poly a ++ u.poly e) = t.poly w ∧ u.sz = true ∧ infoWord u = 0#32

/-! ### Unwritten cells (R36) -/

/-- R36, R239, R271: a step reads the source cells of the command it executes, or the cell the host reads while BUSY = 0.
After a step the record of written cells holds those of before and those the step writes, whatever the byte, and is empty
after a reset. The checked step is the machine's step where every cell the step reads has been written since reset and no
unspecified word is read; it is the fault uninitialisedCell, at such a cell, where one has not, and else the fault busyRead
where an unspecified word is read. And two states that differ at most in what unwritten cells hold take the same checked step
and still differ at most there: the values of logs 1 and 2 are behind no checked step. -/
def Obligations.UnwrittenCellsDoNotMatter : Prop :=
  (∀ (s : State) (a : Nat), a ∈ cellsRead s ↔
    (∃ w i, s.nextTurn = .sequencer ∧ s.seq = .command w ∧ decode w = some i ∧ isSourceCell i s a) ∨
      (∃ addr rest, s.nextTurn = .host ∧ s.busy = false ∧ s.hostOps = .read addr :: rest ∧ isByteCell addr.toNat ∧
        addr ≠ 0x0014#16 ∧ a = addr.toNat)) ∧
  (∀ (s t : State) (a : Nat), step s = .next t →
    (a ∈ t.written ↔ s.nextTurn ≠ .reset ∧ (a ∈ s.written ∨ writesCell s t a))) ∧
  (∀ s : State, (∀ a ∈ cellsRead s, a ∈ s.written) → (∀ addr, ¬ readsUnspecifiedAt s addr) → checkedStep s = step s) ∧
  (∀ s : State, (∃ a ∈ cellsRead s, a ∉ s.written) →
    ∃ a ∈ cellsRead s, a ∉ s.written ∧ checkedStep s = .fault (.uninitialisedCell a)) ∧
  (∀ (s : State) (addr : Addr), (∀ a ∈ cellsRead s, a ∈ s.written) → readsUnspecifiedAt s addr →
    checkedStep s = .fault (.busyRead addr.toNat)) ∧
  ∀ s s' t : State, s.cells.wf → s'.cells.wf → (∀ p ∈ s.cells, isCellAddr p.1) → (∀ p ∈ s'.cells, isCellAddr p.1) →
    AgreeOnWritten s s' → checkedStep s = .next t →
    step s = .next t ∧ ∃ t', checkedStep s' = .next t' ∧ step s' = .next t' ∧ AgreeOnWritten t t'
end

