-- ==== Sys2Proof/Laws/State.lean ====
section
/-! SUPPORT. One lemma per field per update of State, so that no later proof unfolds a record update. -/

namespace Sys2Proof.Machine

/-! ### writeG -/

@[simp] theorem writeG_ready (s : State) (d : GReg) (v : Byte) : (s.writeG d v).ready = s.ready := rfl
@[simp] theorem writeG_err (s : State) (d : GReg) (v : Byte) : (s.writeG d v).err = s.err := rfl
@[simp] theorem writeG_ovr (s : State) (d : GReg) (v : Byte) : (s.writeG d v).ovr = s.ovr := rfl
@[simp] theorem writeG_sz (s : State) (d : GReg) (v : Byte) : (s.writeG d v).sz = s.sz := rfl
@[simp] theorem writeG_errcode (s : State) (d : GReg) (v : Byte) : (s.writeG d v).errcode = s.errcode := rfl
@[simp] theorem writeG_nsym (s : State) (d : GReg) (v : Byte) : (s.writeG d v).nsym = s.nsym := rfl
@[simp] theorem writeG_nerrata (s : State) (d : GReg) (v : Byte) : (s.writeG d v).nerrata = s.nerrata := rfl
@[simp] theorem writeG_nerr (s : State) (d : GReg) (v : Byte) : (s.writeG d v).nerr = s.nerr := rfl
@[simp] theorem writeG_elen (s : State) (d : GReg) (v : Byte) : (s.writeG d v).elen = s.elen := rfl
@[simp] theorem writeG_g (s : State) (d : GReg) (v : Byte) : (s.writeG d v).g = s.g.set d.val v := rfl
@[simp] theorem writeG_plen (s : State) (d : GReg) (v : Byte) : (s.writeG d v).plen = s.plen := rfl
@[simp] theorem writeG_cells (s : State) (d : GReg) (v : Byte) : (s.writeG d v).cells = s.cells := rfl
@[simp] theorem writeG_tables (s : State) (d : GReg) (v : Byte) : (s.writeG d v).tables = s.tables := rfl
@[simp] theorem writeG_seq (s : State) (d : GReg) (v : Byte) : (s.writeG d v).seq = s.seq := rfl
@[simp] theorem writeG_hostOps (s : State) (d : GReg) (v : Byte) : (s.writeG d v).hostOps = s.hostOps := rfl
@[simp] theorem writeG_turns (s : State) (d : GReg) (v : Byte) : (s.writeG d v).turns = s.turns := rfl
@[simp] theorem writeG_hostReads (s : State) (d : GReg) (v : Byte) : (s.writeG d v).hostReads = s.hostReads := rfl
@[simp] theorem writeG_freeIndex (s : State) (d : GReg) (v : Byte) : (s.writeG d v).freeIndex = s.freeIndex := rfl
@[simp] theorem writeG_written (s : State) (d : GReg) (v : Byte) : (s.writeG d v).written = markCell s.written (gAddr d) := rfl

/-! ### writePoly -/

@[simp] theorem writePoly_ready (s : State) (d : PReg) (l : Poly) : (s.writePoly d l).ready = s.ready := rfl
@[simp] theorem writePoly_err (s : State) (d : PReg) (l : Poly) : (s.writePoly d l).err = s.err := rfl
@[simp] theorem writePoly_ovr (s : State) (d : PReg) (l : Poly) : (s.writePoly d l).ovr = s.ovr := rfl
@[simp] theorem writePoly_sz (s : State) (d : PReg) (l : Poly) : (s.writePoly d l).sz = s.sz := rfl
@[simp] theorem writePoly_errcode (s : State) (d : PReg) (l : Poly) : (s.writePoly d l).errcode = s.errcode := rfl
@[simp] theorem writePoly_nsym (s : State) (d : PReg) (l : Poly) : (s.writePoly d l).nsym = s.nsym := rfl
@[simp] theorem writePoly_nerrata (s : State) (d : PReg) (l : Poly) : (s.writePoly d l).nerrata = s.nerrata := rfl
@[simp] theorem writePoly_nerr (s : State) (d : PReg) (l : Poly) : (s.writePoly d l).nerr = s.nerr := rfl
@[simp] theorem writePoly_elen (s : State) (d : PReg) (l : Poly) : (s.writePoly d l).elen = s.elen := rfl
@[simp] theorem writePoly_g (s : State) (d : PReg) (l : Poly) : (s.writePoly d l).g = s.g := rfl
@[simp] theorem writePoly_plen (s : State) (d : PReg) (l : Poly) : (s.writePoly d l).plen = s.plen.set d.val l.length := rfl
@[simp] theorem writePoly_cells (s : State) (d : PReg) (l : Poly) : (s.writePoly d l).cells = s.cells.writeList (pcoefAddr d 0) l := rfl
@[simp] theorem writePoly_tables (s : State) (d : PReg) (l : Poly) : (s.writePoly d l).tables = s.tables := rfl
@[simp] theorem writePoly_seq (s : State) (d : PReg) (l : Poly) : (s.writePoly d l).seq = s.seq := rfl
@[simp] theorem writePoly_hostOps (s : State) (d : PReg) (l : Poly) : (s.writePoly d l).hostOps = s.hostOps := rfl
@[simp] theorem writePoly_turns (s : State) (d : PReg) (l : Poly) : (s.writePoly d l).turns = s.turns := rfl
@[simp] theorem writePoly_hostReads (s : State) (d : PReg) (l : Poly) : (s.writePoly d l).hostReads = s.hostReads := rfl
@[simp] theorem writePoly_freeIndex (s : State) (d : PReg) (l : Poly) : (s.writePoly d l).freeIndex = s.freeIndex := rfl
@[simp] theorem writePoly_written (s : State) (d : PReg) (l : Poly) : (s.writePoly d l).written = markCells s.written (pcoefAddr d 0) l.length := rfl

/-! ### writeSz -/

@[simp] theorem writeSz_ready (s : State) (b : Bool) : (s.writeSz b).ready = s.ready := rfl
@[simp] theorem writeSz_err (s : State) (b : Bool) : (s.writeSz b).err = s.err := rfl
@[simp] theorem writeSz_ovr (s : State) (b : Bool) : (s.writeSz b).ovr = s.ovr := rfl
@[simp] theorem writeSz_sz (s : State) (b : Bool) : (s.writeSz b).sz = b := rfl
@[simp] theorem writeSz_errcode (s : State) (b : Bool) : (s.writeSz b).errcode = s.errcode := rfl
@[simp] theorem writeSz_nsym (s : State) (b : Bool) : (s.writeSz b).nsym = s.nsym := rfl
@[simp] theorem writeSz_nerrata (s : State) (b : Bool) : (s.writeSz b).nerrata = s.nerrata := rfl
@[simp] theorem writeSz_nerr (s : State) (b : Bool) : (s.writeSz b).nerr = s.nerr := rfl
@[simp] theorem writeSz_elen (s : State) (b : Bool) : (s.writeSz b).elen = s.elen := rfl
@[simp] theorem writeSz_g (s : State) (b : Bool) : (s.writeSz b).g = s.g := rfl
@[simp] theorem writeSz_plen (s : State) (b : Bool) : (s.writeSz b).plen = s.plen := rfl
@[simp] theorem writeSz_cells (s : State) (b : Bool) : (s.writeSz b).cells = s.cells := rfl
@[simp] theorem writeSz_tables (s : State) (b : Bool) : (s.writeSz b).tables = s.tables := rfl
@[simp] theorem writeSz_seq (s : State) (b : Bool) : (s.writeSz b).seq = s.seq := rfl
@[simp] theorem writeSz_hostOps (s : State) (b : Bool) : (s.writeSz b).hostOps = s.hostOps := rfl
@[simp] theorem writeSz_turns (s : State) (b : Bool) : (s.writeSz b).turns = s.turns := rfl
@[simp] theorem writeSz_hostReads (s : State) (b : Bool) : (s.writeSz b).hostReads = s.hostReads := rfl
@[simp] theorem writeSz_freeIndex (s : State) (b : Bool) : (s.writeSz b).freeIndex = s.freeIndex := rfl
@[simp] theorem writeSz_written (s : State) (b : Bool) : (s.writeSz b).written = s.written := rfl

/-! ### writeInfo -/

@[simp] theorem writeInfo_ready (s : State) (a b : Nat) : (s.writeInfo a b).ready = s.ready := rfl
@[simp] theorem writeInfo_err (s : State) (a b : Nat) : (s.writeInfo a b).err = s.err := rfl
@[simp] theorem writeInfo_ovr (s : State) (a b : Nat) : (s.writeInfo a b).ovr = s.ovr := rfl
@[simp] theorem writeInfo_sz (s : State) (a b : Nat) : (s.writeInfo a b).sz = s.sz := rfl
@[simp] theorem writeInfo_errcode (s : State) (a b : Nat) : (s.writeInfo a b).errcode = s.errcode := rfl
@[simp] theorem writeInfo_nsym (s : State) (a b : Nat) : (s.writeInfo a b).nsym = s.nsym := rfl
@[simp] theorem writeInfo_nerrata (s : State) (a b : Nat) : (s.writeInfo a b).nerrata = BitVec.ofNat 8 a := rfl
@[simp] theorem writeInfo_nerr (s : State) (a b : Nat) : (s.writeInfo a b).nerr = BitVec.ofNat 8 b := rfl
@[simp] theorem writeInfo_elen (s : State) (a b : Nat) : (s.writeInfo a b).elen = s.elen := rfl
@[simp] theorem writeInfo_g (s : State) (a b : Nat) : (s.writeInfo a b).g = s.g := rfl
@[simp] theorem writeInfo_plen (s : State) (a b : Nat) : (s.writeInfo a b).plen = s.plen := rfl
@[simp] theorem writeInfo_cells (s : State) (a b : Nat) : (s.writeInfo a b).cells = s.cells := rfl
@[simp] theorem writeInfo_tables (s : State) (a b : Nat) : (s.writeInfo a b).tables = s.tables := rfl
@[simp] theorem writeInfo_seq (s : State) (a b : Nat) : (s.writeInfo a b).seq = s.seq := rfl
@[simp] theorem writeInfo_hostOps (s : State) (a b : Nat) : (s.writeInfo a b).hostOps = s.hostOps := rfl
@[simp] theorem writeInfo_turns (s : State) (a b : Nat) : (s.writeInfo a b).turns = s.turns := rfl
@[simp] theorem writeInfo_hostReads (s : State) (a b : Nat) : (s.writeInfo a b).hostReads = s.hostReads := rfl
@[simp] theorem writeInfo_freeIndex (s : State) (a b : Nat) : (s.writeInfo a b).freeIndex = s.freeIndex := rfl
@[simp] theorem writeInfo_written (s : State) (a b : Nat) : (s.writeInfo a b).written = s.written := rfl

/-! ### writeCell -/

@[simp] theorem writeCell_ready (s : State) (a : Nat) (b : Byte) : (s.writeCell a b).ready = s.ready := rfl
@[simp] theorem writeCell_err (s : State) (a : Nat) (b : Byte) : (s.writeCell a b).err = s.err := rfl
@[simp] theorem writeCell_ovr (s : State) (a : Nat) (b : Byte) : (s.writeCell a b).ovr = s.ovr := rfl
@[simp] theorem writeCell_sz (s : State) (a : Nat) (b : Byte) : (s.writeCell a b).sz = s.sz := rfl
@[simp] theorem writeCell_errcode (s : State) (a : Nat) (b : Byte) : (s.writeCell a b).errcode = s.errcode := rfl
@[simp] theorem writeCell_nsym (s : State) (a : Nat) (b : Byte) : (s.writeCell a b).nsym = s.nsym := rfl
@[simp] theorem writeCell_nerrata (s : State) (a : Nat) (b : Byte) : (s.writeCell a b).nerrata = s.nerrata := rfl
@[simp] theorem writeCell_nerr (s : State) (a : Nat) (b : Byte) : (s.writeCell a b).nerr = s.nerr := rfl
@[simp] theorem writeCell_elen (s : State) (a : Nat) (b : Byte) : (s.writeCell a b).elen = s.elen := rfl
@[simp] theorem writeCell_g (s : State) (a : Nat) (b : Byte) : (s.writeCell a b).g = s.g := rfl
@[simp] theorem writeCell_plen (s : State) (a : Nat) (b : Byte) : (s.writeCell a b).plen = s.plen := rfl
@[simp] theorem writeCell_cells (s : State) (a : Nat) (b : Byte) : (s.writeCell a b).cells = s.cells.write a b := rfl
@[simp] theorem writeCell_tables (s : State) (a : Nat) (b : Byte) : (s.writeCell a b).tables = s.tables := rfl
@[simp] theorem writeCell_seq (s : State) (a : Nat) (b : Byte) : (s.writeCell a b).seq = s.seq := rfl
@[simp] theorem writeCell_hostOps (s : State) (a : Nat) (b : Byte) : (s.writeCell a b).hostOps = s.hostOps := rfl
@[simp] theorem writeCell_turns (s : State) (a : Nat) (b : Byte) : (s.writeCell a b).turns = s.turns := rfl
@[simp] theorem writeCell_hostReads (s : State) (a : Nat) (b : Byte) : (s.writeCell a b).hostReads = s.hostReads := rfl
@[simp] theorem writeCell_freeIndex (s : State) (a : Nat) (b : Byte) : (s.writeCell a b).freeIndex = s.freeIndex := rfl
@[simp] theorem writeCell_written (s : State) (a : Nat) (b : Byte) : (s.writeCell a b).written = markCell s.written a := rfl

/-! ### succeed -/

@[simp] theorem succeed_ready (s : State) : (succeed s).ready = s.ready := rfl
@[simp] theorem succeed_err (s : State) : (succeed s).err = false := rfl
@[simp] theorem succeed_ovr (s : State) : (succeed s).ovr = s.ovr := rfl
@[simp] theorem succeed_sz (s : State) : (succeed s).sz = s.sz := rfl
@[simp] theorem succeed_errcode (s : State) : (succeed s).errcode = none := rfl
@[simp] theorem succeed_nsym (s : State) : (succeed s).nsym = s.nsym := rfl
@[simp] theorem succeed_nerrata (s : State) : (succeed s).nerrata = s.nerrata := rfl
@[simp] theorem succeed_nerr (s : State) : (succeed s).nerr = s.nerr := rfl
@[simp] theorem succeed_elen (s : State) : (succeed s).elen = s.elen := rfl
@[simp] theorem succeed_g (s : State) : (succeed s).g = s.g := rfl
@[simp] theorem succeed_plen (s : State) : (succeed s).plen = s.plen := rfl
@[simp] theorem succeed_cells (s : State) : (succeed s).cells = s.cells := rfl
@[simp] theorem succeed_tables (s : State) : (succeed s).tables = s.tables := rfl
@[simp] theorem succeed_seq (s : State) : (succeed s).seq = .idle := rfl
@[simp] theorem succeed_hostOps (s : State) : (succeed s).hostOps = s.hostOps := rfl
@[simp] theorem succeed_turns (s : State) : (succeed s).turns = s.turns := rfl
@[simp] theorem succeed_hostReads (s : State) : (succeed s).hostReads = s.hostReads := rfl
@[simp] theorem succeed_freeIndex (s : State) : (succeed s).freeIndex = s.freeIndex := rfl
@[simp] theorem succeed_written (s : State) : (succeed s).written = s.written := rfl

/-! ### raiseFail -/

@[simp] theorem raiseFail_ready (s : State) (c : Failure) : (raiseFail s c).ready = s.ready := rfl
@[simp] theorem raiseFail_err (s : State) (c : Failure) : (raiseFail s c).err = true := rfl
@[simp] theorem raiseFail_ovr (s : State) (c : Failure) : (raiseFail s c).ovr = s.ovr := rfl
@[simp] theorem raiseFail_sz (s : State) (c : Failure) : (raiseFail s c).sz = s.sz := rfl
@[simp] theorem raiseFail_errcode (s : State) (c : Failure) : (raiseFail s c).errcode = some c := rfl
@[simp] theorem raiseFail_nsym (s : State) (c : Failure) : (raiseFail s c).nsym = s.nsym := rfl
@[simp] theorem raiseFail_nerrata (s : State) (c : Failure) : (raiseFail s c).nerrata = s.nerrata := rfl
@[simp] theorem raiseFail_nerr (s : State) (c : Failure) : (raiseFail s c).nerr = s.nerr := rfl
@[simp] theorem raiseFail_elen (s : State) (c : Failure) : (raiseFail s c).elen = s.elen := rfl
@[simp] theorem raiseFail_g (s : State) (c : Failure) : (raiseFail s c).g = s.g := rfl
@[simp] theorem raiseFail_plen (s : State) (c : Failure) : (raiseFail s c).plen = s.plen := rfl
@[simp] theorem raiseFail_cells (s : State) (c : Failure) : (raiseFail s c).cells = s.cells := rfl
@[simp] theorem raiseFail_tables (s : State) (c : Failure) : (raiseFail s c).tables = s.tables := rfl
@[simp] theorem raiseFail_seq (s : State) (c : Failure) : (raiseFail s c).seq = .idle := rfl
@[simp] theorem raiseFail_hostOps (s : State) (c : Failure) : (raiseFail s c).hostOps = s.hostOps := rfl
@[simp] theorem raiseFail_turns (s : State) (c : Failure) : (raiseFail s c).turns = s.turns := rfl
@[simp] theorem raiseFail_hostReads (s : State) (c : Failure) : (raiseFail s c).hostReads = s.hostReads := rfl
@[simp] theorem raiseFail_freeIndex (s : State) (c : Failure) : (raiseFail s c).freeIndex = s.freeIndex := rfl
@[simp] theorem raiseFail_written (s : State) (c : Failure) : (raiseFail s c).written = s.written := rfl

/-! ### acceptCommand -/

@[simp] theorem acceptCommand_ready (s : State) (w : Word) : (acceptCommand s w).ready = s.ready := rfl
@[simp] theorem acceptCommand_err (s : State) (w : Word) : (acceptCommand s w).err = s.err := rfl
@[simp] theorem acceptCommand_ovr (s : State) (w : Word) : (acceptCommand s w).ovr = false := rfl
@[simp] theorem acceptCommand_sz (s : State) (w : Word) : (acceptCommand s w).sz = s.sz := rfl
@[simp] theorem acceptCommand_errcode (s : State) (w : Word) : (acceptCommand s w).errcode = s.errcode := rfl
@[simp] theorem acceptCommand_nsym (s : State) (w : Word) : (acceptCommand s w).nsym = s.nsym := rfl
@[simp] theorem acceptCommand_nerrata (s : State) (w : Word) : (acceptCommand s w).nerrata = s.nerrata := rfl
@[simp] theorem acceptCommand_nerr (s : State) (w : Word) : (acceptCommand s w).nerr = s.nerr := rfl
@[simp] theorem acceptCommand_elen (s : State) (w : Word) : (acceptCommand s w).elen = s.elen := rfl
@[simp] theorem acceptCommand_g (s : State) (w : Word) : (acceptCommand s w).g = s.g := rfl
@[simp] theorem acceptCommand_plen (s : State) (w : Word) : (acceptCommand s w).plen = s.plen := rfl
@[simp] theorem acceptCommand_cells (s : State) (w : Word) : (acceptCommand s w).cells = s.cells := rfl
@[simp] theorem acceptCommand_tables (s : State) (w : Word) : (acceptCommand s w).tables = s.tables := rfl
@[simp] theorem acceptCommand_seq (s : State) (w : Word) : (acceptCommand s w).seq = .command w := rfl
@[simp] theorem acceptCommand_hostOps (s : State) (w : Word) : (acceptCommand s w).hostOps = s.hostOps := rfl
@[simp] theorem acceptCommand_turns (s : State) (w : Word) : (acceptCommand s w).turns = s.turns := rfl
@[simp] theorem acceptCommand_hostReads (s : State) (w : Word) : (acceptCommand s w).hostReads = s.hostReads := rfl
@[simp] theorem acceptCommand_freeIndex (s : State) (w : Word) : (acceptCommand s w).freeIndex = s.freeIndex := rfl
@[simp] theorem acceptCommand_written (s : State) (w : Word) : (acceptCommand s w).written = s.written := rfl

/-! ### completeBuild -/

@[simp] theorem completeBuild_ready (s : State) : (completeBuild s).ready = true := rfl
@[simp] theorem completeBuild_err (s : State) : (completeBuild s).err = s.err := rfl
@[simp] theorem completeBuild_ovr (s : State) : (completeBuild s).ovr = s.ovr := rfl
@[simp] theorem completeBuild_sz (s : State) : (completeBuild s).sz = s.sz := rfl
@[simp] theorem completeBuild_errcode (s : State) : (completeBuild s).errcode = s.errcode := rfl
@[simp] theorem completeBuild_nsym (s : State) : (completeBuild s).nsym = s.nsym := rfl
@[simp] theorem completeBuild_nerrata (s : State) : (completeBuild s).nerrata = s.nerrata := rfl
@[simp] theorem completeBuild_nerr (s : State) : (completeBuild s).nerr = s.nerr := rfl
@[simp] theorem completeBuild_elen (s : State) : (completeBuild s).elen = s.elen := rfl
@[simp] theorem completeBuild_g (s : State) : (completeBuild s).g = s.g := rfl
@[simp] theorem completeBuild_plen (s : State) : (completeBuild s).plen = s.plen := rfl
@[simp] theorem completeBuild_cells (s : State) : (completeBuild s).cells = s.cells := rfl
@[simp] theorem completeBuild_tables (s : State) : (completeBuild s).tables = buildTables s.tables := rfl
@[simp] theorem completeBuild_seq (s : State) : (completeBuild s).seq = .idle := rfl
@[simp] theorem completeBuild_hostOps (s : State) : (completeBuild s).hostOps = s.hostOps := rfl
@[simp] theorem completeBuild_turns (s : State) : (completeBuild s).turns = s.turns := rfl
@[simp] theorem completeBuild_hostReads (s : State) : (completeBuild s).hostReads = s.hostReads := rfl
@[simp] theorem completeBuild_freeIndex (s : State) : (completeBuild s).freeIndex = s.freeIndex := rfl
@[simp] theorem completeBuild_written (s : State) : (completeBuild s).written = s.written := rfl

/-! ### popTurn -/

@[simp] theorem popTurn_ready (s : State) : s.popTurn.ready = s.ready := rfl
@[simp] theorem popTurn_err (s : State) : s.popTurn.err = s.err := rfl
@[simp] theorem popTurn_ovr (s : State) : s.popTurn.ovr = s.ovr := rfl
@[simp] theorem popTurn_sz (s : State) : s.popTurn.sz = s.sz := rfl
@[simp] theorem popTurn_errcode (s : State) : s.popTurn.errcode = s.errcode := rfl
@[simp] theorem popTurn_nsym (s : State) : s.popTurn.nsym = s.nsym := rfl
@[simp] theorem popTurn_nerrata (s : State) : s.popTurn.nerrata = s.nerrata := rfl
@[simp] theorem popTurn_nerr (s : State) : s.popTurn.nerr = s.nerr := rfl
@[simp] theorem popTurn_elen (s : State) : s.popTurn.elen = s.elen := rfl
@[simp] theorem popTurn_g (s : State) : s.popTurn.g = s.g := rfl
@[simp] theorem popTurn_plen (s : State) : s.popTurn.plen = s.plen := rfl
@[simp] theorem popTurn_cells (s : State) : s.popTurn.cells = s.cells := rfl
@[simp] theorem popTurn_tables (s : State) : s.popTurn.tables = s.tables := rfl
@[simp] theorem popTurn_seq (s : State) : s.popTurn.seq = s.seq := rfl
@[simp] theorem popTurn_hostOps (s : State) : s.popTurn.hostOps = s.hostOps := rfl
@[simp] theorem popTurn_turns (s : State) : s.popTurn.turns = s.turns.tail := rfl
@[simp] theorem popTurn_hostReads (s : State) : s.popTurn.hostReads = s.hostReads := rfl
@[simp] theorem popTurn_freeIndex (s : State) : s.popTurn.freeIndex = s.freeIndex := rfl
@[simp] theorem popTurn_written (s : State) : s.popTurn.written = s.written := rfl

/-! ### The views of a state that the updates keep or change -/

@[simp] theorem succeed_busy (s : State) : (succeed s).busy = false := rfl
@[simp] theorem raiseFail_busy (s : State) (c : Failure) : (raiseFail s c).busy = false := rfl
@[simp] theorem completeBuild_busy (s : State) : (completeBuild s).busy = false := rfl
@[simp] theorem acceptCommand_busy (s : State) (w : Word) : (acceptCommand s w).busy = true := rfl
@[simp] theorem acceptCommand_cmdq (s : State) (w : Word) : (acceptCommand s w).cmdq = some w := rfl
@[simp] theorem succeed_readG (s : State) (k : GReg) : (succeed s).readG k = s.readG k := rfl
@[simp] theorem succeed_readPlen (s : State) (k : PReg) : (succeed s).readPlen k = s.readPlen k := rfl
@[simp] theorem succeed_poly (s : State) (k : PReg) : (succeed s).poly k = s.poly k := rfl
@[simp] theorem raiseFail_readG (s : State) (c : Failure) (k : GReg) : (raiseFail s c).readG k = s.readG k := rfl
@[simp] theorem raiseFail_readPlen (s : State) (c : Failure) (k : PReg) : (raiseFail s c).readPlen k = s.readPlen k := rfl
@[simp] theorem raiseFail_poly (s : State) (c : Failure) (k : PReg) : (raiseFail s c).poly k = s.poly k := rfl
@[simp] theorem writeSz_poly (s : State) (b : Bool) (k : PReg) : (s.writeSz b).poly k = s.poly k := rfl
@[simp] theorem writeInfo_poly (s : State) (a b : Nat) (k : PReg) : (s.writeInfo a b).poly k = s.poly k := rfl
@[simp] theorem writeG_poly (s : State) (d : GReg) (v : Byte) (k : PReg) : (s.writeG d v).poly k = s.poly k := rfl
@[simp] theorem writeG_readPlen (s : State) (d : GReg) (v : Byte) (k : PReg) : (s.writeG d v).readPlen k = s.readPlen k := rfl
@[simp] theorem writeG_m (s : State) (d : GReg) (v : Byte) : (s.writeG d v).m = s.m := rfl
@[simp] theorem writeSz_m (s : State) (b : Bool) : (s.writeSz b).m = s.m := rfl
@[simp] theorem writeInfo_m (s : State) (a b : Nat) : (s.writeInfo a b).m = s.m := rfl
@[simp] theorem writePoly_m (s : State) (d : PReg) (l : Poly) : (s.writePoly d l).m = s.m := rfl
@[simp] theorem writePoly_readG (s : State) (d : PReg) (l : Poly) (k : GReg) : (s.writePoly d l).readG k = s.readG k := rfl

/-- A read of G after a write of G (R26). -/
@[simp] theorem readG_writeG (s : State) (d k : GReg) (v : Byte) :
    (s.writeG d v).readG k = if d = k then v else s.readG k := by
  simp [State.readG, Vector.getElem_set, Fin.ext_iff]

/-- A read of PLEN after a write of a polynomial register (R27). -/
@[simp] theorem readPlen_writePoly (s : State) (d k : PReg) (l : Poly) :
    (s.writePoly d l).readPlen k = if d = k then l.length else s.readPlen k := by
  simp [State.readPlen, Vector.getElem_set, Fin.ext_iff]

end Sys2Proof.Machine
end

