-- ==== Sys2Proof/Laws/Memory.lean ====
section
/-! SUPPORT. What the byte-cell operations do: a read after a write, and the canonical form (spec/20_memory.md R70). -/

namespace Sys2Proof.Machine

variable (m : Memory) (a b : Nat) (v : Byte)

/-! ### One cell -/

theorem read_place (rest : Memory) : Memory.read (Memory.place a v rest) b =
    if a = b ∧ v ≠ Config.unwrittenCell then v else Memory.read rest b := by
  unfold Memory.place
  by_cases h : v = Config.unwrittenCell <;> by_cases hb : a = b <;> simp [Memory.read, h, hb]

/-- A write leaves every other cell as it was. -/
theorem read_write_of_ne (h : a ≠ b) : (m.write a v).read b = m.read b := by
  induction m with
  | nil => simp [Memory.write, read_place, Memory.read, h]
  | cons p rest ih =>
    obtain ⟨x, y⟩ := p
    simp only [Memory.write]
    split
    · simp [read_place, h]
    · split
      · next hx => subst hx; simp [read_place, Memory.read, h]
      · simp [Memory.read, ih]

/-- An address below every listed one reads as an unlisted address does. -/
theorem read_of_all_lt (h : ∀ p ∈ m, a < p.1) : m.read a = Config.unwrittenCell := by
  induction m with
  | nil => rfl
  | cons p rest ih =>
    obtain ⟨x, y⟩ := p
    have hx : a < x := h (x, y) (by simp)
    simp only [Memory.read]
    rw [if_neg (by omega)]
    exact ih fun q hq => h q (by simp [hq])

/-- A read after a write to the same cell gives the byte written. -/
theorem read_write_self (hm : m.wf) : (m.write a v).read a = v := by
  induction m with
  | nil => by_cases h : v = Config.unwrittenCell <;> simp [Memory.write, read_place, Memory.read, h]
  | cons p rest ih =>
    obtain ⟨x, y⟩ := p
    have hp := List.pairwise_cons.mp hm.1
    have hrest : Memory.wf rest := ⟨hp.2, fun q hq => hm.2 q (by simp [hq])⟩
    simp only [Memory.write]
    split
    · next hlt =>
      have hall : ∀ q ∈ (x, y) :: rest, a < q.1 := by
        intro q hq
        rcases List.mem_cons.mp hq with rfl | hq
        · exact hlt
        · exact lt_trans hlt (hp.1 q hq)
      by_cases h : v = Config.unwrittenCell
      · simp [read_place, h, read_of_all_lt _ _ hall]
      · simp [read_place, h]
    · split
      · next heq =>
        subst heq
        by_cases h : v = Config.unwrittenCell
        · simp [read_place, h, read_of_all_lt _ _ hp.1]
        · simp [read_place, h]
      · next hlt hne => simp [Memory.read, Ne.symm hne, ih hrest]

/-- A read after a write (R70). -/
theorem read_write (hm : m.wf) : (m.write a v).read b = if a = b then v else m.read b := by
  by_cases h : a = b
  · subst h; simp [read_write_self m a v hm]
  · simp [h, read_write_of_ne m a b v h]

/-! ### The canonical form -/

theorem mem_place {p : Host.Cell} {rest : Memory} (h : p ∈ Memory.place a v rest) : p = (a, v) ∨ p ∈ rest := by
  unfold Memory.place at h
  split at h
  · exact .inr h
  · simpa using h

/-- A written memory lists no other address than the old ones and the one written. -/
theorem mem_write {p : Host.Cell} (h : p ∈ m.write a v) : p = (a, v) ∨ p ∈ m := by
  induction m with
  | nil => exact mem_place a v h
  | cons q rest ih =>
    obtain ⟨x, y⟩ := q
    simp only [Memory.write] at h
    split at h
    · exact mem_place a v h
    · split at h
      · rcases mem_place a v h with h | h
        · exact .inl h
        · exact .inr (by simp [h])
      · rcases List.mem_cons.mp h with h | h
        · exact .inr (by simp [h])
        · rcases ih h with h | h
          · exact .inl h
          · exact .inr (by simp [h])

theorem place_wf {rest : Memory} (hr : Memory.wf rest) (hlt : ∀ p ∈ rest, a < p.1) :
    Memory.wf (Memory.place a v rest) := by
  unfold Memory.place
  split
  · exact hr
  · next hv =>
    refine ⟨List.pairwise_cons.mpr ⟨hlt, hr.1⟩, fun p hp => ?_⟩
    rcases List.mem_cons.mp hp with rfl | hp
    · exact hv
    · exact hr.2 p hp

/-- A write keeps the canonical form. -/
theorem write_wf (hm : m.wf) : (m.write a v).wf := by
  induction m with
  | nil => exact place_wf a v hm (by simp)
  | cons q rest ih =>
    obtain ⟨x, y⟩ := q
    have hp := List.pairwise_cons.mp hm.1
    have hrest : Memory.wf rest := ⟨hp.2, fun q hq => hm.2 q (by simp [hq])⟩
    simp only [Memory.write]
    split
    · next hlt =>
      refine place_wf a v hm fun q hq => ?_
      rcases List.mem_cons.mp hq with rfl | hq
      · exact hlt
      · exact lt_trans hlt (hp.1 q hq)
    · split
      · next heq => subst heq; exact place_wf a v hrest hp.1
      · next hlt hne =>
        have hw := ih hrest
        refine ⟨List.pairwise_cons.mpr ⟨fun q hq => ?_, hw.1⟩, fun q hq => ?_⟩
        · rcases mem_write rest a v hq with rfl | hq
          · simp only; omega
          · exact hp.1 q hq
        · rcases List.mem_cons.mp hq with rfl | hq
          · exact hm.2 _ (by simp)
          · exact hw.2 q hq

/-! ### Lists of cells -/

/-- Writing a list of cells keeps the canonical form. -/
theorem writeList_wf (l : List Byte) (hm : m.wf) : (m.writeList a l).wf := by
  induction l generalizing m a with
  | nil => exact hm
  | cons x xs ih => exact ih (m.write a x) (a + 4) (write_wf m a x hm)

/-- Writing a list of cells leaves every other cell as it was. -/
theorem read_writeList_of_ne (l : List Byte) (h : ∀ i < l.length, a + 4 * i ≠ b) : (m.writeList a l).read b = m.read b := by
  induction l generalizing m a with
  | nil => rfl
  | cons x xs ih =>
    have h0 : a ≠ b := by simpa using h 0 (by simp)
    have hs : ∀ i < xs.length, a + 4 + 4 * i ≠ b := fun i hi => by
      have := h (i + 1) (by simpa using hi)
      omega
    simpa [Memory.writeList, read_write_of_ne m a b x h0] using ih (m.write a x) (a + 4) hs

/-- A read of a cell of the written list. -/
theorem read_writeList (l : List Byte) (hm : m.wf) (i : Nat) (hi : i < l.length) :
    (m.writeList a l).read (a + 4 * i) = l[i] := by
  induction l generalizing m a i with
  | nil => simp at hi
  | cons x xs ih =>
    cases i with
    | zero =>
      have hne : ∀ j < xs.length, a + 4 + 4 * j ≠ a := fun j _ => by omega
      simpa [Memory.writeList, read_write_self m a x hm] using
        read_writeList_of_ne (m.write a x) (a + 4) a xs hne
    | succ j =>
      have hj : j < xs.length := by simpa using hi
      have h := ih (m.write a x) (a + 4) (write_wf m a x hm) j hj
      have ha : a + 4 * (j + 1) = a + 4 + 4 * j := by omega
      simpa [Memory.writeList, ha] using h

/-- A memory written with a list lists no other address than the old ones and those of the list. -/
theorem mem_writeList {p : Host.Cell} (l : List Byte) (h : p ∈ m.writeList a l) :
    (∃ i < l.length, p.1 = a + 4 * i) ∨ p ∈ m := by
  induction l generalizing m a with
  | nil => exact .inr h
  | cons x xs ih =>
    rcases ih (m.write a x) (a + 4) h with ⟨i, hi, hp⟩ | h
    · exact .inl ⟨i + 1, by simpa using hi, by omega⟩
    · rcases mem_write m a x h with rfl | h
      · exact .inl ⟨0, by simp, by simp⟩
      · exact .inr h

@[simp] theorem readList_length (n : Nat) : (m.readList a n).length = n := by
  induction n generalizing a with
  | zero => rfl
  | succ n ih => simp [Memory.readList, ih]

/-- Entry i of a list of cells is the cell 4·i above the first. -/
theorem readList_getElem (n i : Nat) (hi : i < n) :
    (m.readList a n)[i]'(by simpa using hi) = m.read (a + 4 * i) := by
  induction n generalizing a i with
  | zero => omega
  | succ n ih =>
    cases i with
    | zero => simp [Memory.readList]
    | succ j =>
      have ha : a + 4 * (j + 1) = a + 4 + 4 * j := by omega
      simpa [Memory.readList, ha] using ih (a + 4) j (by omega)

/-- Two memories that agree on the n cells from address a on give the same list. -/
theorem readList_congr {m m' : Memory} {a n : Nat} (h : ∀ i < n, m.read (a + 4 * i) = m'.read (a + 4 * i)) :
    m.readList a n = m'.readList a n := by
  refine List.ext_getElem (by simp) fun i hi _ => ?_
  have hi' : i < n := by simpa using hi
  rw [readList_getElem m a n i hi', readList_getElem m' a n i hi', h i hi']

/-- Reading back a written list of cells. -/
theorem readList_writeList (l : List Byte) (hm : m.wf) : (m.writeList a l).readList a l.length = l := by
  refine List.ext_getElem (by simp) fun i hi hl => ?_
  rw [readList_getElem _ a l.length i hl, read_writeList m a l hm i hl]

/-! ### Polynomial registers -/

@[simp] theorem poly_length (s : State) (k : PReg) : (s.poly k).length = s.readPlen k := by simp [State.poly]

@[simp] theorem era_length (s : State) : s.era.length = s.nu := by simp [State.era]

/-- Cells of two polynomial registers do not share an address (R64). -/
theorem pcoefAddr_ne {d k : PReg} (h : d ≠ k) {i j : Nat} (hi : i < 512) (hj : j < 512) :
    pcoefAddr d i ≠ pcoefAddr k j := by
  have : d.val ≠ k.val := fun e => h (Fin.ext e)
  simp only [pcoefAddr]
  omega

/-- What a polynomial register holds after it has been written (R27). -/
theorem poly_writePoly_self (s : State) (d : PReg) (l : Poly) (hm : s.cells.wf) : (s.writePoly d l).poly d = l := by
  simp [State.poly, readList_writeList s.cells _ l hm]

/-- A write of one polynomial register leaves every other as it was (R27). -/
theorem poly_writePoly_of_ne (s : State) {d k : PReg} (l : Poly) (h : d ≠ k) (hl : l.length ≤ 512)
    (hk : s.readPlen k ≤ 512) : (s.writePoly d l).poly k = s.poly k := by
  simp only [State.poly, readPlen_writePoly, writePoly_cells, h, if_false]
  refine readList_congr fun j hj => read_writeList_of_ne _ _ _ _ fun i hi => ?_
  have := pcoefAddr_ne h (show i < 512 by omega) (show j < 512 by omega)
  simp only [pcoefAddr] at *
  omega

/-! ### The record of written cells -/

@[simp] theorem mem_markCell (w : List Nat) (x : Nat) : x ∈ markCell w a ↔ x = a ∨ x ∈ w := by
  induction w with
  | nil => simp [markCell]
  | cons y ys ih =>
    simp only [markCell]
    split
    · simp
    · split
      · next h => simp [h]
      · simp [ih]; tauto

/-- Marking a cell keeps the record strictly rising. -/
theorem markCell_rising (w : List Nat) (hw : w.Pairwise (· < ·)) : (markCell w a).Pairwise (· < ·) := by
  induction w with
  | nil => simp [markCell]
  | cons y ys ih =>
    have hp := List.pairwise_cons.mp hw
    simp only [markCell]
    split
    · next h =>
      refine List.pairwise_cons.mpr ⟨fun q hq => ?_, hw⟩
      rcases List.mem_cons.mp hq with rfl | hq
      · exact h
      · exact lt_trans h (hp.1 q hq)
    · split
      · exact hw
      · refine List.pairwise_cons.mpr ⟨fun q hq => ?_, ih hp.2⟩
        rcases (mem_markCell a ys q).mp hq with rfl | hq
        · omega
        · exact hp.1 q hq

theorem mem_markCells (w : List Nat) (n x : Nat) : x ∈ markCells w a n ↔ (∃ i < n, x = a + 4 * i) ∨ x ∈ w := by
  induction n generalizing w a with
  | zero => simp [markCells]
  | succ n ih =>
    rw [markCells, ih, mem_markCell]
    constructor
    · rintro (⟨i, hi, rfl⟩ | rfl | h)
      · exact .inl ⟨i + 1, by omega, by omega⟩
      · exact .inl ⟨0, by omega, by omega⟩
      · exact .inr h
    · rintro (⟨i, hi, rfl⟩ | h)
      · cases i with
        | zero => exact .inr (.inl (by simp))
        | succ i => exact .inl ⟨i, by omega, by omega⟩
      · exact .inr (.inr h)

theorem markCells_rising (w : List Nat) (n : Nat) (hw : w.Pairwise (· < ·)) : (markCells w a n).Pairwise (· < ·) := by
  induction n generalizing w a with
  | zero => exact hw
  | succ n ih => exact ih (a + 4) (markCell w a) (markCell_rising a w hw)

end Sys2Proof.Machine
end

