-- ==== Sys2Proof/Laws/Ops.lean ====
section
/-! SUPPORT. What completing a command does, once for all commands (spec/60_exceptions.md R230, R233, R235; spec/10_state.md
R27). -/

namespace Sys2Proof.Machine

variable (s : State)

/-- Completing a command always answers a next state: with success or with a failure (R239). -/
theorem complete_cases (r : Except Failure State) :
    (∃ t, r = .ok t ∧ complete s r = .next (succeed t)) ∨
      ∃ e, r = .error e ∧ complete s r = .next (raiseFail s e) := by
  cases r with
  | error e => exact .inr ⟨e, rfl, rfl⟩
  | ok t => exact .inl ⟨t, rfl, rfl⟩

@[simp] theorem complete_ok (t : State) : complete s (.ok t) = .next (succeed t) := rfl

@[simp] theorem complete_error (e : Failure) : complete s (.error e) = .next (raiseFail s e) := rfl

@[simp] theorem completeG_ok (d : GReg) (v : Byte) : completeG s d (.ok v) = .next (succeed (s.writeG d v)) := rfl

@[simp] theorem completeG_error (d : GReg) (e : Failure) : completeG s d (.error e) = .next (raiseFail s e) := rfl

/-- What a command with one scalar destination can do (R120, R233). -/
theorem completeG_cases (d : GReg) (r : Except Failure Byte) :
    (∃ v, r = .ok v ∧ completeG s d r = .next (succeed (s.writeG d v))) ∨
      ∃ e, r = .error e ∧ completeG s d r = .next (raiseFail s e) := by
  cases r with
  | error e => exact .inr ⟨e, rfl, rfl⟩
  | ok v => exact .inl ⟨v, rfl, rfl⟩

theorem storePoly_ok (d : PReg) (l : Poly) (h : l.length ≤ Config.pmax) : s.storePoly d l = .ok (s.writePoly d l) :=
  if_pos h

theorem storePoly_long (d : PReg) (l : Poly) (h : Config.pmax < l.length) : s.storePoly d l = .error .rangeError :=
  if_neg (by omega)

theorem completeP_ok (d : PReg) (l : Poly) (h : l.length ≤ Config.pmax) :
    completeP s d (.ok l) = .next (succeed (s.writePoly d l)) := by
  simp [completeP, Except.bind, storePoly_ok s d l h]

theorem completeP_long (d : PReg) (l : Poly) (h : Config.pmax < l.length) :
    completeP s d (.ok l) = .next (raiseFail s .rangeError) := by
  simp [completeP, Except.bind, storePoly_long s d l h]

@[simp] theorem completeP_error (d : PReg) (e : Failure) : completeP s d (.error e) = .next (raiseFail s e) := rfl

/-- What a command with one polynomial destination can do (R27, R151, R233). -/
theorem completeP_cases (d : PReg) (r : Except Failure Poly) :
    (∃ l, r = .ok l ∧ l.length ≤ Config.pmax ∧ completeP s d r = .next (succeed (s.writePoly d l))) ∨
      ∃ e, completeP s d r = .next (raiseFail s e) := by
  cases r with
  | error e => exact .inr ⟨e, rfl⟩
  | ok l =>
    by_cases h : l.length ≤ Config.pmax
    · exact .inl ⟨l, rfl, h, completeP_ok s d l h⟩
    · exact .inr ⟨.rangeError, completeP_long s d l (by omega)⟩

theorem storePolys_ok (d1 d2 : PReg) (l1 l2 : Poly) (h1 : l1.length ≤ Config.pmax) (h2 : l2.length ≤ Config.pmax) :
    s.storePolys d1 l1 d2 l2 = .ok ((s.writePoly d1 l1).writePoly d2 l2) :=
  if_pos ⟨h1, h2⟩

theorem completePP_ok (d1 d2 : PReg) (l1 l2 : Poly) (h1 : l1.length ≤ Config.pmax) (h2 : l2.length ≤ Config.pmax) :
    completePP s d1 d2 (.ok (l1, l2)) = .next (succeed ((s.writePoly d1 l1).writePoly d2 l2)) := by
  simp [completePP, Except.bind, storePolys_ok s d1 d2 l1 l2 h1 h2]

@[simp] theorem completePP_error (d1 d2 : PReg) (e : Failure) :
    completePP s d1 d2 (.error e) = .next (raiseFail s e) := rfl

/-- What a command with two polynomial destinations can do: both are written, or neither (R233). -/
theorem completePP_cases (d1 d2 : PReg) (r : Except Failure (Poly × Poly)) :
    (∃ l1 l2, r = .ok (l1, l2) ∧ l1.length ≤ Config.pmax ∧ l2.length ≤ Config.pmax ∧
        completePP s d1 d2 r = .next (succeed ((s.writePoly d1 l1).writePoly d2 l2))) ∨
      ∃ e, completePP s d1 d2 r = .next (raiseFail s e) := by
  rcases r with e | ⟨l1, l2⟩
  · exact .inr ⟨e, rfl⟩
  · by_cases h : l1.length ≤ Config.pmax ∧ l2.length ≤ Config.pmax
    · exact .inl ⟨l1, l2, rfl, h.1, h.2, completePP_ok s d1 d2 l1 l2 h.1 h.2⟩
    · refine .inr ⟨.rangeError, ?_⟩
      simp [completePP, Except.bind, State.storePolys, h]

/-- What SYND can do (R161): the destination and SZ are written, or neither. -/
theorem execSynd_cases (d c : PReg) :
    (∃ l, syndChecked s.tables (s.poly c) s.m = .ok l ∧ l.length ≤ Config.pmax ∧
        execSynd d c s = .next (succeed ((s.writeSz (allZero l)).writePoly d l))) ∨
      ∃ e, execSynd d c s = .next (raiseFail s e) := by
  unfold execSynd
  cases syndChecked s.tables (s.poly c) s.m with
  | error e => exact .inr ⟨e, rfl⟩
  | ok l =>
    by_cases h : l.length ≤ Config.pmax
    · exact .inl ⟨l, rfl, h, by simp [Except.bind, storePoly_ok _ d l h]⟩
    · exact .inr ⟨.rangeError, by simp [Except.bind, storePoly_long _ d l (by omega)]⟩

/-- What DECODE can do (R206): both destinations, SZ and INFO are written, or none of them. -/
theorem execDecode_cases (d e c : PReg) :
    (∃ r, d ≠ e ∧ decodeWord s.tables (s.poly c) s.era s.m = .ok r ∧ r.word.length - s.m ≤ Config.pmax ∧
        (r.word.drop (r.word.length - s.m)).length ≤ Config.pmax ∧
        execDecode d e c s = .next (succeed ((((s.writeSz r.clean).writeInfo r.nerrata r.nerr).writePoly d
          (r.word.take (r.word.length - s.m))).writePoly e (r.word.drop (r.word.length - s.m))))) ∨
      ∃ f, execDecode d e c s = .next (raiseFail s f) := by
  unfold execDecode
  by_cases hde : d = e
  · exact .inr ⟨.operandConflict, by simp [hde, Except.bind]⟩
  · simp only [hde, if_false]
    cases decodeWord s.tables (s.poly c) s.era s.m with
    | error f => exact .inr ⟨f, rfl⟩
    | ok r =>
      by_cases h : (r.word.take (r.word.length - s.m)).length ≤ Config.pmax ∧
          (r.word.drop (r.word.length - s.m)).length ≤ Config.pmax
      · have h1 := h.1
        rw [List.length_take] at h1
        refine .inl ⟨r, hde, rfl, by omega, h.2, ?_⟩
        simp only [Except.bind, storeDecoded]
        rw [storePolys_ok _ d e _ _ h.1 h.2]
        rfl
      · exact .inr ⟨.rangeError, by simp only [Except.bind, storeDecoded, State.storePolys]; rw [if_neg h]; rfl⟩

end Sys2Proof.Machine
end

