-- ==== Sys2Proof/Laws/Field.lean ====
section
/-! SUPPORT. The field functions and the table build (spec/40_gf_tables.md R102-R106, spec/41_gf_arith.md R121-R125). -/

namespace Sys2Proof.Machine

/-! ### The field functions -/

@[simp] theorem gmul_zero_left (t : Tables) (y : Byte) : gmul t 0#8 y = 0#8 := by simp [gmul]

@[simp] theorem gmul_zero_right (t : Tables) (x : Byte) : gmul t x 0#8 = 0#8 := by simp [gmul]

theorem gmul_of_ne_zero (t : Tables) {x y : Byte} (hx : x ≠ 0#8) (hy : y ≠ 0#8) :
    gmul t x y = t.expAt (t.logAt x + t.logAt y) := if_neg (by rintro (h | h) <;> contradiction)

theorem gmul_comm (t : Tables) (x y : Byte) : gmul t x y = gmul t y x := by
  simp only [gmul, Nat.add_comm (t.logAt x), or_comm (a := x = 0#8)]

@[simp] theorem gdiv_zero (t : Tables) (x : Byte) : gdiv t x 0#8 = .error .divisionByZero := by simp [gdiv]

theorem gdiv_of_ne_zero (t : Tables) (x : Byte) {y : Byte} (h : y ≠ 0#8) : gdiv t x y = .ok (quotient t x y) :=
  if_neg h

@[simp] theorem ginv_zero (t : Tables) : ginv t 0#8 = .error .inverseOfZero := by simp [ginv]

theorem ginv_of_ne_zero (t : Tables) {x : Byte} (h : x ≠ 0#8) : ginv t x = .ok (inverse t x) := if_neg h

theorem gpow_of_ne_zero (t : Tables) {x : Byte} (n : Int) (h : x ≠ 0#8) :
    gpow t x n = .ok (t.expAt (((t.logAt x : Int) * n) % 255).toNat) := if_neg h

/-! ### The table build -/

@[simp] theorem powersFrom_length (n : Nat) (x : Byte) : (powersFrom n x).length = n := by
  induction n generalizing x with
  | zero => rfl
  | succ n ih => simp [powersFrom, ih]

@[simp] theorem expPeriod_length : expPeriod.length = 255 := powersFrom_length 255 1

@[simp] theorem expTable_length : expTable.length = 510 := by
  rw [expTable, List.length_append, expPeriod_length]

@[simp] theorem recordLogs_length (xs : List Byte) (i : Nat) (log : List Byte) :
    (recordLogs xs i log).length = log.length := by
  induction xs generalizing i log with
  | nil => rfl
  | cons x xs ih => simp [recordLogs, ih]

/-- The entries of LOG that the build writes do not depend on what LOG held; the others keep it. -/
theorem recordLogs_getElem? (xs : List Byte) (i : Nat) (log log' : List Byte) (hlen : log.length = log'.length) (k : Nat) :
    (recordLogs xs i log)[k]? = (recordLogs xs i log')[k]? ∨
      ((∀ x ∈ xs, x.toNat ≠ k) ∧ (recordLogs xs i log)[k]? = log[k]? ∧ (recordLogs xs i log')[k]? = log'[k]?) := by
  induction xs generalizing i log log' with
  | nil => exact .inr ⟨by simp, rfl, rfl⟩
  | cons x xs ih =>
    simp only [recordLogs]
    rcases ih (i + 1) (log.set x.toNat (BitVec.ofNat 8 i)) (log'.set x.toNat (BitVec.ofNat 8 i)) (by simp [hlen])
      with h | ⟨hx, h1, h2⟩
    · exact .inl h
    · by_cases hk : x.toNat = k
      · left
        subst hk
        rw [h1, h2, List.getElem?_set_self', List.getElem?_set_self']
        by_cases hb : x.toNat < log.length
        · rw [List.getElem?_eq_getElem hb, List.getElem?_eq_getElem (by omega)]
          rfl
        · rw [List.getElem?_eq_none (by omega), List.getElem?_eq_none (by omega)]
      · refine .inr ⟨?_, ?_, ?_⟩
        · intro y hy
          rcases List.mem_cons.mp hy with rfl | hy
          · exact hk
          · exact hx y hy
        · rw [h1, List.getElem?_set_ne hk]
        · rw [h2, List.getElem?_set_ne hk]

/-- LOG has 256 entries before the build (R31). -/
@[simp] theorem unbuilt_log_length : Tables.unbuilt.log.length = 256 := List.length_replicate

/-- Every nonzero element is among the powers of the generator (R106: "every value 1..255 appears"). -/
theorem nonzero_mem_expPeriod : ∀ k : Fin 255, BitVec.ofNat 8 (k.val + 1) ∈ expPeriod := by decide +kernel

/-- The build leaves the tables of R106, whatever LOG held before. -/
theorem buildTables_built (t : Tables) (h : t.log.length = 256) : (buildTables t).Built := by
  refine ⟨rfl, ?_⟩
  simp only [buildTables, logPeriod]
  refine List.ext_getElem? fun k => ?_
  simp only [List.getElem?_tail]
  have hlen : t.log.length = Tables.unbuilt.log.length := by rw [h, unbuilt_log_length]
  rcases recordLogs_getElem? expPeriod 0 t.log Tables.unbuilt.log hlen (k + 1) with hk | ⟨hx, h1, h2⟩
  · exact hk
  · by_cases hk : k < 255
    · exact absurd (by simp; omega) (hx _ (nonzero_mem_expPeriod ⟨k, hk⟩))
    · rw [h1, h2, List.getElem?_eq_none (by omega), List.getElem?_eq_none (by rw [unbuilt_log_length]; omega)]

end Sys2Proof.Machine
end

