-- ==== Sys2Proof/Laws/PerInstr.lean ====
section
/-! SUPPORT. A fact of every command's encoding, one lemma per constructor: bits 31:24 of its word are its opcode byte
(spec/30_encoding.md R81, R82, R85). -/

namespace Sys2Proof.Laws.OpcodeByte

/-- The top byte of the command's word is its opcode. -/
def Statement (i : Instr) : Prop := (encode i).toNat / 2 ^ 24 = opcode i

theorem opcode_lt (i : Instr) : opcode i < 256 := by cases i <;> simp [opcode]

theorem packR_top (op : Nat) (hop : op < 256) (d a b c : Fin 16) : (packR op d a b c).toNat / 2 ^ 24 = op := by
  simp only [packR, BitVec.toNat_ofNat]
  omega

theorem packI_top (op : Nat) (hop : op < 256) (d a : Fin 16) (imm : BitVec 16) :
    (packI op d a imm).toNat / 2 ^ 24 = op := by
  simp only [packI, BitVec.toNat_ofNat]
  omega

theorem gadd (d x y : GReg) : Statement (.gadd d x y) := packR_top _ (opcode_lt _) _ _ _ _
theorem gmul (d x y : GReg) : Statement (.gmul d x y) := packR_top _ (opcode_lt _) _ _ _ _
theorem gmulnt (d x y : GReg) : Statement (.gmulnt d x y) := packR_top _ (opcode_lt _) _ _ _ _
theorem gdiv (d x y : GReg) : Statement (.gdiv d x y) := packR_top _ (opcode_lt _) _ _ _ _
theorem gpow (d x : GReg) (n : Int) : Statement (.gpow d x n) := packI_top _ (opcode_lt _) _ _ _
theorem ginv (d x : GReg) : Statement (.ginv d x) := packR_top _ (opcode_lt _) _ _ _ _
theorem logr (d x : GReg) : Statement (.logr d x) := packR_top _ (opcode_lt _) _ _ _ _
theorem expr (d : GReg) (k : Nat) : Statement (.expr d k) := packI_top _ (opcode_lt _) _ _ _
theorem padd (d p q : PReg) : Statement (.padd d p q) := packR_top _ (opcode_lt _) _ _ _ _
theorem pscale (d p : PReg) (x : GReg) : Statement (.pscale d p x) := packR_top _ (opcode_lt _) _ _ _ _
theorem pmul (d p q : PReg) : Statement (.pmul d p q) := packR_top _ (opcode_lt _) _ _ _ _
theorem peval (d : GReg) (p : PReg) (x : GReg) : Statement (.peval d p x) := packR_top _ (opcode_lt _) _ _ _ _
theorem pdivmod (q r a b : PReg) : Statement (.pdivmod q r a b) := packR_top _ (opcode_lt _) _ _ _ _
theorem synd (d c : PReg) : Statement (.synd d c) := packR_top _ (opcode_lt _) _ _ _ _
theorem fsynd (d s c : PReg) : Statement (.fsynd d s c) := packR_top _ (opcode_lt _) _ _ _ _
theorem eloc (d f : PReg) : Statement (.eloc d f) := packR_top _ (opcode_lt _) _ _ _ _
theorem chien (d l c : PReg) : Statement (.chien d l c) := packR_top _ (opcode_lt _) _ _ _ _
theorem ploc (d p c : PReg) : Statement (.ploc d p c) := packR_top _ (opcode_lt _) _ _ _ _
theorem eeval (d s l : PReg) : Statement (.eeval d s l) := packR_top _ (opcode_lt _) _ _ _ _
theorem fmag (d e p c : PReg) : Statement (.fmag d e p c) := packR_top _ (opcode_lt _) _ _ _ _
theorem corr (d c p m : PReg) : Statement (.corr d c p m) := packR_top _ (opcode_lt _) _ _ _ _
theorem genpoly (d : PReg) : Statement (.genpoly d) := packR_top _ (opcode_lt _) _ _ _ _
theorem encode (d a : PReg) : Statement (.encode d a) := packR_top _ (opcode_lt _) _ _ _ _
theorem decode (d e c : PReg) : Statement (.decode d e c) := packR_top _ (opcode_lt _) _ _ _ _

end Sys2Proof.Laws.OpcodeByte
end

