-- ==== Sys2Proof/Laws/Poly.lean ====
section
/-! SUPPORT. Lengths of the polynomial and stage functions (spec/42_poly.md, spec/43_decoder_stages.md, spec/44_codec.md). -/

namespace Sys2Proof.Machine

variable (t : Tables)

@[simp] theorem zeros_length (k : Nat) : (zeros k).length = k := by simp [zeros]

@[simp] theorem alignRight_length (n : Nat) (p : Poly) : (alignRight n p).length = max n p.length := by
  simp [alignRight]; omega

/-- "result length = max(len(p), len(q))" (R140). -/
@[simp] theorem padd_length (p q : Poly) : (padd p q).length = max p.length q.length := by
  simp [padd]

@[simp] theorem pscale_length (p : Poly) (x : Byte) : (pscale t p x).length = p.length := by simp [pscale]

/-- "result length = len(p)+len(q)-1" (R144). -/
theorem convolve_length (p q : Poly) (hq : q ≠ []) : (convolve t p q).length = p.length + q.length - 1 := by
  have hq' : 0 < q.length := List.length_pos_iff.mpr hq
  induction p with
  | nil => simp [convolve]
  | cons c p ih => simp [convolve, ih]; omega

@[simp] theorem xorFront_length (xs w : Poly) : (xorFront xs w).length = w.length := by
  induction xs generalizing w with
  | nil => rfl
  | cons x xs ih => cases w <;> simp [xorFront, ih]

/-- The quotient has one coefficient a pass, the remainder is what is left of the working copy (R148). -/
theorem divPass_length (tail : Poly) (n : Nat) (w : Poly) (h : n ≤ w.length) :
    (divPass t tail n w).1.length = n ∧ (divPass t tail n w).2.length = w.length - n := by
  induction n generalizing w with
  | zero => simp [divPass]
  | succ n ih =>
    cases w with
    | nil => simp at h
    | cons c w =>
      simp only [List.length_cons] at h
      have hw : (if c = 0#8 then w else xorFront (tail.map fun b => gmul t b c) w).length = w.length := by
        split <;> simp
      have := ih (if c = 0#8 then w else xorFront (tail.map fun b => gmul t b c) w) (by omega)
      simp only [divPass, List.length_cons]
      omega

/-- "quotient length = len(dividend) - len(divisor) + 1; remainder = last len(divisor)-1 coefficients" (R148). -/
theorem divide_length (a b : Poly) (hb : b ≠ []) (h : b.length - 1 ≤ a.length) :
    (divide t a b).1.length = a.length + 1 - b.length ∧ (divide t a b).2.length = b.length - 1 := by
  have hb' : 0 < b.length := List.length_pos_iff.mpr hb
  have := divPass_length t b.tail (a.length + 1 - b.length) a (by omega)
  simp only [divide]
  omega

@[simp] theorem syndromes_length (c : Poly) (m : Nat) : (syndromes t c m).length = m + 1 := by simp [syndromes]

@[simp] theorem foldPass_length (x : Byte) (f : Poly) : (foldPass t x f).length = f.length := by
  induction f with
  | nil => rfl
  | cons a f ih => cases f <;> simp_all [foldPass]

@[simp] theorem forneySynd_length (s : Poly) (era : List Byte) (n : Nat) :
    (forneySynd t s era n).length = s.length - 1 := by
  unfold forneySynd
  have : ∀ f : Poly, (era.foldl (fun f p => foldPass t (locator t n p) f) f).length = f.length := by
    induction era with
    | nil => intro f; rfl
    | cons p era ih => intro f; simp [ih]
  simp [this]

/-- The product of n binomials has n + 1 coefficients. -/
theorem foldl_convolve_length {α : Type} (xs : List α) (factor : α → Poly) (h : ∀ x, (factor x).length = 2) (g : Poly)
    (hg : g ≠ []) : (xs.foldl (fun g x => convolve t g (factor x)) g).length = g.length + xs.length := by
  have hg' : 0 < g.length := List.length_pos_iff.mpr hg
  induction xs generalizing g with
  | nil => rfl
  | cons x xs ih =>
    have hf : factor x ≠ [] := fun e => by have := h x; simp [e] at this
    have hl := convolve_length t g (factor x) hf
    have hne : convolve t g (factor x) ≠ [] := fun e => by rw [e] at hl; simp [h] at hl
    simp only [List.foldl_cons]
    rw [ih _ hne (List.length_pos_iff.mpr hne), hl, h, List.length_cons]
    omega

/-- "length m+1" (R200). -/
@[simp] theorem genpoly_length (m : Nat) : (genpoly t m).length = m + 1 := by
  have := foldl_convolve_length t (List.range m) (fun i => [1#8, t.expAt i]) (by simp) [1#8] (by simp)
  simp only [genpoly, this]
  simp; omega

/-- "length len(Pos) + 1" (R167). -/
@[simp] theorem errataLoc_length (pos : List Byte) (n : Nat) : (errataLoc t pos n).length = pos.length + 1 := by
  have := foldl_convolve_length t pos (fun p => [locator t n p, 1#8]) (by simp) [1#8] (by simp)
  simp only [errataLoc, this]
  simp; omega

@[simp] theorem errorVector_length (n : Nat) (pos mags : List Byte) : (errorVector n pos mags).length = n := by
  unfold errorVector
  have : ∀ (l : List (Byte × Byte)) (e : Poly), (l.foldl (fun e pm => e.set pm.1.toNat pm.2) e).length = e.length := by
    intro l
    induction l with
    | nil => intro e; rfl
    | cons x l ih => intro e; simp [ih]
  simp [this]

@[simp] theorem applyCorr_length (c : Poly) (pos mags : List Byte) : (applyCorr c pos mags).length = c.length := by
  simp [applyCorr]

@[simp] theorem blank_length (c : Poly) (era : List Byte) : (blank c era).length = c.length := by
  unfold blank
  induction era generalizing c with
  | nil => rfl
  | cons p era ih => simp [ih]

/-- "Encoder output length = input length + `nsym`" (R204). -/
@[simp] theorem encodeWord_length (data : Poly) (m : Nat) : (encodeWord t data m).length = data.length + m := by
  have hne : genpoly t m ≠ [] := fun e => by have := genpoly_length t m; simp [e] at this
  have := (divide_length t (data ++ zeros m) (genpoly t m) hne (by simp)).2
  simp [encodeWord, this]

theorem rootPositions_length_le (loc : Poly) (n : Nat) : (rootPositions t loc n).length ≤ n := by
  simpa [rootPositions] using List.length_filter_le _ (List.range n)

theorem magnitudes_length (ev : Poly) (xs : List Byte) (is : List Nat) (l : List Byte)
    (h : magnitudes t ev xs is = .ok l) : l.length = is.length := by
  induction is generalizing l with
  | nil => simp [magnitudes] at h; simp [← h]
  | cons i is ih =>
    simp only [magnitudes] at h
    split at h
    · simp at h
    · split at h
      · simp at h
      · next rest hr => simp at h; simp [← h, ih rest hr]

/-- "length len(Pos)" (R174). -/
theorem forneyMag_length (ev : Poly) (pos : List Byte) (n : Nat) (l : List Byte) (h : forneyMag t ev pos n = .ok l) :
    l.length = pos.length := by
  simpa using magnitudes_length t ev _ _ l h

/-- The working lists of the field functions and of peval, pmul, pdivmod where their checks pass (log 11). -/
theorem peval_of_ne_nil (p : Poly) (x : Byte) (h : p ≠ []) : peval t p x = .ok (horner t p x) := by
  simp [peval, h]

theorem pmul_of_ne_nil (p q : Poly) (hp : p ≠ []) (hq : q ≠ []) : pmul t p q = .ok (convolve t p q) := by
  simp [pmul, hp, hq]

theorem pdivmod_of_monic (a b : Poly) (hb : b.head? = some 1#8) (h : b.length - 1 ≤ a.length) :
    pdivmod t a b = .ok (divide t a b) := by
  have hne : b.length ≠ 0 := fun e => by simp [List.length_eq_zero_iff.mp e] at hb
  have : ¬ a.length < b.length - 1 := by omega
  simp [pdivmod, hne, this, hb]

end Sys2Proof.Machine
end

