-- ==== Sys2Proof/Laws/Step.lean ====
section
/-! SUPPORT. Who moves, what each turn does, which addresses name which state, and the one list of what a command can do. -/

namespace Sys2Proof.Machine

variable (s : State)

/-! ### Turns -/

theorem nextTurn_cons (t : Turn) (rest : List Turn) (h : s.turns = t :: rest) : s.nextTurn = t := by
  simp [State.nextTurn, h]

theorem nextTurn_nil_busy (h : s.turns = []) (hb : s.busy = true) : s.nextTurn = .sequencer := by
  simp [State.nextTurn, h, hb]

theorem nextTurn_nil_idle (h : s.turns = []) (hb : s.busy = false) : s.nextTurn = .host := by
  simp [State.nextTurn, h, hb]

theorem step_of_host (h : s.nextTurn = .host) : step s = .next (hostTurn s.popTurn) := by simp [step, takeTurn, h]

theorem step_of_sequencer (h : s.nextTurn = .sequencer) : step s = sequencerTurn s.popTurn := by simp [step, takeTurn, h]

theorem step_of_reset (h : s.nextTurn = .reset) : step s = .next (resetCore s.popTurn) := by simp [step, takeTurn, h]

/-! ### The sequencer's turn -/

theorem sequencerTurn_idle (h : s.seq = .idle) : sequencerTurn s = .next s := by simp [sequencerTurn, h]

theorem sequencerTurn_building (h : s.seq = .building) : sequencerTurn s = .next (completeBuild s) := by
  simp [sequencerTurn, h]

theorem sequencerTurn_command (w : Word) (h : s.seq = .command w) : sequencerTurn s = executeWord w s := by
  simp [sequencerTurn, h]

theorem executeWord_some (w : Word) (i : Instr) (h : decode w = some i) : executeWord w s = exec i s := by
  simp [executeWord, h]

theorem executeWord_none (w : Word) (h : decode w = none) :
    executeWord w s = .next (raiseFail s .illegalCommand) := by simp [executeWord, h]

/-! ### The host's turn -/

theorem hostTurn_nil (h : s.hostOps = []) : hostTurn s = s := by simp [hostTurn, h]

theorem hostTurn_read (addr : Addr) (rest : List HostOp) (h : s.hostOps = .read addr :: rest) :
    hostTurn s = hostRead { s with hostOps := rest } addr := by simp [hostTurn, h]

theorem hostTurn_write (addr : Addr) (v : Word) (rest : List HostOp) (h : s.hostOps = .write addr v :: rest) :
    hostTurn s = hostWrite { s with hostOps := rest } addr v := by simp [hostTurn, h]

theorem hostTurn_wait_busy (rest : List HostOp) (h : s.hostOps = .wait :: rest) (hb : s.busy = true) :
    hostTurn s = hostRead s 0x0004 := by
  have hs : { s with hostOps := .wait :: rest } = s := by rw [← h]
  simp [hostTurn, h, hb, hs]

theorem hostTurn_wait_idle (rest : List HostOp) (h : s.hostOps = .wait :: rest) (hb : s.busy = false) :
    hostTurn s = hostRead { s with hostOps := rest } 0x0004 := by simp [hostTurn, h, hb]

/-! ### Addresses -/

theorem ite_elim {α : Type} {P : α → Prop} {c : Prop} [Decidable c] {x y : α} (h1 : c → P x) (h2 : ¬ c → P y) :
    P (if c then x else y) := by
  split
  · exact h1 ‹_›
  · exact h2 ‹_›

/-- The addresses of G, EPOS and PCOEF cells name those cells, and no other address names one (R36, R64). -/
theorem decodeAddr_cell (addr : Addr) (a : Nat) : (decodeAddr addr).cell = some a ↔
    a = addr.toNat ∧ a % 4 = 0 ∧ ((0x0040 ≤ a ∧ a < 0x0080) ∨ (0x0400 ≤ a ∧ a < 0x07FC) ∨ 0x8000 ≤ a) := by
  have hlt := addr.isLt
  unfold decodeAddr
  dsimp only
  generalize addr.toNat = n at *
  repeat' apply ite_elim (P := fun t => Target.cell t = some a ↔ _) <;> intro
  all_goals first
    | exact iff_of_false (fun h => nomatch h) (by omega)
    | (simp only [Target.cell, gAddr, eposAddr, pcoefAddr, Option.some.injEq, Fin.ofNat]; omega)

/-- The addresses of command-owned state (R34, R64). -/
theorem decodeAddr_commandOwned (addr : Addr) : (decodeAddr addr).commandOwned = true ↔
    addr.toNat % 4 = 0 ∧ ((0x000C ≤ addr.toNat ∧ addr.toNat < 0x0018) ∨ (0x0040 ≤ addr.toNat ∧ addr.toNat < 0x00C0) ∨
      (0x0400 ≤ addr.toNat ∧ addr.toNat < 0x07FC) ∨ 0x8000 ≤ addr.toNat) := by
  have hlt := addr.isLt
  unfold decodeAddr
  dsimp only
  generalize addr.toNat = n at *
  repeat' apply ite_elim (P := fun t => Target.commandOwned t = true ↔ _) <;> intro
  all_goals first
    | exact iff_of_false (fun h => nomatch h) (by omega)
    | exact iff_of_true rfl (by omega)

/-- A host write at BUSY = 0 adds the cell its address names to the record of written cells, and nothing else (R36). -/
theorem mem_written_hostWrite (addr : Addr) (v : Word) (a : Nat) (hb : s.busy = false) :
    a ∈ (hostWrite s addr v).written ↔ (decodeAddr addr).cell = some a ∨ a ∈ s.written := by
  simp only [hostWrite, hb, Bool.false_eq_true, if_false]
  cases hd : decodeAddr addr <;> simp only [writeRegister, Target.cell, reduceCtorEq, false_or]
  case cmd => rfl
  case nsym => split <;> rfl
  case plen => split <;> rfl
  all_goals simp [State.writeCell, eq_comm]

/-! ### The checked step -/

theorem uninitialisedRead_eq_none : uninitialisedRead s = none ↔ ∀ a ∈ cellsRead s, a ∈ s.written := by
  simp [uninitialisedRead, List.find?_eq_none]

theorem checkedStep_of_clear (h1 : uninitialisedRead s = none) (h2 : unspecifiedRead s = none) :
    checkedStep s = step s := by simp [checkedStep, h1, h2]

/-! ### Views of the sequencer -/

theorem busy_eq_false_iff : s.busy = false ↔ s.seq = .idle := by cases h : s.seq <;> simp [State.busy, h]

theorem busy_of_command (w : Word) (h : s.seq = .command w) : s.busy = true := by simp [State.busy, h]

theorem busy_of_building (h : s.seq = .building) : s.busy = true := by simp [State.busy, h]

/-! ### What a command can do -/

/-- The shapes of a completed command: a failure; one scalar register written; one polynomial register written, SYND with SZ
too; two polynomial registers written, DECODE with SZ and INFO too. -/
inductive Completion (s t : State) : Prop
  | failed (c : Failure) (h : t = raiseFail s c)
  | scalar (d : GReg) (v : Byte) (h : t = succeed (s.writeG d v))
  | poly (d : PReg) (l : Poly) (hl : l.length ≤ 512) (h : t = succeed (s.writePoly d l))
  | polySz (z : Bool) (d : PReg) (l : Poly) (hl : l.length ≤ 512) (h : t = succeed ((s.writeSz z).writePoly d l))
  | polys (d e : PReg) (l1 l2 : Poly) (hl1 : l1.length ≤ 512) (hl2 : l2.length ≤ 512)
      (h : t = succeed ((s.writePoly d l1).writePoly e l2))
  | polysInfo (z : Bool) (a b : Nat) (d e : PReg) (l1 l2 : Poly) (hl1 : l1.length ≤ 512) (hl2 : l2.length ≤ 512)
      (h : t = succeed ((((s.writeSz z).writeInfo a b).writePoly d l1).writePoly e l2))

theorem Completion.ofG {s : State} (d : GReg) (r : Except Failure Byte) : ∃ t, completeG s d r = .next t ∧ Completion s t := by
  rcases completeG_cases s d r with ⟨v, -, h⟩ | ⟨e, -, h⟩
  · exact ⟨_, h, .scalar d v rfl⟩
  · exact ⟨_, h, .failed e rfl⟩

theorem Completion.ofP {s : State} (d : PReg) (r : Except Failure Poly) : ∃ t, completeP s d r = .next t ∧ Completion s t := by
  rcases completeP_cases s d r with ⟨l, -, hl, h⟩ | ⟨e, h⟩
  · exact ⟨_, h, .poly d l hl rfl⟩
  · exact ⟨_, h, .failed e rfl⟩

theorem Completion.ofPP {s : State} (d e : PReg) (r : Except Failure (Poly × Poly)) :
    ∃ t, completePP s d e r = .next t ∧ Completion s t := by
  rcases completePP_cases s d e r with ⟨l1, l2, -, hl1, hl2, h⟩ | ⟨f, h⟩
  · exact ⟨_, h, .polys d e l1 l2 hl1 hl2 rfl⟩
  · exact ⟨_, h, .failed f rfl⟩

/-- Everything a command can do to the state, for all 24 commands (R233, R235, R239). -/
theorem exec_completion (i : Instr) : ∃ t, exec i s = .next t ∧ Completion s t := by
  cases i with
  | gadd d x y => exact Completion.ofG d (.ok (s.readG x ^^^ s.readG y))
  | gmul d x y => exact Completion.ofG d (.ok (gmul s.tables (s.readG x) (s.readG y)))
  | gmulnt d x y => exact Completion.ofG d (.ok (gmulNolut (s.readG x) (s.readG y)))
  | gdiv d _ _ => exact Completion.ofG d _
  | gpow d _ _ => exact Completion.ofG d _
  | ginv d _ => exact Completion.ofG d _
  | logr d _ => exact Completion.ofG d _
  | expr d _ => exact Completion.ofG d _
  | padd d _ _ => exact Completion.ofP d _
  | pscale d _ _ => exact Completion.ofP d _
  | pmul d _ _ => exact Completion.ofP d _
  | peval d _ _ => exact Completion.ofG d _
  | pdivmod q r _ _ => exact Completion.ofPP q r _
  | synd d c =>
    rcases execSynd_cases s d c with ⟨l, -, hl, h⟩ | ⟨e, h⟩
    · exact ⟨_, h, .polySz _ d l hl rfl⟩
    · exact ⟨_, h, .failed e rfl⟩
  | fsynd d _ _ => exact Completion.ofP d _
  | eloc d _ => exact Completion.ofP d _
  | chien d _ _ => exact Completion.ofP d _
  | ploc d _ _ => exact Completion.ofP d _
  | eeval d _ _ => exact Completion.ofP d _
  | fmag d _ _ _ => exact Completion.ofP d _
  | corr d _ _ _ => exact Completion.ofP d _
  | genpoly d => exact Completion.ofP d _
  | encode d _ => exact Completion.ofP d _
  | decode d e c =>
    rcases execDecode_cases s d e c with ⟨r, -, -, h1, h2, h⟩ | ⟨f, h⟩
    · refine ⟨_, h, .polysInfo r.clean r.nerrata r.nerr d e _ _ ?_ ?_ rfl⟩
      · simp only [List.length_take]; exact Nat.le_trans (Nat.min_le_left _ _) h1
      · exact h2
    · exact ⟨_, h, .failed f rfl⟩

end Sys2Proof.Machine
end

