-- ==== Sys2Proof/Tests/Slice0.lean ====
section
/-! SUPPORT. Tests with expected values taken from spec/95_test_vectors.md, and for every obligation with hypotheses a
concrete state and operands that meet them. -/

namespace Sys2Proof.Tests

open Sys2Proof.Machine Sys2Proof.Spec

set_option Elab.async false

/-! ### Well-formedness (R84, R88) -/

theorem test_wf_refuses_gpow_above : (Instr.gpow 0 0 32768).wf = false := by decide
theorem test_wf_refuses_gpow_below : (Instr.gpow 0 0 (-32769)).wf = false := by decide
theorem test_wf_refuses_expr_above : (Instr.expr 0 65536).wf = false := by decide
theorem test_wf_accepts_limits :
    (Instr.gpow 0 0 32767).wf = true ∧ (Instr.gpow 0 0 (-32768)).wf = true ∧ (Instr.expr 0 65535).wf = true := by decide

/-! ### Decoding: words written out from R81, R82, R85 -/

-- OP 0x10, D 3, A 1, B 2, C 0, Z 00
theorem test_decode_gadd : decode 0x10312000#32 = some (.gadd 3 1 2) := by decide
theorem test_decode_gmul : decode 0x11312000#32 = some (.gmul 3 1 2) := by decide
theorem test_decode_gmulnt : decode 0x12F7A000#32 = some (.gmulnt 15 7 10) := by decide
theorem test_decode_gdiv : decode 0x13432000#32 = some (.gdiv 4 3 2) := by decide
-- OP 0x14, D 7, A 1, IMM16 0xFFFF = -1
theorem test_decode_gpow : decode 0x1471FFFF#32 = some (.gpow 7 1 (-1)) := by decide
theorem test_decode_gpow_positive : decode 0x14127FFF#32 = some (.gpow 1 2 32767) := by decide
theorem test_decode_ginv : decode 0x15510000#32 = some (.ginv 5 1) := by decide
theorem test_decode_logr : decode 0x16810000#32 = some (.logr 8 1) := by decide
-- OP 0x17, D 9, A 0, IMM16 0x00CE = 206
theorem test_decode_expr : decode 0x179000CE#32 = some (.expr 9 206) := by decide
theorem test_decode_expr_unsigned : decode 0x1700FFFF#32 = some (.expr 0 65535) := by decide
theorem test_decode_padd : decode 0x20603000#32 = some (.padd 6 0 3) := by decide
theorem test_decode_pscale : decode 0x2112E000#32 = some (.pscale 1 2 14) := by decide
theorem test_decode_pmul : decode 0x22123000#32 = some (.pmul 1 2 3) := by decide
theorem test_decode_peval : decode 0x23453000#32 = some (.peval 4 5 3) := by decide
-- quotient in D, remainder in C
theorem test_decode_pdivmod : decode 0x24201300#32 = some (.pdivmod 2 3 0 1) := by decide
theorem test_decode_synd : decode 0x30100000#32 = some (.synd 1 0) := by decide
theorem test_decode_fsynd : decode 0x31210000#32 = some (.fsynd 2 1 0) := by decide
theorem test_decode_eloc : decode 0x32320000#32 = some (.eloc 3 2) := by decide
theorem test_decode_chien : decode 0x33431000#32 = some (.chien 4 3 1) := by decide
theorem test_decode_ploc : decode 0x34651000#32 = some (.ploc 6 5 1) := by decide
theorem test_decode_eeval : decode 0x35716000#32 = some (.eeval 7 1 6) := by decide
theorem test_decode_fmag : decode 0x36875100#32 = some (.fmag 8 7 5 1) := by decide
theorem test_decode_corr : decode 0x37905800#32 = some (.corr 9 0 5 8) := by decide
theorem test_decode_genpoly : decode 0x40100000#32 = some (.genpoly 1) := by decide
theorem test_decode_encode : decode 0x41540000#32 = some (.encode 5 4) := by decide
-- data in D, ecc in B, codeword in A
theorem test_decode_decode : decode 0x42415000#32 = some (.decode 4 5 1) := by decide
theorem test_decode_illegal : ([0x11312001#32, 0x15512000#32, 0x17010008#32, 0x24201301#32, 0x40110000#32, 0x43000000#32,
    0x00000000#32, 0x18000000#32, 0xFFFFFFFF#32].map decode) = List.replicate 9 none := by decide

theorem test_encode_words : encode (.gpow 7 1 (-1)) = 0x1471FFFF#32 ∧ encode (.pdivmod 2 3 0 1) = 0x24201300#32 ∧
    encode (.decode 4 5 1) = 0x42415000#32 ∧ encode (.expr 9 206) = 0x179000CE#32 := by decide

theorem test_assemble_line :
    assembleLine "PDIVMOD p2, p3, p0, p1".toList = some (.pdivmod 2 3 0 1) ∧
      assembleLine "GPOW g7, g1, -1".toList = some (.gpow 7 1 (-1)) ∧
      assembleLine "EXPR g9, 0xCE".toList = some (.expr 9 206) := by decide +kernel
theorem test_assemble_pseudo :
    assembleLine "GSQR g3, g1".toList = some (.gmul 3 1 1) ∧ assembleLine "GONE g4".toList = some (.expr 4 0) ∧
      assembleLine "GMOV g4, g15".toList = some (.gpow 4 15 1) := by decide +kernel
theorem test_assemble_refuses :
    assembleLine "GADD g1, g2, p3".toList = none ∧ assembleLine "GADD g1, g2".toList = none ∧
      assembleLine "EXPR g1, 65536".toList = none ∧ assembleLine "GADD g1, g2, g16".toList = none := by decide +kernel

/-! ### States for the tests -/

/-- The machine after its table build. -/
def ready : State := completeBuild State.reset

/-- The machine after its build, with NSYM, an erasure list, scalar and polynomial registers loaded. -/
def loaded (m : Nat) (g : List (GReg × Byte)) (p : List (PReg × Poly)) (era : List Byte) : State :=
  let s := { ready with
    nsym := BitVec.ofNat 8 m
    elen := BitVec.ofNat 8 era.length
    cells := ready.cells.writeList (eposAddr 0) era
    written := markCells ready.written (eposAddr 0) era.length }
  p.foldl (fun s kl => s.writePoly kl.1 kl.2) (g.foldl (fun s kv => s.writeG kv.1 kv.2) s)

/-- The same with PLEN alone set, as the host sets it: the coefficients read as nothing has written them. -/
def sized (s : State) (lens : List (PReg × Nat)) : State :=
  lens.foldl (fun s kn => { s with plen := s.plen.set kn.1.val kn.2 }) s

/-- The state after a command. -/
def after (i : Instr) (s : State) : State :=
  match exec i s with
  | .next t => t
  | .fault _ | .refused _ => s

theorem exec_after (i : Instr) (s : State) : exec i s = .next (after i s) := by
  obtain ⟨t, h, -⟩ := exec_completion s i
  simp [after, h]

/-- The part of the invariant that concerns neither the tables nor the sequencer, as a check. -/
def plainChecks (s : State) : Bool :=
  decide s.cells.wf && s.cells.all (fun p => decide (isCellAddr p.1) && decide (p.1 ∈ s.written)) &&
    decide (s.written.Pairwise (· < ·)) && decide (s.nsym.toNat ≤ 254) && decide (∀ k : PReg, s.readPlen k ≤ 512) &&
    (s.err == s.errcode.isSome)

theorem inv_of_checks (s : State) (h : plainChecks s = true) (hr : s.ready = !s.building)
    (hl : s.tables.log.length = 256) (ht : s.ready = true → s.tables.Built) : s.Inv := by
  simp only [plainChecks, Bool.and_eq_true, decide_eq_true_eq, List.all_eq_true, beq_iff_eq] at h
  obtain ⟨⟨⟨⟨⟨h1, h2⟩, h3⟩, h4⟩, h5⟩, h6⟩ := h
  exact ⟨h1, fun p hp => (h2 p hp).1, fun p hp => (h2 p hp).2, h3, h4, h5, h6, hr, hl, ht⟩

theorem ready_built : ready.tables.Built := buildTables_built _ unbuilt_log_length

theorem ready_log_length : ready.tables.log.length = 256 := by simp [ready, buildTables, State.reset]

theorem loaded_keeps (m : Nat) (g : List (GReg × Byte)) (p : List (PReg × Poly)) (era : List Byte) :
    (loaded m g p era).tables = ready.tables ∧ (loaded m g p era).ready = true ∧ (loaded m g p era).seq = .idle ∧
      (loaded m g p era).turns = [] := by
  have hp : ∀ (l : List (PReg × Poly)) (s : State),
      (l.foldl (fun s kl => s.writePoly kl.1 kl.2) s).tables = s.tables ∧
        (l.foldl (fun s kl => s.writePoly kl.1 kl.2) s).ready = s.ready ∧
        (l.foldl (fun s kl => s.writePoly kl.1 kl.2) s).seq = s.seq ∧
        (l.foldl (fun s kl => s.writePoly kl.1 kl.2) s).turns = s.turns := by
    intro l
    induction l with
    | nil => intro s; exact ⟨rfl, rfl, rfl, rfl⟩
    | cons x xs ih => intro s; simpa using ih (s.writePoly x.1 x.2)
  have hg : ∀ (l : List (GReg × Byte)) (s : State),
      (l.foldl (fun s kv => s.writeG kv.1 kv.2) s).tables = s.tables ∧
        (l.foldl (fun s kv => s.writeG kv.1 kv.2) s).ready = s.ready ∧
        (l.foldl (fun s kv => s.writeG kv.1 kv.2) s).seq = s.seq ∧
        (l.foldl (fun s kv => s.writeG kv.1 kv.2) s).turns = s.turns := by
    intro l
    induction l with
    | nil => intro s; exact ⟨rfl, rfl, rfl, rfl⟩
    | cons x xs ih => intro s; simpa using ih (s.writeG x.1 x.2)
  unfold loaded
  refine ⟨?_, ?_, ?_, ?_⟩
  · rw [(hp p _).1, (hg g _).1]
  · rw [(hp p _).2.1, (hg g _).2.1]; rfl
  · rw [(hp p _).2.2.1, (hg g _).2.2.1]; rfl
  · rw [(hp p _).2.2.2, (hg g _).2.2.2]; rfl

theorem sized_keeps (lens : List (PReg × Nat)) (s : State) : (sized s lens).tables = s.tables ∧
    (sized s lens).ready = s.ready ∧ (sized s lens).seq = s.seq := by
  induction lens generalizing s with
  | nil => exact ⟨rfl, rfl, rfl⟩
  | cons x xs ih => exact ih _

theorem sized_inv (s : State) (lens : List (PReg × Nat)) (hs : s.Inv ∧ s.ready = true)
    (h : plainChecks (sized s lens) = true) : (sized s lens).Inv ∧ (sized s lens).ready = true := by
  obtain ⟨h1, h2, h3⟩ := sized_keeps lens s
  refine ⟨inv_of_checks _ h ?_ ?_ ?_, h2.trans hs.2⟩
  · rw [h2, hs.1.ready_built]; simp [State.building, h3]
  · rw [h1]; exact hs.1.log_length
  · intro _; rw [h1]; exact hs.1.tables_built hs.2

theorem loaded_inv (m : Nat) (g : List (GReg × Byte)) (p : List (PReg × Poly)) (era : List Byte)
    (h : plainChecks (loaded m g p era) = true) : (loaded m g p era).Inv ∧ (loaded m g p era).ready = true := by
  obtain ⟨h1, h2, h3, -⟩ := loaded_keeps m g p era
  refine ⟨inv_of_checks _ h ?_ ?_ ?_, h2⟩
  · simp [State.building, h2, h3]
  · rw [h1]; exact ready_log_length
  · intro _; rw [h1]; exact ready_built

/-! ### The data of spec/95_test_vectors.md -/

/-- "Hello" -/
def hello : Poly := [0x48#8, 0x65#8, 0x6C#8, 0x6C#8, 0x6F#8]

/-- The check bytes of "Hello" with NSYM = 7. -/
def check7 : Poly := [0x13#8, 0x93#8, 0xB5#8, 0xD4#8, 0x0A#8, 0x06#8, 0xAF#8]

/-- The codeword of "Hello" with NSYM = 7 (C3). -/
def word7 : Poly := hello ++ check7

/-- word7 with 0x00 at position 3 (S2). -/
def recv3 : Poly := [0x48#8, 0x65#8, 0x6C#8, 0x00#8, 0x6F#8] ++ check7

/-- The syndrome vector of recv3 (S2). -/
def synd3 : Poly := [0x00#8, 0x6C#8, 0x08#8, 0xE8#8, 0x5A#8, 0x0C#8, 0x9C#8, 0x77#8]

/-- The evaluator of recv3 (S25). -/
def eval3 : Poly := [0#8, 0x6C#8, 0#8, 0#8, 0#8, 0#8, 0#8, 0#8]

/-- The code of a completed command. -/
def code (s : State) : Byte := errcodeByte s.errcode

/-! ### One step of each command (spec/95_test_vectors.md 2.1 to 2.5) -/

/-- Two scalar registers loaded. -/
def scalars (x y : Byte) : State := loaded 7 [(1, x), (2, y)] [] []

-- F1
theorem test_gadd : (after (.gadd 3 1 2) (scalars 0x53#8 0xCA#8)).readG 3 = 0x99#8 := by decide +kernel
-- F3, F6
theorem test_gmul : (after (.gmul 3 1 2) (scalars 0x53#8 0xCA#8)).readG 3 = 0x8F#8 ∧
    (after (.gmul 3 1 2) (scalars 0xFF#8 0xFF#8)).readG 3 = 0xE2#8 := by decide +kernel
-- F7
theorem test_gmulnt : (after (.gmulnt 3 1 2) (scalars 0xFF#8 0xFF#8)).readG 3 = 0xE2#8 ∧
    (after (.gmulnt 1 1 1) (scalars 0x80#8 0#8)).readG 1 = 0x13#8 := by decide +kernel
-- F8, F10
theorem test_gdiv : (after (.gdiv 3 1 2) (scalars 0x8F#8 0xCA#8)).readG 3 = 0x53#8 ∧
    code (after (.gdiv 3 1 2) (scalars 0#8 0#8)) = 0x01#8 := by decide +kernel
-- F11, F12
theorem test_gpow : (after (.gpow 3 1 (-7)) (scalars 3#8 0#8)).readG 3 = 0xFD#8 ∧
    (after (.gpow 3 1 (-32768)) (scalars 2#8 0#8)).readG 3 = 0xCC#8 := by decide +kernel
-- F14, F15
theorem test_gpow_zero : (after (.gpow 3 1 0) (scalars 0#8 0#8)).readG 3 = 1#8 ∧
    code (after (.gpow 3 1 (-1)) (scalars 0#8 0#8)) = 0x02#8 := by decide +kernel
-- F16, F17
theorem test_ginv : (after (.ginv 3 1) (scalars 0x53#8 0#8)).readG 3 = 0x8C#8 ∧
    code (after (.ginv 3 1) (scalars 0#8 0#8)) = 0x02#8 := by decide +kernel
-- T5, T6
theorem test_logr : (after (.logr 3 1) (scalars 0xFF#8 0#8)).readG 3 = 0xAF#8 ∧
    code (after (.logr 3 1) (scalars 0#8 0#8)) = 0x13#8 := by decide +kernel
-- T8, T9
theorem test_expr : (after (.expr 3 509) ready).readG 3 = 0x8E#8 ∧ code (after (.expr 3 510) ready) = 0x11#8 := by
  decide +kernel
-- P1
theorem test_padd : (after (.padd 3 1 2) (loaded 7 [] [(1, [1#8, 2#8, 3#8]), (2, [4#8, 5#8])] [])).poly 3 =
    [1#8, 6#8, 6#8] := by decide +kernel
-- P4
theorem test_pscale : (after (.pscale 3 1 1) (loaded 7 [(1, 2#8)] [(1, [1#8, 2#8, 3#8])] [])).poly 3 =
    [2#8, 4#8, 6#8] := by decide +kernel
-- P6, P10
theorem test_pmul : (after (.pmul 3 1 2) (loaded 7 [] [(1, [1#8, 2#8]), (2, [1#8, 3#8])] [])).poly 3 = [1#8, 1#8, 6#8] ∧
    code (after (.pmul 3 1 2) ready) = 0x11#8 := by decide +kernel
-- P12, P14
theorem test_peval : (after (.peval 3 1 1) (loaded 7 [(1, 2#8)] [(1, [1#8, 2#8, 3#8])] [])).readG 3 = 3#8 ∧
    code (after (.peval 3 1 1) ready) = 0x11#8 := by decide +kernel
-- P16
theorem test_pdivmod :
    let t := after (.pdivmod 3 4 1 2) (loaded 7 [] [(1, [0x12#8, 0x34#8, 0x56#8]), (2, [1#8, 0x1D#8, 5#8])] [])
    t.poly 3 = [0x12#8] ∧ t.poly 4 = [0xC3#8, 0x0C#8] := by decide +kernel
-- P21, P22
theorem test_pdivmod_fails :
    code (after (.pdivmod 3 4 1 2) (loaded 7 [] [(1, [1#8, 2#8, 3#8]), (2, [2#8, 1#8])] [])) = 0x14#8 ∧
      code (after (.pdivmod 1 1 2 3) ready) = 0x12#8 := by decide +kernel
-- S2
theorem test_synd : (after (.synd 3 1) (loaded 7 [] [(1, recv3)] [])).poly 3 = synd3 := by decide +kernel
-- S1
theorem test_synd_zero : (after (.synd 3 1) (loaded 7 [] [(1, word7)] [])).sz = true := by decide +kernel
-- S6
theorem test_fsynd : (after (.fsynd 3 1 2) (loaded 7 [] [(1, synd3), (2, recv3)] [3#8])).poly 3 =
    [0#8, 0#8, 0#8, 0#8, 0#8, 0#8, 0x77#8] := by decide +kernel
-- S9
theorem test_eloc : (after (.eloc 3 1) (loaded 7 [] [(1, synd3.tail)] [])).poly 3 = [0x1D#8, 1#8] := by decide +kernel
-- S13
theorem test_eloc_fails :
    code (after (.eloc 3 1) (loaded 7 [] [(1, [0x00#8, 0x08#8, 0xB1#8, 0x88#8, 0xAD#8, 0x93#8, 0xC0#8])] [])) = 0x05#8 := by
  decide +kernel
-- S15, S19
theorem test_chien : (after (.chien 3 1 2) (loaded 7 [] [(1, [8#8, 1#8]), (2, word7)] [])).poly 3 = [8#8] ∧
    code (after (.chien 3 1 2) (loaded 7 [] [(1, [0#8, 0x1D#8, 1#8]), (2, word7)] [])) = 0x06#8 := by decide +kernel
-- S23
theorem test_ploc : (after (.ploc 3 1 2) (loaded 7 [] [(1, [0#8, 5#8, 11#8, 8#8]), (2, word7)] [])).poly 3 =
    [0xB4#8, 0x05#8, 0x11#8, 0xA1#8, 0x01#8] := by decide +kernel
-- S25
theorem test_eeval : (after (.eeval 3 1 2) (loaded 7 [] [(1, synd3), (2, [0x1D#8, 1#8])] [])).poly 3 = eval3 := by
  decide +kernel
-- S28, S30
theorem test_fmag : (after (.fmag 3 1 2 4) (loaded 7 [] [(1, eval3), (2, [3#8]), (4, word7)] [])).poly 3 = [0x6C#8] ∧
    code (after (.fmag 3 1 2 4) (loaded 7 [] [(1, eval3), (2, [3#8, 3#8]), (4, word7)] [])) = 0x07#8 := by decide +kernel
-- S33
theorem test_corr : (after (.corr 3 1 2 4)
    (loaded 7 [] [(1, [1#8, 2#8, 3#8]), (2, [0#8, 0#8]), (4, [5#8, 7#8])] [])).poly 3 = [6#8, 2#8, 3#8] := by decide +kernel
-- C1
theorem test_genpoly : (after (.genpoly 3) (loaded 3 [] [] [])).poly 3 = [1#8, 7#8, 14#8, 8#8] := by decide +kernel
-- C4
theorem test_encode : (after (.encode 3 1) (loaded 2 [] [(1, hello)] [])).poly 3 = hello ++ [0x5F#8, 0x1D#8] := by
  decide +kernel
-- D5: three erasures and one error
theorem test_decode_corrects :
    let t := after (.decode 3 4 1) (loaded 7 [] [(1, [0x00#8, 0x65#8, 0x6C#8, 0x6C#8, 0x6F#8, 0x00#8, 0x93#8, 0xB5#8,
      0x81#8, 0x0A#8, 0x06#8, 0x00#8])] [0#8, 5#8, 11#8])
    t.poly 3 = hello ∧ t.poly 4 = check7 ∧ infoWord t = 0x104#32 ∧ t.sz = false := by decide +kernel
-- D4: the no-correction exit; D9: too many errors
theorem test_decode_exits :
    (after (.decode 3 4 1) (loaded 7 [] [(1, [0x00#8, 0x01#8, 0x02#8, 0x75#8, 0x01#8, 0x7E#8, 0x95#8, 0x0C#8, 0xAA#8,
      0x3A#8])] [0#8])).sz = true ∧
    code (after (.decode 3 4 1) (loaded 7 [] [(1, [0xB7#8, 0x9A#8, 0x93#8, 0x93#8, 0x6F#8, 0x13#8, 0x93#8, 0xB5#8, 0xD4#8,
      0x0A#8, 0x06#8, 0xAF#8])] [])) = 0x05#8 := by decide +kernel

/-! ### Witnesses: encoding -/

theorem witness_DecodeOfEncode : (Instr.gpow 15 0 (-32768)).wf = true ∧ (Instr.gpow 0 15 32767).wf = true ∧
    (Instr.expr 15 0).wf = true ∧ (Instr.expr 0 65535).wf = true ∧ (Instr.decode 15 0 15).wf = true := by decide
theorem witness_EncodeOfDecode : decode 0x1471FFFF#32 = some (.gpow 7 1 (-1)) := by decide
theorem witness_DecodeFollowsOpcodeMap : decode 0x40100000#32 = some (.genpoly 1) ∧ decode 0x40110000#32 = none ∧
    (⟨"GADD", 0x10000000, 0xFF000FFF⟩ : OpcodeRow) ∈ opcodeRows ∧
    (⟨"GADD", 0x10000000, 0xFF000FFF⟩ : OpcodeRow).matches 0x10312000#32 = true := by decide +kernel
theorem witness_IllegalWordsFail_rows : ∀ r ∈ opcodeRows, r.matches 0x40110000#32 = false := by decide +kernel
theorem witness_IllegalWordsFail_bytes :
    (0x0FFFFFFF#32).toNat / 2 ^ 24 ≤ 0x0F ∧ (0x18000000#32).toNat / 2 ^ 24 = 0x18 ∧
      (0x1FFFFFFF#32).toNat / 2 ^ 24 = 0x1F ∧ (0x25000000#32).toNat / 2 ^ 24 = 0x25 ∧
      (0x2FFFFFFF#32).toNat / 2 ^ 24 = 0x2F ∧ (0x38000000#32).toNat / 2 ^ 24 = 0x38 ∧
      (0x3FFFFFFF#32).toNat / 2 ^ 24 = 0x3F ∧ 0x43 ≤ (0x43000000#32).toNat / 2 ^ 24 := by decide
theorem witness_IllegalWordsFail_step : ∃ s : State, s.nextTurn = .sequencer ∧ s.seq = .command 0x43000000#32 ∧
    decode 0x43000000#32 = none := ⟨acceptCommand ready 0x43000000#32, by decide +kernel, rfl, by decide⟩

/-! ### Witnesses: steps -/

theorem witness_StepRunsTheDecodedCommand : ∃ (s : State) (w : Word) (i : Instr), s.nextTurn = .sequencer ∧
    s.seq = .command w ∧ decode w = some i :=
  ⟨acceptCommand ready 0x10312000#32, _, .gadd 3 1 2, by decide +kernel, rfl, by decide⟩
theorem witness_StepRunsTheDecodedCommand_fetch : decodeTableWord 32 0x10312000 = some (.gadd 3 1 2) := by decide
theorem witness_StepMakesTheHostsAccess :
    ({ ready with hostOps := [.read 0x0004] } : State).nextTurn = .host ∧
      ({ ready with hostOps := [.write 0x0008 0#32] } : State).nextTurn = .host ∧
      ({ ready with hostOps := [.wait] } : State).nextTurn = .host ∧ ready.busy = false ∧
      ({ State.reset with hostOps := [.wait], turns := [.host] } : State).nextTurn = .host ∧ State.reset.busy = true := by
  decide +kernel

/-- The machine while the build runs, with a dropped write behind it: not the reset state. -/
def building : State := { State.reset with ovr := true }

theorem building_inv : building.Inv :=
  inv_of_checks _ (by decide +kernel) rfl unbuilt_log_length (by intro h; exact absurd h (by decide))

theorem witness_StepKeepsInvariant : ∃ s t : State, s.Inv ∧ step s = .next t :=
  ⟨building, completeBuild building, building_inv, rfl⟩
theorem witness_ResetValues : ({ ready with turns := [.reset] } : State).nextTurn = .reset := rfl
theorem witness_BuildCompletes : building.Inv ∧ building.nextTurn = .sequencer ∧ building.seq = .building :=
  ⟨building_inv, by decide +kernel, rfl⟩

theorem scalars_inv : (scalars 0x53#8 0xCA#8).Inv ∧ (scalars 0x53#8 0xCA#8).ready = true :=
  loaded_inv _ _ _ _ (by decide +kernel)

theorem witness_TablesStayBuilt : ∃ s t : State, s.Inv ∧ s.ready = true ∧ s.nextTurn ≠ .reset ∧ step s = .next t :=
  ⟨scalars 0x53#8 0xCA#8, _, scalars_inv.1, scalars_inv.2, by decide +kernel, step_of_host _ (by decide +kernel)⟩
theorem witness_BusyStatesBecomeIdle : ∃ s : State, s.busy = true ∧ s.turns = [.host, .reset, .host] :=
  ⟨{ building with turns := [.host, .reset, .host] }, rfl, rfl⟩
theorem witness_TablesAreInverse : ready.tables.Built := ready_built
theorem witness_TablesAreInverse_limits : ready.tables.expAt 255 = 1#8 ∧ ready.tables.expAt 509 = 0x8E#8 ∧
    ready.tables.expAt 254 = 0x8E#8 ∧ ready.tables.logAt 1#8 = 0 ∧ ready.tables.logAt 0x8E#8 = 254 := by decide +kernel

/-! ### Witnesses: the host's accesses -/

theorem witness_RegisterMapReads : ready.busy = false ∧ decodeAddr 0x0040 = .g 0 ∧ decodeAddr 0x007C = .g 15 ∧
    decodeAddr 0x0080 = .plen 0 ∧ decodeAddr 0x00BC = .plen 15 ∧ decodeAddr 0x0400 = .epos 0 ∧
    decodeAddr 0x07F8 = .epos 254 ∧ decodeAddr 0x8000 = .pcoef 0 0 ∧ decodeAddr 0x87FC = .pcoef 0 511 ∧
    decodeAddr 0x8800 = .pcoef 1 0 ∧ decodeAddr 0xFFFC = .pcoef 15 511 := by decide +kernel
theorem witness_HostWriteThenRead : (scalars 0x53#8 0xCA#8).Inv ∧ (scalars 0x53#8 0xCA#8).busy = false :=
  ⟨scalars_inv.1, by decide +kernel⟩
theorem witness_HostWriteThenRead_cells :
    isByteCell 0x0014 ∧ isByteCell 0x0040 ∧ isByteCell 0x007C ∧ isByteCell 0x0400 ∧ isByteCell 0x07F8 ∧ isByteCell 0x8000 ∧
      isByteCell 0xFFFC := by simp [isByteCell]
theorem witness_HostWriteThenRead_ignored :
    ¬ isWritable 0x0000 ∧ ¬ isWritable 0x0004 ∧ ¬ isWritable 0x0010 ∧ ¬ isWritable 0x0018 ∧ ¬ isWritable 0x003C ∧
      ¬ isWritable 0x00C0 ∧ ¬ isWritable 0x03FC ∧ ¬ isWritable 0x07FC ∧ ¬ isWritable 0x7FFC ∧ ¬ isWritable 0x0041 := by
  simp [isWritable]
theorem writable_clauses_apart (a : Nat) (h : a < 0x10000) : (isByteCell a → isWritable a ∧ a ≠ 0x000C ∧
    ¬ (0x0080 ≤ a ∧ a < 0x00C0)) ∧ (isReserved a → ¬ isWritable a) := by
  simp only [isByteCell, isWritable, isReserved]
  omega
theorem witness_MisalignedAndReservedIgnored :
    (0x0001#16).toNat % 4 ≠ 0 ∧ (0xFFFF#16).toNat % 4 ≠ 0 ∧ isReserved (0x0018#16).toNat ∧ isReserved (0x003C#16).toNat ∧
      isReserved (0x00C0#16).toNat ∧ isReserved (0x03FC#16).toNat ∧ isReserved (0x07FC#16).toNat ∧
      isReserved (0x7FFC#16).toNat := by simp [isReserved]
theorem witness_CommandAcceptance : ready.busy = false := rfl
theorem witness_WritesWhileBusyAreDropped : building.busy = true ∧ isWritable (0x0008#16).toNat ∧
    isWritable (0x000C#16).toNat ∧ isWritable (0x0014#16).toNat ∧ isWritable (0x0040#16).toNat ∧
    isWritable (0x00BC#16).toNat ∧ isWritable (0x0400#16).toNat ∧ isWritable (0x07F8#16).toNat ∧
    isWritable (0x8000#16).toNat ∧ isWritable (0xFFFC#16).toNat ∧ ¬ isWritable (0x0010#16).toNat ∧
    ¬ isWritable (0x07FC#16).toNat := by simp [isWritable, building, State.busy, State.reset]
theorem witness_ReadsWhileBusy : building.busy = true := rfl
-- R22, R68: a STATUS read after a failure, at BUSY = 0, clears nothing
theorem test_read_clears_nothing : (hostRead (raiseFail ready .logOfZero) 0x0004).errcode = some .logOfZero ∧
    (hostRead (raiseFail ready .logOfZero) 0x0004).hostReads = [0x00001305#32] := by decide +kernel
theorem witness_OverrunFlagEvents_set : ∃ s t : State, step s = .next t ∧ s.ovr = false ∧ t.ovr = true :=
  ⟨{ State.reset with turns := [.host], hostOps := [.write 0x000C 3#32] }, _, step_of_host _ rfl, rfl, by decide +kernel⟩
theorem witness_OverrunFlagEvents_reset : ∃ s t : State, step s = .next t ∧ s.ovr = true ∧ t.ovr = false ∧
    s.nextTurn = .reset := ⟨{ building with turns := [.reset] }, _, step_of_reset _ rfl, rfl, rfl, rfl⟩
theorem witness_OverrunFlagEvents_accept : ∃ s t : State, step s = .next t ∧ s.ovr = true ∧ t.ovr = false ∧
    s.nextTurn = .host :=
  ⟨{ ready with ovr := true, hostOps := [.write 0x0008 0#32] }, _, step_of_host _ rfl, rfl, by decide +kernel, rfl⟩

/-! ### Witnesses: completion, failures and frames -/

theorem witness_FailedCommandWritesOnlyStatus : ∃ (i : Instr) (s t : State), exec i s = .next t ∧ t.err = true :=
  ⟨.gdiv 3 1 0, scalars 5#8 0#8, _, exec_after _ _, by decide +kernel⟩
theorem witness_CommandsRaiseOnlyTheirCodes : ∃ (i : Instr) (s t : State) (c : Failure), s.Inv ∧ exec i s = .next t ∧
    t.errcode = some c :=
  ⟨.gdiv 3 1 0, scalars 0x53#8 0xCA#8, _, .divisionByZero, scalars_inv.1, exec_after _ _, by decide +kernel⟩
theorem witness_ScalarDestinationFrame : ∃ (i : Instr) (d : GReg) (s t : State), scalarDest i = some d ∧
    exec i s = .next t ∧ t.err = false := ⟨.gmul 3 1 2, 3, scalars 0x53#8 0xCA#8, _, rfl, exec_after _ _, by decide +kernel⟩
theorem witness_PolynomialDestinationFrame : ∃ (i : Instr) (s t : State), scalarDest i = none ∧ exec i s = .next t ∧
    t.err = false ∧ t.readPlen 1 = 7 :=
  ⟨.synd 1 1, loaded 6 [] [(1, hello)] [], _, rfl, exec_after _ _, by decide +kernel⟩
theorem witness_PolynomialDestinationFrame_failed : ∃ (i : Instr) (s t : State), scalarDest i = none ∧
    exec i s = .next t ∧ t.err = true := ⟨.pdivmod 1 1 2 3, ready, _, rfl, exec_after _ _, by decide +kernel⟩
theorem witness_PolynomialWriteEffect : (scalars 0x53#8 0xCA#8).Inv ∧ 
    (List.replicate 513 (0#8 : Byte)).length = 513 ∧ (List.replicate 512 (0#8 : Byte)).length = 512 :=
  ⟨scalars_inv.1, List.length_replicate, List.length_replicate⟩

/-! ### Witnesses: field commands -/

theorem witness_TableProductIsFieldProduct : ready.tables.Built := ready_built
theorem witness_FieldConsistency : ready.tables.Built ∧ (0x01#8 : Byte) ≠ 0#8 ∧ (0xFF#8 : Byte) ≠ 0#8 :=
  ⟨ready_built, by decide, by decide⟩
theorem witness_GmulMultiplies : ∃ s : State, s.Inv ∧ s.ready = true := ⟨_, scalars_inv⟩

/-- G1 = 0x53, G2 = 0. -/
theorem zero_scalar_inv : (scalars 0x53#8 0#8).Inv ∧ (scalars 0x53#8 0#8).ready = true :=
  loaded_inv _ _ _ _ (by decide +kernel)

theorem witness_GdivDivides : (scalars 0x53#8 0#8).Inv ∧ (scalars 0x53#8 0#8).ready = true ∧
    (scalars 0x53#8 0#8).readG 2 = 0#8 ∧ (scalars 0x53#8 0#8).readG 1 ≠ 0#8 :=
  ⟨zero_scalar_inv.1, zero_scalar_inv.2, by decide +kernel⟩
theorem witness_GpowRaisesToPower : (scalars 0x53#8 0#8).Inv ∧ (scalars 0x53#8 0#8).ready = true ∧
    (scalars 0x53#8 0#8).readG 2 = 0#8 ∧ (scalars 0x53#8 0#8).readG 1 ≠ 0#8 ∧ (0 : Int) ≤ 0 ∧ (-1 : Int) < 0 ∧
    (-32768 : Int) < 0 := ⟨zero_scalar_inv.1, zero_scalar_inv.2, by decide +kernel⟩
theorem witness_GinvInverts : (scalars 0x53#8 0#8).Inv ∧ (scalars 0x53#8 0#8).ready = true ∧
    (scalars 0x53#8 0#8).readG 2 = 0#8 ∧ (scalars 0x53#8 0#8).readG 1 ≠ 0#8 :=
  ⟨zero_scalar_inv.1, zero_scalar_inv.2, by decide +kernel⟩
theorem witness_LogrTakesLogarithm : (scalars 0x53#8 0#8).Inv ∧ (scalars 0x53#8 0#8).ready = true ∧
    (scalars 0x53#8 0#8).readG 2 = 0#8 ∧ (scalars 0x53#8 0#8).readG 1 ≠ 0#8 :=
  ⟨zero_scalar_inv.1, zero_scalar_inv.2, by decide +kernel⟩
theorem witness_ExprReadsExponentTable : (scalars 0x53#8 0#8).Inv ∧ (scalars 0x53#8 0#8).ready = true ∧ 509 ≤ 509 ∧
    509 < 510 := ⟨zero_scalar_inv.1, zero_scalar_inv.2, by decide⟩

/-! ### Witnesses: polynomial commands -/

/-- P1 = [1, 2, 3], P2 = [1, 5], P3 = [2, 1], P4 and P5 of length 256 and 257, the rest empty; G1 = 2. -/
def polys : State := sized (loaded 7 [(1, 2#8)] [(1, [1#8, 2#8, 3#8]), (2, [1#8, 5#8]), (3, [2#8, 1#8])] []) [(4, 256), (5, 257)]

theorem polys_inv : polys.Inv ∧ polys.ready = true :=
  sized_inv _ _ (loaded_inv _ _ _ _ (by decide +kernel)) (by decide +kernel)

theorem witness_PaddAddsPolynomials : polys.Inv ∧ (polys.poly 1).length = 3 ∧ (polys.poly 0).length = 0 :=
  ⟨polys_inv.1, by decide +kernel⟩
theorem witness_PscaleScalesPolynomial : polys.Inv ∧ polys.ready = true ∧ polys.readG 1 = 2#8 :=
  ⟨polys_inv.1, polys_inv.2, by decide +kernel⟩
theorem witness_PmulMultipliesPolynomials : polys.Inv ∧ polys.ready = true ∧ (polys.poly 0).length = 0 ∧
    512 < (polys.poly 5).length + (polys.poly 5).length - 1 ∧ (polys.poly 4).length ≠ 0 ∧
    (polys.poly 4).length + (polys.poly 5).length - 1 = 512 := ⟨polys_inv.1, polys_inv.2, by decide +kernel⟩
theorem witness_PevalEvaluates : polys.Inv ∧ polys.ready = true ∧ (polys.poly 0).length = 0 ∧ (polys.poly 1).length ≠ 0 :=
  ⟨polys_inv.1, polys_inv.2, by decide +kernel⟩
theorem witness_PdivmodDivides : polys.Inv ∧ polys.ready = true ∧ (polys.poly 0).length = 0 ∧
    (polys.poly 0).length < (polys.poly 2).length - 1 ∧
    ((polys.poly 3).length ≠ 0 ∧ (polys.poly 3).length - 1 ≤ (polys.poly 1).length ∧ (polys.poly 3).head? ≠ some 1#8) ∧
    ((polys.poly 1).length - 1 = (polys.poly 2).length ∧ (polys.poly 1).head? = some 1#8) :=
  ⟨polys_inv.1, polys_inv.2, by decide +kernel⟩

/-! ### Witnesses: decoder stages -/

/-- NSYM = 7 and EPOS = [3]; P1 a received word, P2 its syndromes, P3 of length 256, P4 a list with a bad position, P5 = [3],
P6 a locator, P7 a locator without roots, P8 its evaluator, P9 Forney syndromes, P10 a repeated position, P11 of length 255. -/
def stages : State := sized (loaded 7 [] [(1, recv3), (2, synd3), (4, [12#8]), (5, [3#8]), (6, [0x1D#8, 1#8]),
  (7, [0#8, 0x1D#8, 1#8]), (8, eval3), (9, synd3.tail), (10, [3#8, 3#8])] [3#8]) [(3, 256), (11, 255)]

theorem stages_inv : stages.Inv ∧ stages.ready = true :=
  sized_inv _ _ (loaded_inv _ _ _ _ (by decide +kernel)) (by decide +kernel)

/-- The same with the erasure list [3, 3]. -/
def stagesRepeated : State := loaded 7 [] [(1, recv3), (2, synd3)] [3#8, 3#8]

theorem stagesRepeated_inv : stagesRepeated.Inv ∧ stagesRepeated.ready = true := loaded_inv _ _ _ _ (by decide +kernel)

/-- The same with the erasure list [12], past the end of a word of 12. -/
def stagesOutside : State := loaded 7 [] [(1, recv3), (2, synd3)] [12#8]

theorem stagesOutside_inv : stagesOutside.Inv ∧ stagesOutside.ready = true := loaded_inv _ _ _ _ (by decide +kernel)

theorem witness_SyndComputesSyndromes : stages.Inv ∧ stages.ready = true ∧ 255 < (stages.poly 3).length ∧
    (stages.poly 0).length = 0 ∧ (stages.poly 5).length = 1 ∧ (stages.poly 11).length = 255 :=
  ⟨stages_inv.1, stages_inv.2, by decide +kernel⟩
theorem witness_FsyndFoldsErasures : stages.Inv ∧ stages.ready = true ∧ (stages.poly 0).length ≠ stages.nsym.toNat + 1 ∧
    (stages.poly 2).length = stages.nsym.toNat + 1 ∧ 255 < (stages.poly 3).length ∧ (stages.poly 0).length = 0 ∧
    (stages.poly 1).length ≠ 0 ∧ (stages.poly 1).length ≤ 255 ∧ positionsOf stages.era (stages.poly 1).length ∧
    stages.era.Nodup := ⟨stages_inv.1, stages_inv.2, by simp only [positionsOf]; decide +kernel⟩
theorem witness_FsyndFoldsErasures_repeated : stagesRepeated.Inv ∧ stagesRepeated.ready = true ∧
    (stagesRepeated.poly 2).length = stagesRepeated.nsym.toNat + 1 ∧ (stagesRepeated.poly 1).length = 12 ∧
    ¬ (positionsOf stagesRepeated.era (stagesRepeated.poly 1).length ∧ stagesRepeated.era.Nodup) :=
  ⟨stagesRepeated_inv.1, stagesRepeated_inv.2, by simp only [positionsOf]; decide +kernel⟩
theorem witness_FsyndFoldsErasures_outside : stagesOutside.Inv ∧ stagesOutside.ready = true ∧
    (stagesOutside.poly 2).length = stagesOutside.nsym.toNat + 1 ∧ (stagesOutside.poly 1).length = 12 ∧
    ¬ (positionsOf stagesOutside.era (stagesOutside.poly 1).length ∧ stagesOutside.era.Nodup) :=
  ⟨stagesOutside_inv.1, stagesOutside_inv.2, by simp only [positionsOf]; decide +kernel⟩
theorem witness_ElocWritesLocator : stages.Inv ∧ stages.ready = true ∧ (stages.poly 0).length ≠ stages.nsym.toNat ∧
    (stages.poly 9).length = stages.nsym.toNat ∧ stages.elen.toNat ≤ stages.nsym.toNat ∧
    2 * ((errorLocator (stages.poly 9) (stages.nsym.toNat - stages.elen.toNat)).length - 1) + stages.elen.toNat ≤
      stages.nsym.toNat := ⟨stages_inv.1, stages_inv.2, by decide +kernel⟩

/-- NSYM = 1 and two erasures; P1 of length 1. -/
def erasedTooMuch : State := loaded 1 [] [(1, [5#8])] [0#8, 1#8]

theorem erasedTooMuch_inv : erasedTooMuch.Inv ∧ erasedTooMuch.ready = true := loaded_inv _ _ _ _ (by decide +kernel)

theorem witness_ElocWritesLocator_erasures : erasedTooMuch.Inv ∧ erasedTooMuch.ready = true ∧
    (erasedTooMuch.poly 1).length = erasedTooMuch.nsym.toNat ∧ erasedTooMuch.nsym.toNat < erasedTooMuch.elen.toNat :=
  ⟨erasedTooMuch_inv.1, erasedTooMuch_inv.2, by decide +kernel⟩

/-- The Forney syndromes of S13. -/
def overloaded : State :=
  loaded 7 [] [(1, [0x00#8, 0x08#8, 0xB1#8, 0x88#8, 0xAD#8, 0x93#8, 0xC0#8])] []

theorem overloaded_inv : overloaded.Inv ∧ overloaded.ready = true := loaded_inv _ _ _ _ (by decide +kernel)

theorem witness_ElocWritesLocator_errors : overloaded.Inv ∧ overloaded.ready = true ∧
    (overloaded.poly 1).length = overloaded.nsym.toNat ∧ overloaded.elen.toNat ≤ overloaded.nsym.toNat ∧
    overloaded.nsym.toNat < 2 * ((errorLocator (overloaded.poly 1)
      (overloaded.nsym.toNat - overloaded.elen.toNat)).length - 1) + overloaded.elen.toNat :=
  ⟨overloaded_inv.1, overloaded_inv.2, by decide +kernel⟩
-- the Forney syndromes of S2 and their locator (S9)
theorem test_error_locator : errorLocator synd3.tail 7 = [0x1D#8, 1#8] := by decide +kernel
theorem witness_LocatorProperties : ∃ loc, ready.tables.Built ∧ bmLocator ready.tables synd3.tail 0 7 = .ok loc :=
  ⟨[0x1D#8, 1#8], ready_built, by
    have h : (match bmLocator ready.tables synd3.tail 0 7 with | .ok l => l == [0x1D#8, 1#8] | .error _ => false) = true := by
      decide +kernel
    cases hb : bmLocator ready.tables synd3.tail 0 7 with
    | error e => rw [hb] at h; exact Bool.noConfusion h
    | ok l => rw [hb] at h; simp only [beq_iff_eq] at h; rw [h]⟩
theorem witness_LocatorProperties_take : (synd3.take 3) = ([0x00#8, 0x6C#8, 0x08#8, 0xFF#8] : Poly).take 3 := by decide
theorem witness_ChienFindsRoots : stages.Inv ∧ stages.ready = true ∧ (stages.poly 0).length = 0 ∧
    (stages.poly 6).length ≠ 0 ∧ 255 < (stages.poly 3).length ∧ (stages.poly 1).length ≠ 0 ∧
    (stages.poly 1).length ≤ 255 ∧
    (((List.range (stages.poly 1).length).filter
      (fun i => evalAt (stages.poly 6).reverse (power 2#8 i) == 0#8)).length = (stages.poly 6).length - 1) ∧
    (((List.range (stages.poly 1).length).filter
      (fun i => evalAt (stages.poly 7).reverse (power 2#8 i) == 0#8)).length ≠ (stages.poly 7).length - 1) :=
  ⟨stages_inv.1, stages_inv.2, by decide +kernel⟩
theorem witness_PlocMultipliesFactors : stages.Inv ∧ stages.ready = true ∧ 255 < (stages.poly 3).length ∧
    (stages.poly 0).length = 0 ∧ (stages.poly 1).length ≠ 0 ∧ (stages.poly 1).length ≤ 255 ∧
    ¬ positionsOf (stages.poly 4) (stages.poly 1).length ∧ positionsOf (stages.poly 5) (stages.poly 1).length ∧
    (stages.poly 5).length < 512 := ⟨stages_inv.1, stages_inv.2, by simp only [positionsOf]; decide +kernel⟩

/-- P1 a word, P2 and P3 position lists of length 512 and 511. -/
def longLists : State := sized (loaded 7 [] [] []) [(1, 12), (2, 512), (3, 511)]

theorem longLists_inv : longLists.Inv ∧ longLists.ready = true :=
  sized_inv _ _ (loaded_inv _ _ _ _ (by decide +kernel)) (by decide +kernel)

theorem readList_nil (a n : Nat) : Memory.readList [] a n = List.replicate n 0#8 := by
  induction n generalizing a with
  | zero => rfl
  | succ n ih => simp [Memory.readList, Memory.read, Config.unwrittenCell, ih, List.replicate_succ]

theorem longLists_zero (k : PReg) : positionsOf (longLists.poly k) 12 := by
  intro p hp
  have h : longLists.poly k = List.replicate (longLists.readPlen k) 0#8 := readList_nil _ _
  rw [h] at hp
  simp [List.eq_of_mem_replicate hp]

theorem witness_PlocMultipliesFactors_long : longLists.Inv ∧ longLists.ready = true ∧
    (longLists.poly 1).length = 12 ∧ positionsOf (longLists.poly 2) 12 ∧ (longLists.poly 2).length = 512 ∧
    positionsOf (longLists.poly 3) 12 ∧ (longLists.poly 3).length < 512 :=
  ⟨longLists_inv.1, longLists_inv.2, by simp only [poly_length]; decide +kernel, longLists_zero 2,
    by simp only [poly_length]; decide +kernel, longLists_zero 3, by simp only [poly_length]; decide +kernel⟩
theorem witness_EevalKeepsLowCoefficients : stages.Inv ∧ stages.ready = true ∧
    (stages.poly 9).length ≠ stages.nsym.toNat + 1 ∧ (stages.poly 0).length = 0 ∧
    (stages.poly 2).length = stages.nsym.toNat + 1 ∧ (stages.poly 6).length ≠ 0 :=
  ⟨stages_inv.1, stages_inv.2, by decide +kernel⟩
theorem witness_FmagComputesMagnitudes : stages.Inv ∧ stages.ready = true ∧ (stages.poly 0).length = 0 ∧
    (stages.poly 8).length ≠ 0 ∧ 255 < (stages.poly 3).length ∧ (stages.poly 1).length ≠ 0 ∧
    (stages.poly 1).length ≤ 255 ∧ ¬ positionsOf (stages.poly 4) (stages.poly 1).length ∧
    (positionsOf (stages.poly 10) (stages.poly 1).length ∧ ¬ (stages.poly 10).Nodup) ∧
    positionsOf (stages.poly 5) (stages.poly 1).length ∧ (stages.poly 5).Nodup ∧
    product (locatorOf (stages.poly 1).length ((stages.poly 5).getD 0 0#8).toNat)
      (inverse stages.tables (power 2#8 8)) = 1#8 :=
  ⟨stages_inv.1, stages_inv.2, by simp only [positionsOf]; decide +kernel⟩
theorem witness_CorrAppliesErrorVector : stages.Inv ∧ 255 < (stages.poly 3).length ∧ (stages.poly 0).length = 0 ∧
    (stages.poly 1).length ≠ 0 ∧ (stages.poly 1).length ≤ 255 ∧ (stages.poly 5).length ≠ (stages.poly 10).length ∧
    (stages.poly 4).length = (stages.poly 5).length ∧ ¬ positionsOf (stages.poly 4) (stages.poly 1).length ∧
    positionsOf (stages.poly 10) (stages.poly 1).length :=
  ⟨stages_inv.1, by simp only [positionsOf]; decide +kernel⟩

/-! ### Witnesses: codec -/

theorem witness_GenpolyBuildsGenerator : ∃ (s : State) (gen : Poly), s.Inv ∧ s.ready = true ∧
    gen = (List.range s.nsym.toNat).foldl (fun g i => productPoly g [1#8, power 2#8 i]) [1#8] :=
  ⟨stages, _, stages_inv.1, stages_inv.2, rfl⟩

/-- NSYM = 7; P1 and P2 of length 249 and 248. -/
def messages : State := sized (loaded 7 [] [] []) [(1, 249), (2, 248)]

theorem messages_inv : messages.Inv ∧ messages.ready = true :=
  sized_inv _ _ (loaded_inv _ _ _ _ (by decide +kernel)) (by decide +kernel)

theorem witness_EncodeWritesCodeword : messages.Inv ∧ messages.ready = true ∧
    255 < (messages.poly 1).length + messages.nsym.toNat ∧ (messages.poly 2).length + messages.nsym.toNat = 255 :=
  ⟨messages_inv.1, messages_inv.2, by decide +kernel⟩
theorem witness_DecodeChecksInOrder : (2 : PReg) ≠ 3 ∧ 255 < (stages.poly 3).length ∧
    ((erasedTooMuch.poly 1).length ≤ 255 ∧ erasedTooMuch.nsym.toNat < erasedTooMuch.elen.toNat) ∧
    ((stages.poly 0).length = 0 ∧ stages.elen.toNat ≤ stages.nsym.toNat) ∧
    (stages.poly 6).length < stages.nsym.toNat ∧
    (stagesOutside.elen.toNat ≤ stagesOutside.nsym.toNat ∧ stagesOutside.nsym.toNat ≤ (stagesOutside.poly 1).length ∧
      ¬ (positionsOf stagesOutside.era (stagesOutside.poly 1).length ∧ stagesOutside.era.Nodup)) := by
  simp only [positionsOf]; decide +kernel

/-- The operand checks of DECODE pass on the word in P1, and the blanked word is no codeword. -/
def corrects (s : State) : Prop :=
  (s.poly 1).length ≤ 255 ∧ s.elen.toNat ≤ s.nsym.toNat ∧ (s.poly 1).length ≠ 0 ∧ s.nsym.toNat ≤ (s.poly 1).length ∧
    positionsOf s.era (s.poly 1).length ∧ s.era.Nodup ∧ ¬ isCodeword (blanked (s.poly 1) s.era) s.nsym.toNat

/-- The locator, the located positions and the corrected word of DECODE on P1, in plain field arithmetic. -/
def locatorIn (s : State) : Poly :=
  errorLocator (foldedSyndromes (blanked (s.poly 1) s.era) s.era s.nsym.toNat) (s.nsym.toNat - s.elen.toNat)
def locatedIn (s : State) : List Byte := locatedPositions (locatorIn s) (s.poly 1).length
def correctedIn (s : State) : Poly := correctedWord (blanked (s.poly 1) s.era) (s.era ++ locatedIn s) s.nsym.toNat

/-- Words for each outcome of the correction path; the first two are D9 and D8. -/
def tooMany : State := loaded 7 [] [(1, [0xB7#8, 0x9A#8, 0x93#8, 0x93#8, 0x6F#8, 0x13#8, 0x93#8, 0xB5#8, 0xD4#8, 0x0A#8,
  0x06#8, 0xAF#8])] []
def notLocated : State := loaded 7 [] [(1, [0xF5#8, 0x65#8, 0x6C#8, 0x6C#8, 0x6F#8, 0x5C#8, 0x93#8, 0xB5#8, 0xD4#8, 0x76#8,
  0x06#8, 0x0C#8])] []
/-- The word of syndromes 1, 0: its stripped locator is [1], and no position is left. -/
def noPosition : State := loaded 2 [] [(1, [0xF4#8, 0xF5#8])] []
/-- The located position is the erased one. -/
def locatedErasure : State := loaded 3 [] [(1, [0x41#8, 0xE2#8, 0xB2#8, 0x47#8, 0x22#8, 0xEE#8])] [2#8]
def notCorrected : State := loaded 4 [] [(1, [1#8, 1#8, 0#8, 0x40#8])] [2#8, 1#8]

theorem outcomes_inv : (tooMany.Inv ∧ notLocated.Inv ∧ noPosition.Inv ∧ locatedErasure.Inv ∧ notCorrected.Inv) ∧
    tooMany.ready = true ∧ notLocated.ready = true ∧ noPosition.ready = true ∧ locatedErasure.ready = true ∧
    notCorrected.ready = true :=
  ⟨⟨(loaded_inv _ _ _ _ (by decide +kernel)).1, (loaded_inv _ _ _ _ (by decide +kernel)).1,
    (loaded_inv _ _ _ _ (by decide +kernel)).1, (loaded_inv _ _ _ _ (by decide +kernel)).1,
    (loaded_inv _ _ _ _ (by decide +kernel)).1⟩, (loaded_inv _ _ _ _ (by decide +kernel)).2,
    (loaded_inv _ _ _ _ (by decide +kernel)).2, (loaded_inv _ _ _ _ (by decide +kernel)).2,
    (loaded_inv _ _ _ _ (by decide +kernel)).2, (loaded_inv _ _ _ _ (by decide +kernel)).2⟩

theorem witness_DecodeChecksInOrder_many : corrects tooMany ∧
    tooMany.nsym.toNat < 2 * ((locatorIn tooMany).length - 1) + tooMany.elen.toNat := by
  simp only [corrects, positionsOf, isCodeword]; decide +kernel
theorem witness_DecodeChecksInOrder_unlocated : corrects notLocated ∧
    locatorIn notLocated = [0x77#8, 0x18#8, 0x4D#8, 1#8] ∧
    2 * ((locatorIn notLocated).length - 1) + notLocated.elen.toNat ≤ notLocated.nsym.toNat ∧
    (locatedIn notLocated).length ≠ (locatorIn notLocated).length - 1 := by
  simp only [corrects, positionsOf, isCodeword]; decide +kernel
theorem witness_DecodeChecksInOrder_none : corrects noPosition ∧ locatorIn noPosition = [1#8] ∧
    (locatedIn noPosition).length = (locatorIn noPosition).length - 1 ∧ noPosition.era ++ locatedIn noPosition = [] := by
  simp only [corrects, positionsOf, isCodeword]; decide +kernel
theorem witness_DecodeChecksInOrder_repeated : corrects locatedErasure ∧
    2 * ((locatorIn locatedErasure).length - 1) + locatedErasure.elen.toNat ≤ locatedErasure.nsym.toNat ∧
    (locatedIn locatedErasure).length = (locatorIn locatedErasure).length - 1 ∧
    ¬ (locatedErasure.era ++ locatedIn locatedErasure).Nodup := by
  simp only [corrects, positionsOf, isCodeword]; decide +kernel
theorem witness_DecodeChecksInOrder_uncorrected : corrects notCorrected ∧
    2 * ((locatorIn notCorrected).length - 1) + notCorrected.elen.toNat ≤ notCorrected.nsym.toNat ∧
    (locatedIn notCorrected).length = (locatorIn notCorrected).length - 1 ∧
    (notCorrected.era ++ locatedIn notCorrected) ≠ [] ∧ (notCorrected.era ++ locatedIn notCorrected).Nodup ∧
    ¬ isCodeword (correctedIn notCorrected) notCorrected.nsym.toNat := by
  simp only [corrects, positionsOf, isCodeword]; decide +kernel
-- D8 and D9
theorem test_decode_failures : (after (.decode 2 3 1) notLocated).errcode = some .couldNotLocateErrors ∧
    (after (.decode 2 3 1) tooMany).errcode = some .tooManyErrors := by decide +kernel

/-- D4: a codeword whose erased position already holds 0. -/
def cleanWord : State := loaded 7 [] [(1, [0x00#8, 0x01#8, 0x02#8, 0x75#8, 0x01#8, 0x7E#8, 0x95#8, 0x0C#8, 0xAA#8,
  0x3A#8])] [0#8]

theorem cleanWord_inv : cleanWord.Inv ∧ cleanWord.ready = true := loaded_inv _ _ _ _ (by decide +kernel)

theorem witness_DecodeNoCorrectionExit : cleanWord.Inv ∧ cleanWord.ready = true ∧ (cleanWord.poly 1).length ≤ 255 ∧
    cleanWord.elen.toNat ≤ cleanWord.nsym.toNat ∧ (cleanWord.poly 1).length ≠ 0 ∧
    cleanWord.nsym.toNat ≤ (cleanWord.poly 1).length ∧ positionsOf cleanWord.era (cleanWord.poly 1).length ∧
    cleanWord.era.Nodup ∧ isCodeword (blanked (cleanWord.poly 1) cleanWord.era) cleanWord.nsym.toNat :=
  ⟨cleanWord_inv.1, cleanWord_inv.2, by simp only [positionsOf, isCodeword]; decide +kernel⟩

/-- NSYM = 2, no erasure, and the codeword of C4 with one error. -/
def oneError : State := loaded 2 [] [(1, [0x48#8, 0x65#8, 0x6C#8, 0x00#8, 0x6F#8, 0x5F#8, 0x1D#8])] []

theorem oneError_inv : oneError.Inv ∧ oneError.ready = true := loaded_inv _ _ _ _ (by decide +kernel)

theorem witness_DecodeChecksInOrder_corrected : oneError.Inv ∧ oneError.ready = true ∧ corrects oneError ∧
    2 * ((locatorIn oneError).length - 1) + oneError.elen.toNat ≤ oneError.nsym.toNat ∧
    (locatedIn oneError).length = (locatorIn oneError).length - 1 ∧ oneError.era ++ locatedIn oneError = [3#8] ∧
    isCodeword (correctedIn oneError) oneError.nsym.toNat :=
  ⟨oneError_inv.1, oneError_inv.2, by simp only [corrects, positionsOf, isCodeword]; decide +kernel⟩
theorem witness_DecodeReturnsCodeword : ∃ s t : State, s.Inv ∧ s.ready = true ∧ exec (.decode 12 13 1) s = .next t ∧
    t.err = false ∧ t.nerr = 1#8 :=
  ⟨oneError, after (.decode 12 13 1) oneError, oneError_inv.1, oneError_inv.2, exec_after _ _, by decide +kernel⟩

/-- "Hello" with three erasures and two undeclared errors: 2·2 + 3 = 7. -/
def capacity : State := loaded 7 [] [(1, [0x00#8, 0x65#8, 0x6C#8, 0x6C#8, 0x6F#8, 0x00#8, 0x11#8, 0xB5#8, 0x81#8, 0x0A#8,
  0x06#8, 0x00#8])] [0#8, 5#8, 11#8]

theorem capacity_inv : capacity.Inv ∧ capacity.ready = true := loaded_inv _ _ _ _ (by decide +kernel)

theorem witness_DecodeCorrectsWithinCapacity : capacity.Inv ∧ capacity.ready = true ∧
    word7.length = (capacity.poly 1).length ∧ (capacity.poly 1).length ≠ 0 ∧ (capacity.poly 1).length ≤ 255 ∧
    capacity.nsym.toNat ≤ (capacity.poly 1).length ∧ positionsOf capacity.era (capacity.poly 1).length ∧
    capacity.era.Nodup ∧ isCodeword word7 capacity.nsym.toNat ∧
    2 * undeclaredErrors word7 (capacity.poly 1) capacity.era + capacity.elen.toNat = capacity.nsym.toNat :=
  ⟨capacity_inv.1, capacity_inv.2, by simp only [positionsOf, isCodeword]; decide +kernel⟩
theorem witness_EncodeThenDecodeRoundTrip : messages.Inv ∧ messages.ready = true ∧ (4 : PReg) ≠ 5 ∧ messages.elen = 0#8 ∧
    (messages.poly 2).length + messages.nsym.toNat ≤ 255 ∧ (messages.poly 2).length + messages.nsym.toNat ≠ 0 :=
  ⟨messages_inv.1, messages_inv.2, by decide +kernel⟩

/-! ### Witness: unwritten cells -/

/-- GADD of two written registers is about to execute. -/
def addReady : State := acceptCommand (scalars 0x53#8 0xCA#8) 0x10312000#32

/-- The same but for the contents of a G cell and of a PCOEF cell that nothing has written. -/
def addReady' : State := { addReady with g := addReady.g.set 7 9#8, cells := [(0x8000, 5#8)] }

theorem witness_UnwrittenCellsDoNotMatter : addReady ≠ addReady' ∧ addReady.cells.wf ∧ addReady'.cells.wf ∧
    (∀ p ∈ addReady.cells, isCellAddr p.1) ∧ (∀ p ∈ addReady'.cells, isCellAddr p.1) ∧
    AgreeOnWritten addReady addReady' ∧ ∃ t, checkedStep addReady = .next t := by
  refine ⟨?_, by decide +kernel, by decide +kernel, by decide +kernel, by decide +kernel,
    ⟨rfl, by decide +kernel, by decide +kernel⟩, ?_⟩
  · intro h
    exact absurd (congrArg State.cells h) (by decide +kernel)
  · refine ⟨after (.gadd 3 1 2) addReady.popTurn, ?_⟩
    rw [checkedStep_of_clear _ (by decide +kernel) (by decide +kernel), step_of_sequencer _ (by decide +kernel),
      sequencerTurn_command _ 0x10312000#32 rfl, executeWord_some _ _ (.gadd 3 1 2) (by decide)]
    exact exec_after _ _

/-- GADD of a written register and of G3, which nothing has written, is about to execute. -/
def addUnwritten : State := acceptCommand (scalars 1#8 2#8) 0x10313000#32

/-- The host reads an address while the table build runs, or after it. -/
def readsWhileBuilding (addr : Addr) : State := { building with turns := [.host], hostOps := [.read addr] }
def readsWhenReady (addr : Addr) : State := { ready with turns := [.host], hostOps := [.read addr] }

theorem witness_UnwrittenCellsDoNotMatter_written : cellsRead addReady = [0x44, 0x48] ∧
    ∀ a ∈ cellsRead addReady, a ∈ addReady.written := by decide +kernel
theorem witness_UnwrittenCellsDoNotMatter_specified : ∀ addr, ¬ readsUnspecifiedAt addReady addr :=
  fun _ h => absurd h.1 (by decide +kernel)
theorem witness_UnwrittenCellsDoNotMatter_unwritten : 0x4C ∈ cellsRead addUnwritten ∧ 0x4C ∉ addUnwritten.written := by
  decide +kernel
theorem witness_UnwrittenCellsDoNotMatter_busy :
    (∀ a ∈ cellsRead (readsWhileBuilding 0x0040), a ∈ (readsWhileBuilding 0x0040).written) ∧
      readsUnspecifiedAt (readsWhileBuilding 0x0040) 0x0040 :=
  ⟨by decide +kernel, by decide +kernel, by decide +kernel, by simp [isCommandOwned], [], rfl⟩
theorem witness_UnwrittenCellsDoNotMatter_records : ∃ t, step addReady = .next t ∧ writesCell addReady t 0x004C ∧
    0x004C ∉ addReady.written :=
  ⟨after (.gadd 3 1 2) addReady.popTurn, by
    rw [step_of_sequencer _ (by decide +kernel), sequencerTurn_command _ 0x10312000#32 rfl,
      executeWord_some _ _ (.gadd 3 1 2) (by decide)]
    exact exec_after _ _,
    .inl ⟨0x10312000#32, .gadd 3 1 2, by decide +kernel, rfl, by decide, by decide +kernel, .inl ⟨3, rfl, rfl⟩⟩,
    by decide +kernel⟩
-- R36: a write of 0 makes a cell written, and a reset makes none
theorem test_zero_is_written : (hostWrite ready 0x0040 0#32).written = [0x0040] ∧
    (hostWrite ready 0x8000 0#32).written = [0x8000] ∧ (hostWrite ready 0x0400 0#32).written = [0x0400] ∧
    (hostWrite ready 0x0014 1#32).written = [] ∧ (after (.synd 0 1) cleanWord).written ⊇ [0x8000, 0x801C] ∧
    (resetCore cleanWord).written = [] := by decide +kernel
theorem witness_UnwrittenCellsDoNotMatter_source :
    isSourceCell (.gadd 3 1 2) addReady 0x0048 ∧ ¬ isSourceCell (.gadd 3 1 2) addReady 0x004C := by
  simp [isSourceCell, scalarSources, polySources, readsErasures]

theorem test_checked_step_faults : uninitialisedRead addUnwritten = some 0x4C ∧
    unspecifiedRead (readsWhileBuilding 0x0040) = some 0x40 := by decide +kernel
-- R36, R61: the cell a host read uses while BUSY = 0, at the ends of the windows and beside ELEN
theorem test_host_read_cells : ([0x0014, 0x0040, 0x007C, 0x0080, 0x0400, 0x07F8, 0x07FC, 0x8000, 0xFFFC, 0xFFFD].map
    fun a => cellsRead (readsWhenReady a)) =
    [[], [0x0040], [0x007C], [], [0x0400], [0x07F8], [], [0x8000], [0xFFFC], []] := by decide +kernel
-- R34, R271: command-owned state from NSYM on; ID, STATUS, CMD, reserved and misaligned addresses are none of it
theorem test_busy_reads : ([0x0000, 0x0004, 0x0008, 0x000C, 0x0014, 0x0018, 0x00BC, 0x07F8, 0x07FC, 0xFFFC, 0x0041].map
    fun a => unspecifiedRead (readsWhileBuilding a)) =
    [none, none, none, some 0x000C, some 0x0014, none, some 0x00BC, some 0x07F8, none, some 0xFFFC, none] := by
  decide +kernel

/-! ### The host notation (R90, log 21) -/

theorem test_loads_begin_with_wait : loadp 4 [0x48#8] = [.wait, .write 0x0090 1#32, .write 0xA000 0x48#32] ∧
    loade [5#8] = [.wait, .write 0x0014 1#32, .write 0x0400 5#32] := by decide
-- Program 4: the host's next turn comes while a command still runs, and loadp stays whole
theorem test_loadp_waits_for_a_command : ({ addReady with hostOps := loadp 4 [0x48#8] } : State).busy = true ∧
    (hostTurn { addReady with hostOps := loadp 4 [0x48#8] }).hostOps = loadp 4 [0x48#8] ∧
    (hostTurn { addReady with hostOps := loadp 4 [0x48#8] }).ovr = false := by decide +kernel

end Sys2Proof.Tests
end

section
/-! SUPPORT. What one step can do, and the invariant that every step keeps (spec/70_reset_and_hazards.md R277; spec/10_state.md
R22-R32). -/

namespace Sys2Proof.Machine
open Sys2Proof.Spec
variable {s t : State}

/-! ### One step, case by case -/

/-- What one step can do, as R277 lists it. A poll of `wait` is the read of STATUS it makes (R90). -/
inductive Stepped (s t : State) : Prop
  | reset (hn : s.nextTurn = .reset) (h : t = resetCore s.popTurn)
  | idle (hn : s.nextTurn = .sequencer) (hq : s.seq = .idle) (h : t = s.popTurn)
  | built (hn : s.nextTurn = .sequencer) (hq : s.seq = .building) (h : t = completeBuild s.popTurn)
  | illegal (w : Word) (hn : s.nextTurn = .sequencer) (hq : s.seq = .command w) (hd : decode w = none)
      (h : t = raiseFail s.popTurn .illegalCommand)
  | executed (w : Word) (i : Instr) (hn : s.nextTurn = .sequencer) (hq : s.seq = .command w)
      (hd : decode w = some i) (h : exec i s.popTurn = .next t)
  | noAccess (hn : s.nextTurn = .host) (ho : s.hostOps = []) (h : t = s.popTurn)
  | polled (addr : Addr) (ops : List HostOp) (hn : s.nextTurn = .host) (ho : ∀ a v rest, s.hostOps ≠ .write a v :: rest)
      (h : t = hostRead { s with turns := s.turns.tail, hostOps := ops } addr)
  | wrote (addr : Addr) (v : Word) (rest : List HostOp) (hn : s.nextTurn = .host)
      (ho : s.hostOps = .write addr v :: rest) (h : t = hostWrite { s with turns := s.turns.tail, hostOps := rest } addr v)

theorem Stepped.ofSequencer (hn : s.nextTurn = .sequencer) (h : step s = .next t) : Stepped s t := by
  rw [step_of_sequencer s hn] at h
  cases hq : s.seq with
  | idle =>
    rw [sequencerTurn_idle s.popTurn hq] at h
    cases h
    exact .idle hn hq rfl
  | building =>
    rw [sequencerTurn_building s.popTurn hq] at h
    cases h
    exact .built hn hq rfl
  | command w =>
    rw [sequencerTurn_command s.popTurn w hq] at h
    cases hd : decode w with
    | none =>
      rw [executeWord_none _ w hd] at h
      cases h
      exact .illegal w hn hq hd rfl
    | some i =>
      rw [executeWord_some _ w i hd] at h
      exact .executed w i hn hq hd h

theorem Stepped.ofHost (hn : s.nextTurn = .host) (h : step s = .next t) : Stepped s t := by
  rw [step_of_host s hn] at h
  cases h
  cases ho : s.hostOps with
  | nil => exact .noAccess hn ho (hostTurn_nil _ ho)
  | cons op rest =>
    cases op with
    | read addr => exact .polled addr rest hn (by simp [ho]) (hostTurn_read _ addr rest ho)
    | write addr v => exact .wrote addr v rest hn ho (hostTurn_write _ addr v rest ho)
    | wait =>
      cases hb : s.busy with
      | true => exact .polled _ s.hostOps hn (by simp [ho]) (hostTurn_wait_busy _ rest ho hb)
      | false => exact .polled _ rest hn (by simp [ho]) (hostTurn_wait_idle _ rest ho hb)

/-- Every step is one of the cases of `Stepped`. -/
theorem stepped_of_step (h : step s = .next t) : Stepped s t := by
  cases hn : s.nextTurn with
  | host => exact .ofHost hn h
  | sequencer => exact .ofSequencer hn h
  | reset =>
    rw [step_of_reset s hn] at h
    cases h
    exact .reset hn rfl

/-! ### What a completed command leaves unchanged -/

/-- No command changes READY, OVR, NSYM, ELEN, the tables or the host's side, whatever its result. -/
theorem Completion.keepsControl (h : Completion s t) : KeepsControl s t := by
  cases h <;> subst t <;> simp [KeepsControl]

theorem exec_keepsControl (i : Instr) (h : exec i s = .next t) : KeepsControl s t := by
  obtain ⟨t', he, hc⟩ := exec_completion s i
  cases he.symm.trans h
  exact hc.keepsControl

/-- A command that completes leaves the core idle with ERR = (code ≠ 0) (R230, R235). -/
theorem Completion.idle (h : Completion s t) : t.seq = .idle ∧ t.err = t.errcode.isSome := by
  cases h <;> subst t <;> exact ⟨rfl, rfl⟩

/-- Settles O23: `exec_completion` lists every way a command can end, and each leaves the core idle. -/
theorem everyCommandCompletes : Obligations.EveryCommandCompletes := by
  intro i s
  obtain ⟨t, he, hc⟩ := exec_completion s i
  obtain ⟨hq, herr⟩ := hc.idle
  exact ⟨t, he, (busy_eq_false_iff t).mpr hq, by simp [State.cmdq, hq], herr⟩

/-! ### Host accesses -/

theorem hostWrite_of_busy (addr : Addr) (v : Word) (hb : s.busy = true) :
    hostWrite s addr v = if (decodeAddr addr).overruns then { s with ovr := true } else s := by
  simp [hostWrite, hb]

theorem hostWrite_of_idle (addr : Addr) (v : Word) (hb : s.busy = false) :
    hostWrite s addr v = writeRegister s (decodeAddr addr) v := by
  simp [hostWrite, hb]

theorem isCellAddr_of_decodeAddr_epos {addr : Addr} {i : Nat} (hd : decodeAddr addr = .epos i) :
    isCellAddr (eposAddr i) := by
  have hcell := (decodeAddr_cell addr (eposAddr i)).mp (by rw [hd]; rfl)
  have hlt := addr.isLt
  simp only [eposAddr, isCellAddr] at *
  omega

theorem isCellAddr_of_decodeAddr_pcoef {addr : Addr} {k : PReg} {i : Nat} (hd : decodeAddr addr = .pcoef k i) :
    isCellAddr (pcoefAddr k i) := by
  have hcell := (decodeAddr_cell addr (pcoefAddr k i)).mp (by rw [hd]; rfl)
  have hlt := addr.isLt
  simp only [pcoefAddr, isCellAddr] at *
  omega

/-- Each effect that a host write can have on the state. -/
theorem hostWrite_induction {P : State → Prop} (s : State) (addr : Addr) (v : Word) (keep : P s)
    (overrun : s.busy = true → (decodeAddr addr).overruns = true → P { s with ovr := true })
    (cmd : s.busy = false → decodeAddr addr = .cmd → P (acceptCommand s v))
    (nsym : v.setWidth 8 ≠ 255#8 → P { s with nsym := v.setWidth 8 })
    (elen : P { s with elen := v.setWidth 8 })
    (g : ∀ k, P (s.writeG k (v.setWidth 8)))
    (plen : ∀ (k : PReg) (n : Nat), n ≤ Config.pmax → P { s with plen := s.plen.set k.val n })
    (cell : ∀ a, isCellAddr a → P (s.writeCell a (v.setWidth 8))) :
    P (hostWrite s addr v) := by
  cases hb : s.busy with
  | true =>
    rw [hostWrite_of_busy addr v hb]
    split
    · next ho => exact overrun hb ho
    · exact keep
  | false =>
    rw [hostWrite_of_idle addr v hb]
    cases hd : decodeAddr addr with
    | id | status | info | reserved | misaligned => exact keep
    | cmd => exact cmd hb hd
    | elen => exact elen
    | g k => exact g k
    | nsym =>
      simp only [writeRegister]
      split
      · exact keep
      · next h => exact nsym h
    | plen k =>
      simp only [writeRegister]
      split
      · exact keep
      · next h => exact plen k _ (by omega)
    | epos i => exact cell _ (isCellAddr_of_decodeAddr_epos hd)
    | pcoef k i => exact cell _ (isCellAddr_of_decodeAddr_pcoef hd)

@[simp] theorem hostWrite_ready (addr : Addr) (v : Word) : (hostWrite s addr v).ready = s.ready := by
  apply hostWrite_induction (P := fun t => t.ready = s.ready) <;> intros <;> rfl

@[simp] theorem hostWrite_tables (addr : Addr) (v : Word) : (hostWrite s addr v).tables = s.tables := by
  apply hostWrite_induction (P := fun t => t.tables = s.tables) <;> intros <;> rfl

/-! ### Cells and the invariant -/

/-- A write of a polynomial register stores at PCOEF addresses only (R27, R64). -/
theorem writePoly_mapped (d : PReg) (l : Poly) (hl : l.length ≤ 512) (h : ∀ p ∈ s.cells, isCellAddr p.1) :
    ∀ p ∈ (s.writePoly d l).cells, isCellAddr p.1 := by
  intro p hp
  rcases mem_writeList s.cells (pcoefAddr d 0) l hp with ⟨i, hi, ha⟩ | hp
  · simp only [isCellAddr, ha, pcoefAddr]
    omega
  · exact h p hp

/-- A write of a cell of the map lists no address outside the map. -/
theorem writeCell_mapped {a : Nat} (b : Byte) (ha : isCellAddr a) (h : ∀ p ∈ s.cells, isCellAddr p.1) :
    ∀ p ∈ (s.writeCell a b).cells, isCellAddr p.1 := by
  intro p hp
  rcases mem_write s.cells a b hp with rfl | hp
  · exact ha
  · exact h p hp

theorem State.Inv.popTurn (h : s.Inv) : s.popTurn.Inv := { h with }

theorem State.Inv.dequeue (h : s.Inv) (ops : List HostOp) : State.Inv { s with hostOps := ops } := { h with }

theorem State.Inv.hostRead (h : s.Inv) (addr : Addr) : (hostRead s addr).Inv := { h with }

theorem State.Inv.writeSz (h : s.Inv) (b : Bool) : (s.writeSz b).Inv := { h with }

theorem State.Inv.writeInfo (h : s.Inv) (a b : Nat) : (s.writeInfo a b).Inv := { h with }

theorem State.Inv.writeG (h : s.Inv) (d : GReg) (v : Byte) : (s.writeG d v).Inv :=
  { h with
    cells_written := fun p hp => (mem_markCell _ _ _).mpr (.inr (h.cells_written p hp))
    written_rising := markCell_rising _ _ h.written_rising }

theorem State.Inv.writeCell (h : s.Inv) {a : Nat} (ha : isCellAddr a) (b : Byte) : (s.writeCell a b).Inv :=
  { h with
    cells_canonical := write_wf _ _ _ h.cells_canonical
    cells_mapped := writeCell_mapped b ha h.cells_mapped
    cells_written := fun p hp => (mem_markCell _ _ _).mpr <|
      (mem_write _ _ _ hp).imp (fun e => congrArg Prod.fst e) (h.cells_written p)
    written_rising := markCell_rising _ _ h.written_rising }

theorem State.Inv.setPlen (h : s.Inv) (k : PReg) {n : Nat} (hn : n ≤ Config.pmax) :
    State.Inv { s with plen := s.plen.set k.val n } :=
  { h with
    plen_legal := fun j => by
      simp only [State.readPlen, Vector.getElem_set]
      split
      · exact hn
      · exact h.plen_legal j }

theorem State.Inv.writePoly (h : s.Inv) (d : PReg) (l : Poly) (hl : l.length ≤ 512) : (s.writePoly d l).Inv :=
  { h.setPlen d hl with
    cells_canonical := writeList_wf _ _ _ h.cells_canonical
    cells_mapped := writePoly_mapped d l hl h.cells_mapped
    cells_written := fun p hp => (mem_markCells _ _ _ _).mpr <| (mem_writeList _ _ _ hp).imp id (h.cells_written p)
    written_rising := markCells_rising _ _ _ h.written_rising }

/-- No command is held before READY is 1 (R103). -/
theorem State.Inv.ready_of_not_building (h : s.Inv) (hq : s.seq ≠ .building) : s.ready = true :=
  h.ready_built.trans (by simp [State.building, hq])

theorem State.Inv.succeed (h : s.Inv) (hr : s.ready = true) : (succeed s).Inv :=
  { h with err_code := rfl, ready_built := hr }

theorem State.Inv.raiseFail (h : s.Inv) (hr : s.ready = true) (c : Failure) : (raiseFail s c).Inv :=
  { h with err_code := rfl, ready_built := hr }

theorem State.Inv.acceptCommand (h : s.Inv) (hr : s.ready = true) (w : Word) : (acceptCommand s w).Inv :=
  { h with ready_built := hr }

theorem State.Inv.completeBuild (h : s.Inv) : (completeBuild s).Inv :=
  { h with
    ready_built := rfl
    log_length := by simpa [buildTables] using h.log_length
    tables_built := fun _ => buildTables_built _ h.log_length }

/-- Settles O9: field by field; no cell is listed, and the table build is running. -/
theorem resetMeetsInvariant : Obligations.ResetMeetsInvariant where
  cells_canonical := ⟨.nil, nofun⟩
  cells_mapped := nofun
  cells_written := nofun
  written_rising := .nil
  nsym_legal := by decide
  plen_legal := by decide
  err_code := rfl
  ready_built := rfl
  log_length := unbuilt_log_length
  tables_built := nofun

theorem State.Inv.resetCore (s : State) : (resetCore s).Inv :=
  have h : State.reset.Inv := resetMeetsInvariant
  { h with }

/-- A completed command keeps the invariant: each shape of `Completion` is a chain of writes that keep it. -/
theorem Completion.inv (hc : Completion s t) (h : s.Inv) (hr : s.ready = true) : t.Inv := by
  cases hc with
  | failed c ht => exact ht ▸ h.raiseFail hr c
  | scalar d v ht => exact ht ▸ (h.writeG d v).succeed hr
  | poly d l hl ht => exact ht ▸ (h.writePoly d l hl).succeed hr
  | polySz z d l hl ht => exact ht ▸ ((h.writeSz z).writePoly d l hl).succeed hr
  | polys d e l1 l2 hl1 hl2 ht => exact ht ▸ ((h.writePoly d l1 hl1).writePoly e l2 hl2).succeed hr
  | polysInfo z a b d e l1 l2 hl1 hl2 ht =>
    exact ht ▸ ((((h.writeSz z).writeInfo a b).writePoly d l1 hl1).writePoly e l2 hl2).succeed hr

theorem State.Inv.exec (h : s.Inv) (hr : s.ready = true) (i : Instr) (he : exec i s = .next t) : t.Inv := by
  obtain ⟨t', he', hc⟩ := exec_completion s i
  cases he'.symm.trans he
  exact hc.inv h hr

/-- A host write keeps the invariant: the WARL filters keep NSYM and PLEN legal (R24, R28). -/
theorem State.Inv.hostWrite (h : s.Inv) (addr : Addr) (v : Word) : (hostWrite s addr v).Inv := by
  apply hostWrite_induction (P := State.Inv)
  case keep => exact h
  case overrun => exact fun _ _ => { h with }
  case cmd =>
    intro hb _
    have hq : s.seq ≠ .building := by simp [(busy_eq_false_iff s).mp hb]
    exact h.acceptCommand (h.ready_of_not_building hq) v
  case nsym =>
    intro hv
    have hlt : (v.setWidth 8).toNat ≠ 255 := fun e => hv (BitVec.eq_of_toNat_eq e)
    exact { h with nsym_legal := by have := (v.setWidth 8).isLt; dsimp only; omega }
  case elen => exact { h with }
  case g => exact fun k => h.writeG k _
  case plen => exact fun k n hn => h.setPlen k hn
  case cell => exact fun a ha => h.writeCell ha _

/-- Settles O8: by the cases of a step; each is a chain of operations that keep the invariant. -/
theorem stepKeepsInvariant : Obligations.StepKeepsInvariant := by
  intro s t h hs
  have hp := h.popTurn
  have hready : ∀ w, s.seq = .command w → s.ready = true := fun w hq =>
    h.ready_of_not_building (by simp [hq])
  cases stepped_of_step hs with
  | reset _ ht => exact ht ▸ .resetCore _
  | idle _ _ ht => exact ht ▸ hp
  | built _ _ ht => exact ht ▸ hp.completeBuild
  | illegal w _ hq _ ht => exact ht ▸ hp.raiseFail (hready w hq) _
  | executed w i _ hq _ he => exact hp.exec (hready w hq) i he
  | noAccess _ _ ht => exact ht ▸ hp
  | polled addr ops _ _ ht => exact ht ▸ (hp.dequeue ops).hostRead addr
  | wrote addr v rest _ _ ht => exact ht ▸ (hp.dequeue rest).hostWrite addr v

/-- Settles O12: only a reset and the completion of the build touch READY or the tables, and the invariant shuts out a build
that runs while READY = 1. -/
theorem tablesStayBuilt : Obligations.TablesStayBuilt := by
  intro s t h hr hn hs
  cases stepped_of_step hs with
  | reset hn' _ => exact absurd hn' hn
  | built _ hq _ => exact absurd h.ready_built (by simp [hr, State.building, hq])
  | executed w i _ _ _ he =>
    obtain ⟨hready, -, -, -, htables, -⟩ := exec_keepsControl i he
    exact ⟨hready.trans hr, htables⟩
  | wrote addr v rest _ _ ht => subst ht; simpa using hr
  | idle _ _ ht | illegal _ _ _ _ ht | noAccess _ _ ht | polled _ _ _ _ ht => subst ht; exact ⟨hr, rfl⟩

end Sys2Proof.Machine
end

section
/-! SUPPORT. The status words, the reset values, what a polynomial write does, and the addresses of the map (spec/10_state.md
R22-R35; spec/20_memory.md R64; spec/70_reset_and_hazards.md R272-R274). -/

namespace Sys2Proof.Machine
open Sys2Proof.Spec
variable {s t : State}

/-! ### STATUS and INFO -/

/-- The bits of a flag at position k. -/
theorem flagBit_eq (b : Bool) (k : Nat) : flagBit b k = b.toNat * 2 ^ k := by cases b <;> simp [flagBit]

/-- Bit i of a number whose bits it is made of. -/
theorem getLsbD_ofNat_eq {n i : Nat} {b : Bool} (hi : i < 32) (h : n / 2 ^ i % 2 = b.toNat) :
    (BitVec.ofNat 32 n).getLsbD i = b := by
  rw [BitVec.getLsbD_ofNat, Nat.testBit_eq_decide_div_mod_eq, h]
  cases b <;> simp [hi]

/-- A field of a number whose fields it is made of. -/
theorem extractLsb'_ofNat_eq {n lo len : Nat} {v : BitVec len} (hn : n < 2 ^ 32) (h : n / 2 ^ lo % 2 ^ len = v.toNat) :
    (BitVec.ofNat 32 n).extractLsb' lo len = v := by
  apply BitVec.eq_of_toNat_eq
  rw [BitVec.extractLsb'_toNat, BitVec.toNat_ofNat, Nat.mod_eq_of_lt hn, Nat.shiftRight_eq_div_pow, h]

/-- Settles O22: the two words are sums of fields that do not overlap, and each view reads its field back. -/
theorem statusAndInfoLayout : Obligations.StatusAndInfoLayout := by
  refine ⟨fun s => ?_, fun s => ?_, rfl, rfl, rfl⟩
  · have h0 := s.ready.toNat_lt
    have h1 := s.busy.toNat_lt
    have h2 := s.err.toNat_lt
    have h3 := s.ovr.toNat_lt
    have h4 := s.sz.toNat_lt
    have hc := (errcodeByte s.errcode).isLt
    have z3 : (0#3).toNat = 0 := rfl
    have z16 : (0#16).toNat = 0 := rfl
    simp only [statusWord, flagBit_eq]
    refine ⟨getLsbD_ofNat_eq ?_ ?_, getLsbD_ofNat_eq ?_ ?_, getLsbD_ofNat_eq ?_ ?_, getLsbD_ofNat_eq ?_ ?_,
      getLsbD_ofNat_eq ?_ ?_, extractLsb'_ofNat_eq ?_ ?_, extractLsb'_ofNat_eq ?_ ?_, extractLsb'_ofNat_eq ?_ ?_⟩ <;>
    omega
  · have ha := s.nerrata.isLt
    have hb := s.nerr.isLt
    have z16 : (0#16).toNat = 0 := rfl
    simp only [infoWord]
    refine ⟨extractLsb'_ofNat_eq ?_ ?_, extractLsb'_ofNat_eq ?_ ?_, extractLsb'_ofNat_eq ?_ ?_⟩ <;>
    omega

/-- Settles O10: the fields of `State.reset`, and the step of a reset turn. -/
theorem resetValues : Obligations.ResetValues :=
  ⟨rfl, rfl, rfl, rfl, rfl, rfl, rfl, rfl, rfl, rfl, rfl, by decide, rfl, rfl, fun s hn => step_of_reset s hn⟩

/-! ### Writing a polynomial register -/

/-- A cell of the list that a polynomial write stores (R27). -/
theorem read_writePoly_of_lt (d : PReg) (l : Poly) (hm : s.cells.wf) (i : Nat) (hi : i < l.length) :
    (s.writePoly d l).cells.read (pcoefAddr d i) = l[i] := by
  simpa [pcoefAddr] using read_writeList s.cells (pcoefAddr d 0) l hm i hi

/-- A polynomial write leaves every cell outside its list as it was (R27). -/
theorem read_writePoly_of_ne (d : PReg) (l : Poly) {a : Nat} (h : ∀ j < l.length, a ≠ pcoefAddr d j) :
    (s.writePoly d l).cells.read a = s.cells.read a :=
  read_writeList_of_ne s.cells (pcoefAddr d 0) a l fun j hj e => h j hj (by simpa [pcoefAddr] using e.symm)

/-- Settles O28: a list of at most 512 entries is stored by `writePoly`, whose effect is known cell by cell. -/
theorem polynomialWriteEffect : Obligations.PolynomialWriteEffect := by
  intro s k l h
  have hm := h.cells_canonical
  refine ⟨storePoly_long s k l, fun hl => ⟨_, storePoly_ok s k l hl, by simp, poly_writePoly_self s k l hm,
    fun i hi => read_writePoly_of_lt k l hm i hi, fun i hli hi => ?_, fun k' hk' => ?_⟩⟩
  · exact read_writePoly_of_ne k l fun j hj => by simp only [pcoefAddr]; omega
  · exact poly_writePoly_of_ne s l hk'.symm hl (h.plen_legal k')

/-! ### Addresses and the targets they name -/

/-- The host address of a target, where the map gives it one (R64). -/
def Target.addr : Target → Option Nat
  | .id => some 0x0000
  | .status => some 0x0004
  | .cmd => some 0x0008
  | .nsym => some 0x000C
  | .info => some 0x0010
  | .elen => some 0x0014
  | .g k => some (gAddr k)
  | .plen k => some (plenAddr k)
  | .epos i => some (eposAddr i)
  | .pcoef k i => some (pcoefAddr k i)
  | .reserved | .misaligned => none

/-- An address names the target that has this address, and no other. -/
theorem addr_decodeAddr (addr : Addr) (a : Nat) (h : (decodeAddr addr).addr = some a) : addr.toNat = a := by
  revert h
  have hlt := addr.isLt
  unfold decodeAddr
  dsimp only
  generalize addr.toNat = n at *
  repeat' apply ite_elim (P := fun t => Target.addr t = some a → n = a) <;> intro
  all_goals simp only [Target.addr, gAddr, plenAddr, eposAddr, pcoefAddr, Option.some.injEq, Fin.ofNat, reduceCtorEq,
    false_imp_iff]
  all_goals omega

/-- Two addresses that name one register of the map are the same address. -/
theorem decodeAddr_inj {x y : Addr} (hx : ((decodeAddr x).addr).isSome) (h : decodeAddr x = decodeAddr y) : x = y := by
  obtain ⟨a, ha⟩ := Option.isSome_iff_exists.mp hx
  exact BitVec.eq_of_toNat_eq ((addr_decodeAddr x a ha).trans (addr_decodeAddr y a (h ▸ ha)).symm)

/-- The addresses at which a dropped write sets OVR (R272). -/
theorem decodeAddr_overruns (addr : Addr) : (decodeAddr addr).overruns = true ↔ isWritable addr.toNat := by
  have hlt := addr.isLt
  unfold decodeAddr isWritable
  dsimp only
  generalize addr.toNat = n at *
  repeat' apply ite_elim (P := fun t => Target.overruns t = true ↔ _) <;> intro
  all_goals
    simp only [Target.overruns, Bool.false_eq_true, false_iff, true_iff]
    omega

/-- Only the address of CMD names CMD (R64). -/
theorem decodeAddr_eq_cmd {addr : Addr} (h : decodeAddr addr = .cmd) : addr = 0x0008#16 :=
  decodeAddr_inj (by rw [h]; rfl) h

/-! ### What a host write does to OVR -/

theorem hostWrite_ovr (addr : Addr) (v : Word) : (hostWrite s addr v).ovr = s.ovr ∨
    (s.busy = true ∧ isWritable addr.toNat ∧ (hostWrite s addr v).ovr = true) ∨
      (s.busy = false ∧ addr = 0x0008#16 ∧ (hostWrite s addr v).ovr = false) := by
  apply hostWrite_induction (P := fun t => t.ovr = s.ovr ∨ (s.busy = true ∧ isWritable addr.toNat ∧ t.ovr = true) ∨
    (s.busy = false ∧ addr = 0x0008#16 ∧ t.ovr = false))
  case overrun => exact fun hb ho => .inr (.inl ⟨hb, (decodeAddr_overruns addr).mp ho, rfl⟩)
  case cmd => exact fun hb hd => .inr (.inr ⟨hb, decodeAddr_eq_cmd hd, rfl⟩)
  case keep | elen => exact .inl rfl
  case nsym | g => exact fun _ => .inl rfl
  case plen => exact fun _ _ _ => .inl rfl
  case cell => exact fun _ _ => .inl rfl

/-- Settles O21: of the cases of a step only a reset and a host write change OVR. -/
theorem overrunFlagEvents : Obligations.OverrunFlagEvents := by
  intro s t hs
  by_cases same : t.ovr = s.ovr
  · rw [same]
    exact ⟨fun h0 h1 => absurd h1 (by simp [h0]), fun h1 h0 => absurd h0 (by simp [h1])⟩
  cases stepped_of_step hs with
  | reset hn ht => subst ht; exact ⟨nofun, fun _ _ => .inl hn⟩
  | executed w i _ _ _ he => exact absurd (exec_keepsControl i he).2.1 same
  | idle _ _ ht | built _ _ ht | illegal _ _ _ _ ht | noAccess _ _ ht | polled _ _ _ _ ht =>
    exact absurd (by rw [ht]; rfl) same
  | wrote addr v rest hn ho ht =>
    subst ht
    rcases hostWrite_ovr addr v with h | ⟨hb, hw, h⟩ | ⟨hb, rfl, h⟩
    · exact absurd h same
    · exact ⟨fun _ _ => ⟨hn, hb, addr, v, rest, ho, hw⟩, fun _ h0 => absurd h0 (by simp [h])⟩
    · exact ⟨fun _ h1 => absurd h1 (by simp [h]), fun _ _ => .inr ⟨hn, hb, v, rest, ho⟩⟩

end Sys2Proof.Machine
end

section
/-! SUPPORT. A host read after a host write (spec/20_memory.md R64-R70). -/

namespace Sys2Proof.Machine
open Sys2Proof.Spec
variable {s t : State}

/-! ### What a host read returns -/

/-- The word a host read of an address returns is `readWord` of the target it names. -/
theorem readAt_eq (addr : Addr) : readAt s addr = readWord s (decodeAddr addr) := rfl

theorem readAt_of_idle (hb : s.busy = false) (addr : Addr) : readAt s addr = registerWord s (decodeAddr addr) := by
  simp [readAt_eq, readWord, readsUnspecified, hb]

theorem setWidth_setWidth_eq_and (v : Word) (n : Nat) (hn : n ≤ 32) :
    (v.setWidth n).setWidth 32 = v &&& BitVec.ofNat 32 (2 ^ n - 1) := by
  apply BitVec.eq_of_toNat_eq
  have hp : 2 ^ n ≤ 2 ^ 32 := Nat.pow_le_pow_right (by decide) hn
  have hv : v.toNat % 2 ^ n ≤ v.toNat := Nat.mod_le _ _
  have hlt := v.isLt
  rw [BitVec.toNat_and, BitVec.toNat_ofNat, Nat.mod_eq_of_lt (a := 2 ^ n - 1) (by omega), Nat.and_two_pow_sub_one_eq_mod,
    BitVec.toNat_setWidth, BitVec.toNat_setWidth, Nat.mod_eq_of_lt (by omega)]

/-! ### Which addresses are 8-bit cells and lengths -/

/-- The 8-bit read-write registers (R64). -/
def Target.byteCell : Target → Bool
  | .elen | .g _ | .epos _ | .pcoef _ _ => true
  | .id | .status | .cmd | .nsym | .info | .plen _ | .reserved | .misaligned => false

theorem decodeAddr_byteCell (addr : Addr) : (decodeAddr addr).byteCell = true ↔ isByteCell addr.toNat := by
  have hlt := addr.isLt
  unfold decodeAddr isByteCell
  dsimp only
  generalize addr.toNat = n at *
  repeat' apply ite_elim (P := fun t => Target.byteCell t = true ↔ _) <;> intro
  all_goals
    simp only [Target.byteCell, Bool.false_eq_true, false_iff, true_iff]
    omega

theorem decodeAddr_plen {addr : Addr} (h4 : addr.toNat % 4 = 0) (hlo : 0x0080 ≤ addr.toNat) (hhi : addr.toNat < 0x00C0) :
    ∃ k, decodeAddr addr = .plen k :=
  ⟨Fin.ofNat 16 ((addr.toNat - 0x0080) / 4), by simp (disch := omega) only [decodeAddr, if_neg, if_pos]⟩

/-! ### A read after a write (R70) -/

/-- A target that no write reaches but CMD and the read-write registers. -/
theorem writeRegister_of_not_overruns {x : Target} (h : x.overruns = false) (v : Word) : writeRegister s x v = s := by
  cases x
  case id | status | info | reserved | misaligned => rfl
  all_goals exact nomatch h

theorem writeRegister_busy {x : Target} (h : x ≠ .cmd) (v : Word) : (writeRegister s x v).busy = s.busy := by
  cases x
  case cmd => exact absurd rfl h
  case nsym | plen => simp only [writeRegister]; split <;> rfl
  all_goals rfl

theorem registerWord_writeRegister_byteCell {x : Target} (hm : s.cells.wf) (h : x.byteCell = true) (v : Word) :
    registerWord (writeRegister s x v) x = (v.setWidth 8).setWidth 32 := by
  cases x
  case elen => rfl
  case g k => simp [registerWord, writeRegister]
  case epos i | pcoef k i => simp [registerWord, writeRegister, read_write_self _ _ _ hm]
  all_goals exact nomatch h

theorem registerWord_writeRegister_nsym (v : Word) : registerWord (writeRegister s .nsym v) .nsym =
    if v.setWidth 8 = 255#8 then registerWord s .nsym else (v.setWidth 8).setWidth 32 := by
  simp only [writeRegister]
  split <;> rfl

theorem registerWord_writeRegister_plen (k : PReg) (v : Word) : registerWord (writeRegister s (.plen k) v) (.plen k) =
    if 512 < (v.setWidth 10).toNat then registerWord s (.plen k) else (v.setWidth 10).setWidth 32 := by
  simp only [writeRegister]
  split
  · rfl
  · simp only [registerWord, State.readPlen, Vector.getElem_set_self, BitVec.ofNat_toNat]

theorem registerWord_writeCell {y : Target} {a : Nat} (h : y.addr ≠ some a) (b : Byte) :
    registerWord (s.writeCell a b) y = registerWord s y := by
  cases y
  case epos i | pcoef k i =>
    have hne := fun e => h (congrArg some e)
    simp [registerWord, read_write_of_ne _ _ _ _ (Ne.symm hne)]
  all_goals rfl

/-- No write but one to CMD changes the word of a register at another address. -/
theorem registerWord_writeRegister {x y : Target} (hx : x ≠ .cmd) (h : ∀ a, x.addr = some a → y.addr ≠ some a)
    (v : Word) : registerWord (writeRegister s x v) y = registerWord s y := by
  cases x with
  | id | status | info | reserved | misaligned => rfl
  | cmd => exact absurd rfl hx
  | epos i => exact registerWord_writeCell (h _ rfl) _
  | pcoef k i => exact registerWord_writeCell (h _ rfl) _
  | nsym =>
    simp only [writeRegister]
    split
    · rfl
    · cases y
      case nsym => exact absurd rfl (h _ rfl)
      all_goals rfl
  | elen =>
    cases y
    case elen => exact absurd rfl (h _ rfl)
    all_goals rfl
  | g k =>
    cases y
    case g j =>
      have hne : k ≠ j := fun e => h _ rfl (congrArg (fun k => some (gAddr k)) e.symm)
      simp [registerWord, writeRegister, hne]
    all_goals rfl
  | plen k =>
    simp only [writeRegister]
    split
    · rfl
    · cases y
      case plen j =>
        have hne : k.val ≠ j.val := fun e => h _ rfl (congrArg (fun k => some (plenAddr k)) (Fin.ext e.symm))
        simp [registerWord, State.readPlen, hne]
      all_goals rfl

/-- While BUSY = 0 a read after a write to another address than CMD sees the register as the write left it. -/
theorem readAt_hostWrite (hb : s.busy = false) {addr : Addr} (hc : addr ≠ 0x0008#16) (v : Word) (other : Addr) :
    readAt (hostWrite s addr v) other = registerWord (writeRegister s (decodeAddr addr) v) (decodeAddr other) := by
  have hx : decodeAddr addr ≠ .cmd := fun e => hc (decodeAddr_eq_cmd e)
  rw [hostWrite_of_idle addr v hb, readAt_of_idle ((writeRegister_busy hx v).trans hb)]

/-- Settles O16: one clause for each WARL filter, one for the targets that ignore writes, and the frame of a write. -/
theorem hostWriteThenRead : Obligations.HostWriteThenRead := by
  intro s addr v hinv hb hc
  have hx : decodeAddr addr ≠ .cmd := fun e => hc (decodeAddr_eq_cmd e)
  have hbyte : (v.setWidth 8).setWidth 32 = v &&& 0xFF#32 := setWidth_setWidth_eq_and v 8 (by decide)
  have hlen : (v.setWidth 10).setWidth 32 = v &&& 0x3FF#32 := setWidth_setWidth_eq_and v 10 (by decide)
  refine ⟨fun h => ?_, fun h => ?_, fun h4 hlo hhi => ?_, fun h => ?_, fun other ho => ?_⟩
  · rw [readAt_hostWrite hb hc, registerWord_writeRegister_byteCell hinv.cells_canonical ((decodeAddr_byteCell addr).mpr h),
      hbyte]
  · subst h
    have hd : decodeAddr 0x000C#16 = .nsym := rfl
    have hff : v.setWidth 8 = 255#8 ↔ v &&& 0xFF#32 = 0xFF#32 := by
      rw [← hbyte]
      exact ⟨fun e => by rw [e]; rfl, fun e => by bv_omega⟩
    rw [readAt_hostWrite hb hc, readAt_of_idle hb, hd, registerWord_writeRegister_nsym, hbyte]
    simp only [hff]
  · obtain ⟨k, hd⟩ := decodeAddr_plen h4 hlo hhi
    have hbig : (v.setWidth 10).toNat = (v &&& 0x3FF#32).toNat := by
      rw [← hlen]
      bv_omega
    rw [readAt_hostWrite hb hc, readAt_of_idle hb, hd, registerWord_writeRegister_plen, hlen, hbig]
  · rw [hostWrite_of_idle addr v hb]
    exact writeRegister_of_not_overruns (Bool.eq_false_iff.mpr (mt (decodeAddr_overruns addr).mp h)) v
  · rw [readAt_hostWrite hb hc, readAt_of_idle hb]
    refine registerWord_writeRegister hx (fun a ha ha' => ho ?_) v
    exact BitVec.eq_of_toNat_eq ((addr_decodeAddr other a ha').trans (addr_decodeAddr addr a ha).symm)

end Sys2Proof.Machine
end

section
/-! SUPPORT. What each command writes, its destinations named (spec/30_encoding.md R85; spec/60_exceptions.md R233-R235). -/

namespace Sys2Proof.Machine
open Sys2Proof.Spec
variable {s t : State}

/-! ### The destinations a command writes -/

theorem writeSz_self (s : State) : s.writeSz s.sz = s := rfl

theorem writeInfo_self (s : State) : s.writeInfo s.nerrata.toNat s.nerr.toNat = s := by
  simp [State.writeInfo]

@[simp] theorem writeSz_readPlen (b : Bool) (k : PReg) : (s.writeSz b).readPlen k = s.readPlen k := rfl
@[simp] theorem writeInfo_readPlen (a b : Nat) (k : PReg) : (s.writeInfo a b).readPlen k = s.readPlen k := rfl

/-- What command i can do, its destinations named: it fails; it writes its scalar destination; or it writes its polynomial
destinations, and of SZ and INFO what it may. `Completion` gives the same shapes without the command (R85, R233, R235). -/
inductive CommandResult (i : Instr) (s t : State) : Prop
  | failed (c : Failure) (h : t = raiseFail s c)
  | scalar (d : GReg) (v : Byte) (hd : scalarDest i = some d) (hp : polyDests i = []) (h : t = succeed (s.writeG d v))
  | poly (z : Bool) (d : PReg) (l : Poly) (hg : scalarDest i = none) (hd : polyDests i = [d]) (hl : l.length ≤ 512)
      (hz : writesSz i = false → z = s.sz) (h : t = succeed ((s.writeSz z).writePoly d l))
  | polys (z : Bool) (a b : Nat) (d e : PReg) (l1 l2 : Poly) (hg : scalarDest i = none) (hd : polyDests i = [d, e])
      (hne : d ≠ e) (hl1 : l1.length ≤ 512) (hl2 : l2.length ≤ 512) (hz : writesSz i = false → z = s.sz)
      (hi : writesInfo i = false → s.writeInfo a b = s)
      (h : t = succeed ((((s.writeSz z).writeInfo a b).writePoly d l1).writePoly e l2))

theorem CommandResult.ofG {i : Instr} {d : GReg} {r : Except Failure Byte} (hd : scalarDest i = some d)
    (hp : polyDests i = []) (h : completeG s d r = .next t) : CommandResult i s t := by
  rcases completeG_cases s d r with ⟨v, -, h'⟩ | ⟨c, -, h'⟩ <;> cases h'.symm.trans h
  · exact .scalar d v hd hp rfl
  · exact .failed c rfl

theorem CommandResult.ofP {i : Instr} {d : PReg} {r : Except Failure Poly} (hg : scalarDest i = none)
    (hd : polyDests i = [d]) (h : completeP s d r = .next t) : CommandResult i s t := by
  rcases completeP_cases s d r with ⟨l, -, hl, h'⟩ | ⟨c, h'⟩ <;> cases h'.symm.trans h
  · exact .poly s.sz d l hg hd hl (fun _ => rfl) rfl
  · exact .failed c rfl

theorem CommandResult.ofPdivmod {q r a b : PReg} (h : execPdivmod q r a b s = .next t) :
    CommandResult (.pdivmod q r a b) s t := by
  by_cases hqr : q = r
  · rw [execPdivmod, if_pos hqr] at h
    cases h
    exact .failed _ rfl
  · rcases completePP_cases s q r (if q = r then .error .operandConflict else pdivmod s.tables (s.poly a) (s.poly b))
      with ⟨l1, l2, -, hl1, hl2, h'⟩ | ⟨c, h'⟩ <;> cases h'.symm.trans h
    · exact .polys s.sz s.nerrata.toNat s.nerr.toNat q r l1 l2 rfl rfl hqr hl1 hl2 (fun _ => rfl)
        (fun _ => writeInfo_self s) (by rw [writeSz_self, writeInfo_self])
    · exact .failed c rfl

theorem CommandResult.ofSynd {d c : PReg} (h : execSynd d c s = .next t) : CommandResult (.synd d c) s t := by
  rcases execSynd_cases s d c with ⟨l, -, hl, h'⟩ | ⟨f, h'⟩ <;> cases h'.symm.trans h
  · exact .poly (allZero l) d l rfl rfl hl nofun rfl
  · exact .failed f rfl

theorem CommandResult.ofDecode {d e c : PReg} (h : execDecode d e c s = .next t) : CommandResult (.decode d e c) s t := by
  rcases execDecode_cases s d e c with ⟨r, hde, -, hl1, hl2, h'⟩ | ⟨f, h'⟩ <;> cases h'.symm.trans h
  · exact .polys r.clean r.nerrata r.nerr d e _ _ rfl rfl hde ((List.length_take_le _ _).trans hl1) hl2 nofun nofun rfl
  · exact .failed f rfl

/-- Every command's completion is one of the cases of `CommandResult`. -/
theorem commandResult_of_exec (i : Instr) (h : exec i s = .next t) : CommandResult i s t := by
  cases i with
  | gadd d x y => exact .ofG (r := .ok (s.readG x ^^^ s.readG y)) rfl rfl h
  | gmul d x y => exact .ofG (r := .ok (gmul s.tables (s.readG x) (s.readG y))) rfl rfl h
  | gmulnt d x y => exact .ofG (r := .ok (gmulNolut (s.readG x) (s.readG y))) rfl rfl h
  | gdiv | gpow | ginv | logr | expr | peval => exact .ofG rfl rfl h
  | padd | pscale | pmul | fsynd | eloc | chien | ploc | eeval | fmag | corr | genpoly | encode => exact .ofP rfl rfl h
  | pdivmod => exact .ofPdivmod h
  | synd => exact .ofSynd h
  | decode => exact .ofDecode h

/-! ### Frames of the commands with polynomial destinations -/

/-- INFO as a write of both its fields. -/
theorem keepsInfo_of_writeInfo_eq {a b : Nat} (h : s.writeInfo a b = s) : KeepsInfo s (s.writeInfo a b) := by
  rw [h]; exact ⟨rfl, rfl⟩

/-- Settles O27: by the cases of `CommandResult`; a scalar destination is shut out. -/
theorem polynomialDestinationFrame : Obligations.PolynomialDestinationFrame := by
  intro i s t hg he
  have hctl := exec_keepsControl i he
  cases commandResult_of_exec i he with
  | failed c ht =>
    subst ht
    exact ⟨fun _ => rfl, fun _ _ => rfl, fun _ _ => rfl, fun _ => ⟨fun _ => rfl, fun _ => rfl⟩, hctl, fun _ => rfl,
      fun _ => ⟨rfl, rfl⟩⟩
  | scalar d v hd => simp [hg] at hd
  | poly z d l _ hd hl hz ht =>
    subst ht
    refine ⟨fun _ => rfl, fun k hk => ?_, fun a ha => ?_, nofun, hctl, hz, fun _ => ⟨rfl, rfl⟩⟩
    · have hdk : d ≠ k := by simpa [hd, eq_comm] using hk
      simp [hdk]
    · exact read_writePoly_of_ne d l fun j hj => ha d (by simp [hd]) j (by simpa using hj)
  | polys z a b d e l1 l2 _ hd hne hl1 hl2 hz hi ht =>
    subst ht
    refine ⟨fun _ => rfl, fun k hk => ?_, fun a ha => ?_, nofun, hctl, hz, fun h => keepsInfo_of_writeInfo_eq (hi h)⟩
    · obtain ⟨hdk, hek⟩ : k ≠ d ∧ k ≠ e := by simpa [hd] using hk
      simp [hdk.symm, hek.symm]
    · rw [succeed_cells, read_writePoly_of_ne e l2 fun j hj => ha e (by simp [hd]) j (by simpa using hj),
        read_writePoly_of_ne d l1 fun j hj => ha d (by simp [hd]) j (by simpa [hne.symm] using hj)]
      rfl

end Sys2Proof.Machine
end

section
/-! SUPPORT. Which cells a step reads and records, and when the checked step faults (spec/10_state.md R36; spec/60_exceptions.md
R239; spec/70_reset_and_hazards.md R271). -/

namespace Sys2Proof.Machine
open Sys2Proof.Spec
variable {s t : State}

/-! ### Cells: the addresses of R64 -/

/-- The addresses of the cells with no reset value, as the map writes them (R36, R64). -/
theorem decodeAddr_cell_iff_byteCell (addr : Addr) (a : Nat) : (decodeAddr addr).cell = some a ↔
    isByteCell addr.toNat ∧ addr ≠ 0x0014#16 ∧ a = addr.toNat := by
  have h14 : addr = 0x0014#16 ↔ addr.toNat = 0x0014 := ⟨fun e => by rw [e]; rfl, fun e => BitVec.eq_of_toNat_eq e⟩
  rw [decodeAddr_cell, Ne, h14, isByteCell]
  omega

theorem decodeAddr_commandOwned_iff (addr : Addr) :
    (decodeAddr addr).commandOwned = true ↔ isCommandOwned addr.toNat := by
  rw [decodeAddr_commandOwned, isCommandOwned]
  omega

/-! ### The cells a step reads -/

theorem mem_polyCells (k : PReg) (a : Nat) : a ∈ polyCells s k ↔ ∃ j < s.readPlen k, a = pcoefAddr k j := by
  simp [polyCells, eq_comm]

theorem mem_eraCells (a : Nat) : a ∈ eraCells s ↔ ∃ j < s.nu, a = eposAddr j := by
  simp [eraCells, eq_comm]

/-- The operand cells of a command, by the kinds of its sources. -/
theorem operandCells_eq (i : Instr) : operandCells i s = (polySources i).flatMap (polyCells s) ++
    (scalarSources i).map gAddr ++ if readsErasures i then eraCells s else [] := by
  cases i <;> simp [operandCells, polySources, scalarSources, readsErasures]

theorem mem_operandCells (i : Instr) (a : Nat) : a ∈ operandCells i s ↔ isSourceCell i s a := by
  rw [operandCells_eq, isSourceCell]
  have hera : (a ∈ if readsErasures i then eraCells s else []) ↔
      readsErasures i = true ∧ ∃ j < s.elen.toNat, a = 0x0400 + 4 * j := by
    split <;> simp [*, mem_eraCells, State.nu, eposAddr]
  simp only [List.mem_append, hera, List.mem_flatMap, List.mem_map, mem_polyCells, pcoefAddr, gAddr, eq_comm (a := a)]
  rw [or_assoc, or_left_comm]

theorem cellsRead_of_command {w : Word} {i : Instr} (hn : s.nextTurn = .sequencer) (hq : s.seq = .command w)
    (hd : decode w = some i) : cellsRead s = operandCells i s := by
  simp [cellsRead, hn, hq, hd]

theorem cellsRead_of_read {addr : Addr} {rest : List HostOp} (hn : s.nextTurn = .host) (hb : s.busy = false)
    (ho : s.hostOps = .read addr :: rest) : cellsRead s = (decodeAddr addr).cell.toList := by
  simp [cellsRead, hn, hb, ho]

/-- A step that reads a cell executes a command, or is the host's read of that cell. -/
theorem exists_of_mem_cellsRead {a : Nat} (h : a ∈ cellsRead s) :
    (∃ w i, s.nextTurn = .sequencer ∧ s.seq = .command w ∧ decode w = some i ∧ a ∈ operandCells i s) ∨
      ∃ addr rest, s.nextTurn = .host ∧ s.busy = false ∧ s.hostOps = .read addr :: rest ∧
        (decodeAddr addr).cell = some a := by
  unfold cellsRead at h
  split at h
  · exact nomatch h
  · next hn =>
    split at h
    · next addr rest ho =>
      split at h
      · exact nomatch h
      · next hb => exact .inr ⟨addr, rest, hn, by simpa using hb, ho, by simpa using h⟩
    all_goals exact nomatch h
  · next hn =>
    split at h
    · exact nomatch h
    · exact nomatch h
    · next w hq =>
      split at h
      · next i hd => exact .inl ⟨w, i, hn, hq, hd, h⟩
      · exact nomatch h

theorem mem_cellsRead (a : Nat) : a ∈ cellsRead s ↔
    (∃ w i, s.nextTurn = .sequencer ∧ s.seq = .command w ∧ decode w = some i ∧ isSourceCell i s a) ∨
      ∃ addr rest, s.nextTurn = .host ∧ s.busy = false ∧ s.hostOps = .read addr :: rest ∧ isByteCell addr.toNat ∧
        addr ≠ 0x0014#16 ∧ a = addr.toNat := by
  simp only [← mem_operandCells, ← decodeAddr_cell_iff_byteCell]
  refine ⟨exists_of_mem_cellsRead, ?_⟩
  rintro (⟨w, i, hn, hq, hd, h⟩ | ⟨addr, rest, hn, hb, ho, h⟩)
  · rwa [cellsRead_of_command hn hq hd]
  · rw [cellsRead_of_read hn hb ho, h]
    exact List.mem_singleton_self a

/-! ### The record of written cells after a step -/

/-- A command that succeeds adds its destination cells to the record, and one that fails adds none. -/
theorem CommandResult.mem_written {i : Instr} (h : CommandResult i s t) (a : Nat) :
    a ∈ t.written ↔ a ∈ s.written ∨ (t.err = false ∧ isDestinationCell i t a) := by
  cases h with
  | failed c ht => simp [ht]
  | scalar d v hd hp ht =>
    subst ht
    simp [isDestinationCell, hd, hp, gAddr, or_comm]
  | poly z d l hg hd hl hz ht =>
    subst ht
    simp [isDestinationCell, hg, hd, mem_markCells, pcoefAddr, or_comm]
  | polys z x y d e l1 l2 hg hd hne hl1 hl2 hz hi ht =>
    subst ht
    simp [isDestinationCell, hg, hd, hne.symm, mem_markCells, pcoefAddr, or_comm, or_assoc]

theorem writesCell_of_executed {w : Word} {i : Instr} (hn : s.nextTurn = .sequencer) (hq : s.seq = .command w)
    (hd : decode w = some i) (a : Nat) : writesCell s t a ↔ t.err = false ∧ isDestinationCell i t a := by
  simp [writesCell, hn, hq, hd]

theorem writesCell_of_wrote {addr : Addr} {v : Word} {rest : List HostOp} (hn : s.nextTurn = .host)
    (ho : s.hostOps = .write addr v :: rest) (a : Nat) :
    writesCell s t a ↔ s.busy = false ∧ (decodeAddr addr).cell = some a := by
  simp [writesCell, hn, ho, decodeAddr_cell_iff_byteCell]

theorem mem_written_hostWrite_iff (addr : Addr) (v : Word) (a : Nat) : a ∈ (hostWrite s addr v).written ↔
    a ∈ s.written ∨ (s.busy = false ∧ (decodeAddr addr).cell = some a) := by
  cases hb : s.busy with
  | false => simp [mem_written_hostWrite s addr v a hb, or_comm]
  | true =>
    rw [hostWrite_of_busy addr v hb]
    split <;> simp

/-- What a step adds to the record of written cells, and that a reset empties it (R36). -/
theorem mem_written_step (hs : step s = .next t) (a : Nat) :
    a ∈ t.written ↔ s.nextTurn ≠ .reset ∧ (a ∈ s.written ∨ writesCell s t a) := by
  have keep : ∀ {p : Prop}, s.nextTurn ≠ .reset → (p ↔ s.nextTurn ≠ .reset ∧ p) :=
    fun hn => (and_iff_right hn).symm
  cases stepped_of_step hs with
  | reset hn ht => subst ht; simp [hn, resetCore, State.reset]
  | executed w i hn hq hd he =>
    rw [(commandResult_of_exec i he).mem_written, writesCell_of_executed hn hq hd]
    exact keep (by simp [hn])
  | wrote addr v rest hn ho ht =>
    subst ht
    rw [mem_written_hostWrite_iff, writesCell_of_wrote hn ho]
    exact keep (by simp [hn])
  | idle hn hq ht | built hn hq ht => subst ht; simp [hn, hq, writesCell]
  | illegal w hn hq hd ht => subst ht; simp [hn, hq, writesCell]
  | noAccess hn ho ht => subst ht; simp [hn, ho, writesCell]
  | polled addr ops hn ho ht => subst ht; simp [hn, ho, writesCell, hostRead]

/-! ### The checked step -/

theorem unspecifiedRead_of_readsUnspecifiedAt {addr : Addr} (h : readsUnspecifiedAt s addr) :
    unspecifiedRead s = some addr.toNat := by
  obtain ⟨hn, hb, hc, rest, ho⟩ := h
  simp [unspecifiedRead, hn, ho, readsUnspecified, hb, (decodeAddr_commandOwned_iff addr).mpr hc]

theorem unspecifiedRead_eq_none (h : ∀ addr, ¬ readsUnspecifiedAt s addr) : unspecifiedRead s = none := by
  unfold unspecifiedRead
  split
  · next addr rest hn ho =>
    refine if_neg fun hu => ?_
    obtain ⟨hb, hc⟩ : s.busy = true ∧ (decodeAddr addr).commandOwned = true := by simpa [readsUnspecified] using hu
    exact h addr ⟨hn, hb, (decodeAddr_commandOwned_iff addr).mp hc, rest, ho⟩
  · rfl

/-- The checked step faults at a cell that the step reads and nothing has written (R36, R239). -/
theorem checkedStep_of_unwritten (h : ∃ a ∈ cellsRead s, a ∉ s.written) :
    ∃ a ∈ cellsRead s, a ∉ s.written ∧ checkedStep s = .fault (.uninitialisedCell a) := by
  cases hu : uninitialisedRead s with
  | none =>
    obtain ⟨a, ha, hw⟩ := h
    exact absurd ((uninitialisedRead_eq_none s).mp hu a ha) hw
  | some a =>
    exact ⟨a, List.mem_of_find?_eq_some hu, by simpa using List.find?_some hu, by simp [checkedStep, hu]⟩

theorem checkedStep_of_unspecified {addr : Addr} (hw : ∀ a ∈ cellsRead s, a ∈ s.written)
    (h : readsUnspecifiedAt s addr) : checkedStep s = .fault (.busyRead addr.toNat) := by
  simp [checkedStep, (uninitialisedRead_eq_none s).mpr hw, unspecifiedRead_of_readsUnspecifiedAt h]

/-- A checked step that does not fault has passed both checks. -/
theorem clear_of_checkedStep (h : checkedStep s = .next t) :
    uninitialisedRead s = none ∧ unspecifiedRead s = none ∧ step s = .next t := by
  unfold checkedStep at h
  split at h
  · exact nomatch h
  · next h1 =>
    split at h
    · exact nomatch h
    · next h2 => exact ⟨h1, h2, h⟩

end Sys2Proof.Machine
end

section
/-! SUPPORT. No checked step depends on what an unwritten cell holds (spec/10_state.md R36). -/

namespace Sys2Proof.Machine
open Sys2Proof.Spec
variable {s s' t : State}

/-! ### Which addresses are whose (R64) -/

theorem gAddr_inj {k d : GReg} (h : gAddr k = gAddr d) : k = d :=
  Fin.ext (by simp only [gAddr] at h; omega)

theorem not_isCellAddr_gAddr (k : GReg) : ¬ isCellAddr (gAddr k) := by
  simp only [isCellAddr, gAddr]
  omega

/-- An address that a memory does not list reads as unwritten. -/
theorem read_of_unlisted {m : Memory} {a : Nat} (h : ∀ p ∈ m, p.1 ≠ a) : m.read a = Config.unwrittenCell := by
  induction m with
  | nil => rfl
  | cons p rest ih =>
    rw [Memory.read, if_neg (h p (by simp)), ih fun q hq => h q (by simp [hq])]

theorem read_gAddr {m : Memory} (h : ∀ p ∈ m, isCellAddr p.1) (k : GReg) : m.read (gAddr k) = Config.unwrittenCell :=
  read_of_unlisted fun p hp e => not_isCellAddr_gAddr k (e ▸ h p hp)

/-- A cell with no reset value is command-owned, so that its word is unspecified while BUSY = 1 (R34, R271). -/
theorem Target.commandOwned_of_cell (x : Target) {a : Nat} (h : x.cell = some a) : x.commandOwned = true := by
  cases x
  case g | epos | pcoef => rfl
  all_goals exact nomatch h

/-! ### Two states that differ at most in unwritten cells -/

/-- Agreement on written cells between two states whose memories are canonical and list only cells of the map: what every
operation of a step keeps. -/
structure Agree (s s' : State) : Prop extends AgreeOnWritten s s' where
  canonical : s.cells.wf
  canonical' : s'.cells.wf
  mapped : ∀ p ∈ s.cells, isCellAddr p.1
  mapped' : ∀ p ∈ s'.cells, isCellAddr p.1

namespace Agree

/-- A state that meets the invariant agrees with itself. -/
theorem refl (h : s.Inv) : Agree s s :=
  ⟨⟨rfl, fun _ _ => rfl, fun _ _ => rfl⟩, h.cells_canonical, h.cells_canonical, h.cells_mapped, h.cells_mapped⟩

/-- What does not look at the scalar registers and the cells is the same in both states. -/
theorem view {α : Type} (h : Agree s s') (f : State → α)
    (hf : ∀ (x : State) g c, f { x with g := g, cells := c } = f x := by intros; rfl) : f s' = f s := by
  rw [← hf s' s.g s.cells, h.same_rest]

theorem seq (h : Agree s s') : s'.seq = s.seq := h.view State.seq
theorem hostOps (h : Agree s s') : s'.hostOps = s.hostOps := h.view State.hostOps
theorem tables (h : Agree s s') : s'.tables = s.tables := h.view State.tables
theorem written (h : Agree s s') : s'.written = s.written := h.view State.written
theorem freeIndex (h : Agree s s') : s'.freeIndex = s.freeIndex := h.view State.freeIndex
theorem busy (h : Agree s s') : s'.busy = s.busy := h.view State.busy
theorem m (h : Agree s s') : s'.m = s.m := h.view State.m
theorem nu (h : Agree s s') : s'.nu = s.nu := h.view State.nu
theorem nextTurn (h : Agree s s') : s'.nextTurn = s.nextTurn := h.view State.nextTurn
theorem readPlen (h : Agree s s') (k : PReg) : s'.readPlen k = s.readPlen k :=
  h.view (State.readPlen · k)
theorem cellsRead (h : Agree s s') : cellsRead s' = cellsRead s := h.view Machine.cellsRead
theorem unspecifiedRead (h : Agree s s') : unspecifiedRead s' = unspecifiedRead s :=
  h.view Machine.unspecifiedRead

/-! #### What a command reads of written cells -/

theorem poly (h : Agree s s') (k : PReg) (hk : ∀ a ∈ polyCells s k, a ∈ s.written) : s'.poly k = s.poly k := by
  rw [State.poly, State.poly, h.readPlen]
  refine readList_congr fun j hj => (h.same_cells _ (hk _ ?_)).symm
  exact (mem_polyCells k _).mpr ⟨j, hj, by simp [pcoefAddr]⟩

theorem era (h : Agree s s') (he : ∀ a ∈ eraCells s, a ∈ s.written) : s'.era = s.era := by
  rw [State.era, State.era, h.nu]
  refine readList_congr fun j hj => (h.same_cells _ (he _ ?_)).symm
  exact (mem_eraCells _).mpr ⟨j, hj, by simp [eposAddr]⟩

/-! #### The operations of a step keep the agreement -/

/-- An operation that leaves the cells, the scalar registers and the record alone, and does not look at the first two. -/
theorem map (h : Agree s s') (f : State → State)
    (hrest : ∀ (x : State) g c, { f x with g := g, cells := c } = f { x with g := g, cells := c } := by intros; rfl)
    (hg : ∀ x, (f x).g = x.g := by intros; rfl) (hc : ∀ x, (f x).cells = x.cells := by intros; rfl)
    (hw : ∀ x, (f x).written = x.written := by intros; rfl) :
    Agree (f s) (f s') where
  same_rest := by rw [hg, hc, hrest, h.same_rest]
  same_g k hk := by
    rw [hw] at hk
    simpa [State.readG, hg] using h.same_g k hk
  same_cells a ha := by
    rw [hw] at ha
    simpa [hc] using h.same_cells a ha
  canonical := by simpa [hc] using h.canonical
  canonical' := by simpa [hc] using h.canonical'
  mapped := by simpa [hc] using h.mapped
  mapped' := by simpa [hc] using h.mapped'

theorem popTurn (h : Agree s s') : Agree s.popTurn s'.popTurn :=
  h.map State.popTurn

theorem succeed (h : Agree s s') : Agree (succeed s) (succeed s') :=
  h.map Machine.succeed

theorem raiseFail (h : Agree s s') (c : Failure) : Agree (raiseFail s c) (raiseFail s' c) :=
  h.map (Machine.raiseFail · c)

theorem completeBuild (h : Agree s s') : Agree (completeBuild s) (completeBuild s') :=
  h.map Machine.completeBuild

theorem writeSz (h : Agree s s') (b : Bool) : Agree (s.writeSz b) (s'.writeSz b) :=
  h.map (State.writeSz · b)

theorem writeInfo (h : Agree s s') (a b : Nat) : Agree (s.writeInfo a b) (s'.writeInfo a b) :=
  h.map (State.writeInfo · a b)

theorem dequeue (h : Agree s s') (ops : List HostOp) : Agree { s with hostOps := ops } { s' with hostOps := ops } :=
  h.map (fun x => { x with hostOps := ops })

/-- After a write of a scalar register both states hold the byte written, wherever else they differ. -/
theorem writeG (h : Agree s s') (d : GReg) (v : Byte) : Agree (s.writeG d v) (s'.writeG d v) where
  same_rest := congrArg (State.writeG · d v) h.same_rest
  same_g k hk := by
    rw [readG_writeG, readG_writeG]
    split
    · rfl
    · next hne =>
      exact h.same_g k (((mem_markCell _ _ _).mp hk).resolve_left fun e => hne (gAddr_inj e).symm)
  same_cells a ha := by
    rcases (mem_markCell _ _ _).mp ha with rfl | ha
    · exact (read_gAddr h.mapped d).trans (read_gAddr h.mapped' d).symm
    · exact h.same_cells a ha
  canonical := h.canonical
  canonical' := h.canonical'
  mapped := h.mapped
  mapped' := h.mapped'

theorem writeCell (h : Agree s s') {a : Nat} (ha : isCellAddr a) (b : Byte) :
    Agree (s.writeCell a b) (s'.writeCell a b) where
  same_rest := congrArg
    (fun x : State => { x with cells := s.cells.write a b, written := markCell x.written a }) h.same_rest
  same_g k hk :=
    h.same_g k (((mem_markCell _ _ _).mp hk).resolve_left fun e => not_isCellAddr_gAddr k (e ▸ ha))
  same_cells x hx := by
    rw [writeCell_cells, writeCell_cells, read_write _ _ _ _ h.canonical, read_write _ _ _ _ h.canonical']
    split
    · rfl
    · next hne => exact h.same_cells x (((mem_markCell _ _ _).mp hx).resolve_left fun e => hne e.symm)
  canonical := write_wf _ _ _ h.canonical
  canonical' := write_wf _ _ _ h.canonical'
  mapped := writeCell_mapped b ha h.mapped
  mapped' := writeCell_mapped b ha h.mapped'

/-- After a write of a polynomial register both states hold its list; a cell outside the list is as it was. -/
theorem writePoly (h : Agree s s') (d : PReg) (l : Poly) (hl : l.length ≤ 512) :
    Agree (s.writePoly d l) (s'.writePoly d l) where
  same_rest := congrArg (fun x : State =>
    { x with
      plen := x.plen.set d.val l.length
      cells := s.cells.writeList (pcoefAddr d 0) l
      written := markCells x.written (pcoefAddr d 0) l.length }) h.same_rest
  same_g k hk := by
    refine h.same_g k (((mem_markCells _ _ _ _).mp hk).resolve_left ?_)
    rintro ⟨i, -, hi⟩
    simp only [gAddr, pcoefAddr] at hi
    omega
  same_cells x hx := by
    by_cases hin : ∃ i < l.length, x = pcoefAddr d i
    · obtain ⟨i, hi, rfl⟩ := hin
      rw [read_writePoly_of_lt d l h.canonical i hi, read_writePoly_of_lt d l h.canonical' i hi]
    · have hout : ∀ i < l.length, x ≠ pcoefAddr d i := fun i hi e => hin ⟨i, hi, e⟩
      rw [read_writePoly_of_ne d l hout, read_writePoly_of_ne d l hout]
      exact h.same_cells x (((mem_markCells _ _ _ _).mp hx).resolve_left (by simpa [pcoefAddr] using hin))
  canonical := writeList_wf _ _ _ h.canonical
  canonical' := writeList_wf _ _ _ h.canonical'
  mapped := writePoly_mapped d l hl h.mapped
  mapped' := writePoly_mapped d l hl h.mapped'

end Agree

/-! ### Agreement of what commands compute -/

/-- Two results that fail alike, or succeed with states that agree. -/
inductive AgreeResult : Except Failure State → Except Failure State → Prop
  | error (e : Failure) : AgreeResult (.error e) (.error e)
  | ok {u u' : State} (h : Agree u u') : AgreeResult (.ok u) (.ok u')

/-- Two outcomes that are next states that agree. -/
def AgreeNext (o o' : Host.Outcome State Fault Refusal) : Prop := ∃ t t', o = .next t ∧ o' = .next t' ∧ Agree t t'

theorem AgreeResult.bind {α : Type} (r : Except Failure α) {f f' : α → Except Failure State}
    (hf : ∀ x, AgreeResult (f x) (f' x)) : AgreeResult (r.bind f) (r.bind f') := by
  cases r with
  | error e => exact .error e
  | ok x => exact hf x

namespace Agree

theorem storePoly (h : Agree s s') (d : PReg) (l : Poly) : AgreeResult (s.storePoly d l) (s'.storePoly d l) := by
  by_cases hl : l.length ≤ Config.pmax
  · rw [storePoly_ok _ d l hl, storePoly_ok _ d l hl]
    exact .ok (h.writePoly d l hl)
  · rw [storePoly_long _ d l (by omega), storePoly_long _ d l (by omega)]
    exact .error _

theorem storePolys (h : Agree s s') (d e : PReg) (l1 l2 : Poly) :
    AgreeResult (s.storePolys d l1 e l2) (s'.storePolys d l1 e l2) := by
  unfold State.storePolys
  split
  · next hl => exact .ok ((h.writePoly d l1 hl.1).writePoly e l2 hl.2)
  · exact .error _

theorem complete (h : Agree s s') {r r' : Except Failure State} (hr : AgreeResult r r') :
    AgreeNext (complete s r) (complete s' r') := by
  cases hr with
  | error e => exact ⟨_, _, rfl, rfl, h.raiseFail e⟩
  | ok hu => exact ⟨_, _, rfl, rfl, hu.succeed⟩

theorem completeG (h : Agree s s') (d : GReg) (r : Except Failure Byte) :
    AgreeNext (completeG s d r) (completeG s' d r) := by
  cases r with
  | error e => exact h.complete (.error e)
  | ok v => exact h.complete (.ok (h.writeG d v))

theorem completeP (h : Agree s s') (d : PReg) (r : Except Failure Poly) :
    AgreeNext (completeP s d r) (completeP s' d r) :=
  h.complete (.bind r fun l => h.storePoly d l)

theorem completePP (h : Agree s s') (d e : PReg) (r : Except Failure (Poly × Poly)) :
    AgreeNext (completePP s d e r) (completePP s' d e r) :=
  h.complete (.bind r fun l => h.storePolys d e l.1 l.2)

/-- A command whose source cells have all been written computes the same in both states (R36). -/
theorem exec (h : Agree s s') (i : Instr) (hw : ∀ a ∈ operandCells i s, a ∈ s.written) :
    AgreeNext (exec i s) (exec i s') := by
  have hG : ∀ k ∈ scalarSources i, s'.readG k = s.readG k := fun k hk =>
    (h.same_g k (hw _ ((mem_operandCells i _).mpr (.inl ⟨k, hk, rfl⟩)))).symm
  have hP : ∀ k ∈ polySources i, s'.poly k = s.poly k := fun k hk => h.poly k fun a ha => by
    obtain ⟨j, hj, e⟩ := (mem_polyCells k a).mp ha
    exact hw a ((mem_operandCells i a).mpr (.inr (.inl ⟨k, hk, j, hj, e⟩)))
  have hE : readsErasures i = true → s'.era = s.era := fun hr => h.era fun a ha => by
    obtain ⟨j, hj, e⟩ := (mem_eraCells a).mp ha
    exact hw a ((mem_operandCells i a).mpr (.inr (.inr ⟨hr, j, hj, e⟩)))
  have hL : ∀ k, cwlen (s'.poly k) = cwlen (s.poly k) := fun k => by simp [cwlen, h.readPlen]
  cases i <;> simp only [scalarSources, polySources, readsErasures, List.forall_mem_cons, List.not_mem_nil, false_imp_iff,
    implies_true, and_true, forall_const, Bool.false_eq_true] at hG hP hE
  case gadd | gmul | gmulnt | gdiv | gpow | ginv | logr | expr | peval =>
    simp only [Machine.exec, execGadd, execGmul, execGmulnt, execGdiv, execGpow, execGinv, execLogr, execExpr, execPeval,
      h.tables, *]
    exact h.completeG _ _
  case padd | pscale | pmul | fsynd | eloc | chien | ploc | eeval | fmag | corr | genpoly | encode =>
    simp only [Machine.exec, execPadd, execPscale, execPmul, execFsynd, execEloc, execChien, execPloc, execEeval, execFmag,
      execCorr, execGenpoly, execEncode, fsyndChecked, chienChecked, plocChecked, fmagChecked, h.tables, h.m, h.nu, *]
    exact h.completeP _ _
  case pdivmod q r a b =>
    simp only [Machine.exec, execPdivmod, h.tables, hP]
    exact h.completePP _ _ _
  case synd d c =>
    simp only [Machine.exec, execSynd, h.tables, h.m, hP]
    exact h.complete (.bind _ fun l => (h.writeSz _).storePoly d l)
  case decode d e c =>
    simp only [Machine.exec, execDecode, h.tables, h.m, hP, hE]
    refine h.complete (.bind _ fun r => ?_)
    rw [storeDecoded, storeDecoded, h.m]
    exact ((h.writeSz _).writeInfo _ _).storePolys d e _ _

/-! #### Host accesses -/

/-- A register word is the same in both states, if the cell it shows has been written. -/
theorem registerWord (h : Agree s s') {x : Target} (hx : ∀ a, x.cell = some a → a ∈ s.written) :
    registerWord s' x = registerWord s x := by
  cases x with
  | g k => exact congrArg (BitVec.setWidth 32) (h.same_g k (hx _ rfl)).symm
  | epos i => exact congrArg (BitVec.setWidth 32) (h.same_cells _ (hx _ rfl)).symm
  | pcoef k i => exact congrArg (BitVec.setWidth 32) (h.same_cells _ (hx _ rfl)).symm
  | id | status | cmd | nsym | info | elen | plen | reserved | misaligned =>
    exact h.view (Machine.registerWord · _)

/-- The word a read returns is the same in both states: a free value in both, or that of a register whose cell has been
written. -/
theorem readWord (h : Agree s s') {x : Target} (hx : s.busy = false → ∀ a, x.cell = some a → a ∈ s.written) :
    readWord s' x = readWord s x := by
  rw [Machine.readWord, Machine.readWord, readsUnspecified, readsUnspecified, h.busy, h.freeIndex]
  split
  · rfl
  · next hu =>
    refine h.registerWord fun a ha => hx ?_ a ha
    simpa [x.commandOwned_of_cell ha] using hu

theorem hostRead (h : Agree s s') {addr : Addr}
    (hx : s.busy = false → ∀ a, (decodeAddr addr).cell = some a → a ∈ s.written) :
    Agree (hostRead s addr) (hostRead s' addr) := by
  rw [Machine.hostRead, Machine.hostRead, h.readWord hx, readsUnspecified, readsUnspecified, h.busy, h.freeIndex]
  exact h.map
    (fun x =>
      { x with
        hostReads := Machine.readWord s (decodeAddr addr) :: x.hostReads
        freeIndex := if s.busy && (decodeAddr addr).commandOwned then s.freeIndex + 1 else s.freeIndex })

theorem hostWrite (h : Agree s s') (addr : Addr) (v : Word) : Agree (hostWrite s addr v) (hostWrite s' addr v) := by
  cases hb : s.busy with
  | true =>
    rw [hostWrite_of_busy addr v hb, hostWrite_of_busy addr v (h.busy.trans hb)]
    split
    · exact h.map (fun x => { x with ovr := true })
    · exact h
  | false =>
    rw [hostWrite_of_idle addr v hb, hostWrite_of_idle addr v (h.busy.trans hb)]
    cases hd : decodeAddr addr with
    | id | status | info | reserved | misaligned => exact h
    | cmd => exact h.map (acceptCommand · v)
    | elen =>
      exact h.map (fun x => { x with elen := v.setWidth 8 })
    | nsym =>
      simp only [writeRegister]
      split
      · exact h
      · exact h.map (fun x => { x with nsym := v.setWidth 8 })
    | plen k =>
      simp only [writeRegister]
      split
      · exact h
      · exact h.map (fun x => { x with plen := x.plen.set k.val (v.setWidth 10 : BitVec 10).toNat })
    | g k => exact h.writeG k _
    | epos i => exact h.writeCell (isCellAddr_of_decodeAddr_epos hd) _
    | pcoef k i => exact h.writeCell (isCellAddr_of_decodeAddr_pcoef hd) _

/-! #### One step -/

theorem sequencerTurn (h : Agree s s')
    (hw : ∀ w i, s.seq = .command w → decode w = some i → ∀ a ∈ operandCells i s, a ∈ s.written) :
    AgreeNext (sequencerTurn s) (sequencerTurn s') := by
  have hq' := h.seq
  cases hq : s.seq with
  | idle =>
    rw [sequencerTurn_idle s hq, sequencerTurn_idle s' (hq'.trans hq)]
    exact ⟨_, _, rfl, rfl, h⟩
  | building =>
    rw [sequencerTurn_building s hq, sequencerTurn_building s' (hq'.trans hq)]
    exact ⟨_, _, rfl, rfl, h.completeBuild⟩
  | command w =>
    rw [sequencerTurn_command s w hq, sequencerTurn_command s' w (hq'.trans hq)]
    cases hd : decode w with
    | none =>
      rw [executeWord_none s w hd, executeWord_none s' w hd]
      exact ⟨_, _, rfl, rfl, h.raiseFail _⟩
    | some i =>
      rw [executeWord_some s w i hd, executeWord_some s' w i hd]
      exact h.exec i (hw w i hq hd)

theorem hostTurn (h : Agree s s') (hw : ∀ addr rest, s.busy = false → s.hostOps = .read addr :: rest →
    ∀ a, (decodeAddr addr).cell = some a → a ∈ s.written) : Agree (hostTurn s) (hostTurn s') := by
  have ho' := h.hostOps
  cases ho : s.hostOps with
  | nil =>
    rw [hostTurn_nil s ho, hostTurn_nil s' (ho'.trans ho)]
    exact h
  | cons op rest =>
    cases op with
    | read addr =>
      rw [hostTurn_read s addr rest ho, hostTurn_read s' addr rest (ho'.trans ho)]
      exact (h.dequeue rest).hostRead fun hb => hw addr rest hb ho
    | write addr v =>
      rw [hostTurn_write s addr v rest ho, hostTurn_write s' addr v rest (ho'.trans ho)]
      exact (h.dequeue rest).hostWrite addr v
    | wait =>
      cases hb : s.busy with
      | true =>
        rw [hostTurn_wait_busy s rest ho hb, hostTurn_wait_busy s' rest (ho'.trans ho) (h.busy.trans hb)]
        exact h.hostRead fun _ => nofun
      | false =>
        rw [hostTurn_wait_idle s rest ho hb, hostTurn_wait_idle s' rest (ho'.trans ho) (h.busy.trans hb)]
        exact (h.dequeue rest).hostRead fun _ => nofun

/-- A step that reads written cells only is the same step in both states (R36). -/
theorem step (h : Agree s s') (hw : ∀ a ∈ Machine.cellsRead s, a ∈ s.written) : AgreeNext (step s) (step s') := by
  have hn' := h.nextTurn
  cases hn : s.nextTurn with
  | host =>
    rw [step_of_host s hn, step_of_host s' (hn'.trans hn)]
    refine ⟨_, _, rfl, rfl, h.popTurn.hostTurn fun addr rest hb ho a ha => hw a ?_⟩
    rw [cellsRead_of_read hn hb ho, ha]
    exact List.mem_singleton_self a
  | sequencer =>
    rw [step_of_sequencer s hn, step_of_sequencer s' (hn'.trans hn)]
    refine h.popTurn.sequencerTurn fun w i hq hd a ha => hw a ?_
    rw [cellsRead_of_command hn hq hd]
    exact ha
  | reset =>
    rw [step_of_reset s hn, step_of_reset s' (hn'.trans hn)]
    have hcore : Machine.resetCore s'.popTurn = Machine.resetCore s.popTurn :=
      h.view (fun x => Machine.resetCore x.popTurn)
    exact ⟨_, _, rfl, rfl, hcore ▸ .refl (.resetCore _)⟩

/-- A checked step that does not fault is the same checked step in both states. -/
theorem checkedStep (h : Agree s s') (hs : Machine.checkedStep s = .next t) :
    Machine.step s = .next t ∧
      ∃ t', Machine.checkedStep s' = .next t' ∧ Machine.step s' = .next t' ∧ AgreeOnWritten t t' := by
  obtain ⟨h1, h2, hstep⟩ := clear_of_checkedStep hs
  have hw := (uninitialisedRead_eq_none s).mp h1
  obtain ⟨u, u', hu, hu', hagree⟩ := h.step hw
  cases hu.symm.trans hstep
  have h1' : uninitialisedRead s' = none := by
    rw [uninitialisedRead_eq_none, h.cellsRead, h.written]
    exact hw
  have h2' : Machine.unspecifiedRead s' = none := h.unspecifiedRead.trans h2
  exact ⟨hstep, u', (checkedStep_of_clear s' h1' h2').trans hu', hu', hagree.toAgreeOnWritten⟩

end Agree

/-- Settles O60: `mem_cellsRead` and `mem_written_step` say which cells a step reads and records, the three lemmas on
`checkedStep` when it faults, and `Agree.checkedStep` that unwritten cells do not matter. -/
theorem unwrittenCellsDoNotMatter : Obligations.UnwrittenCellsDoNotMatter := by
  refine ⟨fun s a => mem_cellsRead a, fun s t a hs => mem_written_step hs a, fun s hw hu => ?_,
    fun s h => checkedStep_of_unwritten h, fun s addr hw h => checkedStep_of_unspecified hw h, ?_⟩
  · exact checkedStep_of_clear s ((uninitialisedRead_eq_none s).mpr hw) (unspecifiedRead_eq_none hu)
  · intro s s' t hwf hwf' hmap hmap' hagree hs
    exact Agree.checkedStep ⟨hagree, hwf, hwf', hmap, hmap'⟩ hs

end Sys2Proof.Machine
end

section
/-! SUPPORT. The targets that addresses of the map name, the addresses that name none, and the cells of the lists a command
reads (spec/10_state.md R28, R30; spec/20_memory.md R63-R65). -/

namespace Sys2Proof.Machine
open Sys2Proof.Spec
variable {s : State}

/-! ### Addresses that name no register (R63, R65) -/

/-- The targets without an address are those of the misaligned and the reserved addresses. -/
theorem decodeAddr_addr_eq_none (addr : Addr) :
    (decodeAddr addr).addr = none ↔ addr.toNat % 4 ≠ 0 ∨ isReserved addr.toNat := by
  have hlt := addr.isLt
  unfold decodeAddr isReserved
  dsimp only
  generalize addr.toNat = n at *
  repeat' apply ite_elim (P := fun t => Target.addr t = none ↔ _) <;> intro
  all_goals
    simp only [Target.addr, reduceCtorEq, false_iff, true_iff]
    omega

theorem readWord_of_addr_eq_none {x : Target} (h : x.addr = none) : readWord s x = 0#32 := by
  cases x
  case reserved | misaligned => simp [readWord, readsUnspecified, Target.commandOwned, registerWord]
  all_goals exact nomatch h

theorem overruns_of_addr_eq_none {x : Target} (h : x.addr = none) : x.overruns = false := by
  cases x
  case reserved | misaligned => rfl
  all_goals exact nomatch h

/-- A write to neither CMD nor a read-write register changes nothing, whatever BUSY is (R64, R272). -/
theorem hostWrite_of_not_overruns {addr : Addr} (h : (decodeAddr addr).overruns = false) (v : Word) :
    hostWrite s addr v = s := by
  cases hb : s.busy with
  | true => simp [hostWrite_of_busy addr v hb, h]
  | false => rw [hostWrite_of_idle addr v hb, writeRegister_of_not_overruns h]

/-- Settles O17: such an address names a target without an address of its own, which reads 0 and which no write reaches. -/
theorem misalignedAndReservedIgnored : Obligations.MisalignedAndReservedIgnored := by
  intro s addr v h
  have hx : (decodeAddr addr).addr = none := (decodeAddr_addr_eq_none addr).mpr h
  exact ⟨readWord_of_addr_eq_none hx, hostWrite_of_not_overruns (overruns_of_addr_eq_none hx) v⟩

/-! ### Addresses that name a register (R64) -/

/-- The index of a cell is within its window of the map (R64). -/
def Target.inWindow : Target → Prop
  | .epos i => i < 255
  | .pcoef _ i => i < 512
  | .id | .status | .cmd | .nsym | .info | .elen | .g _ | .plen _ | .reserved | .misaligned => True

/-- Every register of the map is named by its address. -/
theorem decodeAddr_ofNat_of_addr {x : Target} {a : Nat} (h : x.addr = some a) (hx : x.inWindow) :
    decodeAddr (BitVec.ofNat 16 a) = x := by
  cases x
  case id | status | cmd | nsym | info | elen => cases h; rfl
  case reserved | misaligned => exact nomatch h
  all_goals
    simp only [Target.addr, gAddr, plenAddr, eposAddr, pcoefAddr, Option.some.injEq, Target.inWindow] at h hx
    have hn : (BitVec.ofNat 16 a).toNat = a := Nat.mod_eq_of_lt (by omega)
    simp (disch := omega) only [decodeAddr, hn, if_neg, if_pos]
    simp only [Target.g.injEq, Target.plen.injEq, Target.epos.injEq, Target.pcoef.injEq, Fin.ext_iff, Fin.ofNat]
    omega

/-- While BUSY = 0 a read of a register's address returns its word. -/
theorem readAt_ofNat_of_addr (hb : s.busy = false) (x : Target) {a : Nat} (h : x.addr = some a) (hx : x.inWindow) :
    readAt s (BitVec.ofNat 16 a) = registerWord s x := by
  rw [readAt_of_idle hb, decodeAddr_ofNat_of_addr h hx]

/-! ### The lists a command reads (R28, R30) -/

theorem readList_eq_map (m : Memory) (a n : Nat) :
    m.readList a n = (List.range n).map fun i => m.read (a + 4 * i) :=
  List.ext_getElem (by simp) fun i hi _ => by simp [readList_getElem m a n i (by simpa using hi)]

/-- Settles O15: each register is named by its address, and the lists a command reads are lists of neighbouring cells. -/
theorem registerMapReads : Obligations.RegisterMapReads := by
  refine ⟨fun s hb => ?_, fun s => ⟨fun k => readList_eq_map _ (pcoefAddr k 0) _, readList_eq_map _ (eposAddr 0) _⟩⟩
  exact ⟨readAt_ofNat_of_addr hb .id rfl trivial, readAt_ofNat_of_addr hb .status rfl trivial,
    readAt_ofNat_of_addr hb .cmd rfl trivial, readAt_ofNat_of_addr hb .nsym rfl trivial,
    readAt_ofNat_of_addr hb .info rfl trivial, readAt_ofNat_of_addr hb .elen rfl trivial,
    fun k => readAt_ofNat_of_addr hb (.g k) rfl trivial, fun k => readAt_ofNat_of_addr hb (.plen k) rfl trivial,
    fun i hi => readAt_ofNat_of_addr hb (.epos i) rfl hi, fun k i hi => readAt_ofNat_of_addr hb (.pcoef k i) rfl hi⟩

end Sys2Proof.Machine
end

section
/-! SUPPORT. The fields of command words and the words made of them: the decoder and the encoder are inverse to each
other (spec/30_encoding.md R81-R88). -/

namespace Sys2Proof
open Sys2Proof.Machine Sys2Proof.Spec
variable {w : Word} {i : Instr}

/-! ### The fields of a word -/

theorem opField_eq_div (w : Word) : opField w = w.toNat / 2 ^ 24 := by
  have hw := w.isLt
  simp only [opField, BitVec.extractLsb'_toNat, Nat.shiftRight_eq_div_pow]
  omega

theorem regField_val (w : Word) (lo : Nat) : (regField w lo).val = w.toNat / 2 ^ lo % 16 := by
  simp [regField, Nat.shiftRight_eq_div_pow]

theorem zField_toNat (w : Word) : (zField w).toNat = w.toNat % 256 := by simp [zField, BitVec.extractLsb'_toNat]

theorem immField_toNat (w : Word) : (immField w).toNat = w.toNat % 65536 := by
  simp [immField, BitVec.extractLsb'_toNat]

/-- The obligations read the register fields by `nibble`. -/
@[simp] theorem nibble_eq_field (w : Word) : nibble w 20 = dField w ∧ nibble w 16 = aField w ∧ nibble w 12 = bField w ∧
    nibble w 8 = cField w := by
  simp only [nibble, dField, aField, bField, cField, Fin.ext_iff, regField_val, Fin.ofNat, true_and]

@[simp] theorem immediate_eq_unsignedImm (w : Word) : immediate w = unsignedImm w := (immField_toNat w).symm

@[simp] theorem signedImmediate_eq_signedImm (w : Word) : signedImmediate w = signedImm w := by
  simp only [signedImmediate, immediate, signedImm, BitVec.toInt_eq_toNat_cond, immField_toNat]
  split_ifs <;> omega

theorem regField_eq_zero_iff (lo : Nat) : regField w lo = 0 ↔ w.extractLsb' lo 4 = 0#4 := by
  simp [regField, ← BitVec.toFin_inj]

/-! ### The words of a format (R81, R82) -/

section Pack
variable {op : Nat} (d a b c : Fin 16) (imm : BitVec 16)

@[simp] theorem opField_packR (hop : op < 256) : opField (packR op d a b c) = op := by
  rw [opField_eq_div, Laws.OpcodeByte.packR_top op hop]

@[simp] theorem regFields_packR : dField (packR op d a b c) = d ∧ aField (packR op d a b c) = a ∧
    bField (packR op d a b c) = b ∧ cField (packR op d a b c) = c := by
  simp only [dField, aField, bField, cField, Fin.ext_iff, regField_val, packR, BitVec.toNat_ofNat]
  omega

@[simp] theorem unusedZ_packR : unusedZ (packR op d a b c) = true := by
  simp only [unusedZ, beq_iff_eq, ← BitVec.toNat_inj, zField_toNat, packR, BitVec.toNat_ofNat]
  omega

@[simp] theorem opField_packI (hop : op < 256) : opField (packI op d a imm) = op := by
  rw [opField_eq_div, Laws.OpcodeByte.packI_top op hop]

@[simp] theorem regFields_packI : dField (packI op d a imm) = d ∧ aField (packI op d a imm) = a := by
  simp only [dField, aField, Fin.ext_iff, regField_val, packI, BitVec.toNat_ofNat]
  omega

@[simp] theorem immField_packI : immField (packI op d a imm) = imm := by
  simp only [← BitVec.toNat_inj, immField_toNat, packI, BitVec.toNat_ofNat]
  omega

end Pack

/-- A word of Format R is the word of its fields. -/
theorem packR_fields (hz : unusedZ w = true) :
    packR (opField w) (dField w) (aField w) (bField w) (cField w) = w := by
  have hz : w.toNat % 256 = 0 := by rw [← zField_toNat, beq_iff_eq.mp hz, BitVec.toNat_zero]
  simp only [packR, dField, aField, bField, cField, regField_val, opField_eq_div, ← BitVec.toNat_inj,
    BitVec.toNat_ofNat]
  omega

/-- Every word is the Format I word of its fields. -/
theorem packI_fields (w : Word) : packI (opField w) (dField w) (aField w) (immField w) = w := by
  simp only [packI, dField, aField, regField_val, immField_toNat, opField_eq_div, ← BitVec.toNat_inj,
    BitVec.toNat_ofNat]
  omega

/-! ### The decoder undoes the encoder -/

theorem toInt_ofInt_of_fits {n : Int} (h : fitsSigned16 n = true) : (BitVec.ofInt 16 n).toInt = n := by
  simp only [fitsSigned16, Bool.and_eq_true, decide_eq_true_eq] at h
  rw [BitVec.toInt_ofInt]
  apply Int.bmod_eq_of_le <;> omega

theorem toNat_ofNat_of_fits {k : Nat} (h : fitsUnsigned16 k = true) : (BitVec.ofNat 16 k).toNat = k :=
  Nat.mod_eq_of_lt (Nat.lt_succ_of_le (of_decide_eq_true h))

/-- Settles O1: each command's word has its opcode byte, its operands in their fields and 0 in the unused ones. -/
theorem decodeOfEncode : Obligations.DecodeOfEncode := by
  intro i hwf
  cases i
  case gpow d x n => simp [encode, opcode, decode, signedImm, toInt_ofInt_of_fits hwf]
  case expr d k => simp [encode, opcode, decode, legalIf, unusedA, unsignedImm, toNat_ofNat_of_fits hwf]
  all_goals simp [encode, opcode, decode, legalIf, unusedCZ, unusedBCZ, unusedABCZ]

/-! ### The encoder undoes the decoder -/

theorem legalIf_eq_some_iff {unused : Bool} {j : Instr} : legalIf unused j = some i ↔ unused = true ∧ j = i := by
  simp [legalIf]

section Fields
variable {op : Nat}

theorem packR_of_unusedZ (hop : opField w = op) (hu : unusedZ w = true) :
    packR op (dField w) (aField w) (bField w) (cField w) = w := hop ▸ packR_fields hu

theorem packR_of_unusedCZ (hop : opField w = op) (hu : unusedCZ w = true) :
    packR op (dField w) (aField w) (bField w) 0 = w := by
  simp only [unusedCZ, Bool.and_eq_true, beq_iff_eq] at hu
  obtain ⟨hc, hu⟩ := hu
  simpa only [hc] using packR_of_unusedZ hop hu

theorem packR_of_unusedBCZ (hop : opField w = op) (hu : unusedBCZ w = true) :
    packR op (dField w) (aField w) 0 0 = w := by
  simp only [unusedBCZ, Bool.and_eq_true, beq_iff_eq] at hu
  obtain ⟨hb, hu⟩ := hu
  simpa only [hb] using packR_of_unusedCZ hop hu

theorem packR_of_unusedABCZ (hop : opField w = op) (hu : unusedABCZ w = true) :
    packR op (dField w) 0 0 0 = w := by
  simp only [unusedABCZ, Bool.and_eq_true, beq_iff_eq] at hu
  obtain ⟨ha, hu⟩ := hu
  simpa only [ha] using packR_of_unusedBCZ hop hu

theorem packI_signedImm (hop : opField w = op) :
    packI op (dField w) (aField w) (BitVec.ofInt 16 (signedImm w)) = w := by
  rw [signedImm, BitVec.ofInt_toInt, ← hop, packI_fields]

theorem packI_unsignedImm (hop : opField w = op) (hu : unusedA w = true) :
    packI op (dField w) 0 (BitVec.ofNat 16 (unsignedImm w)) = w := by
  rw [unsignedImm, BitVec.ofNat_toNat, BitVec.setWidth_eq, ← hop, ← beq_iff_eq.mp hu, packI_fields]

end Fields

theorem fitsSigned16_signedImm (w : Word) : fitsSigned16 (signedImm w) = true := by
  have hlo := (immField w).le_two_mul_toInt
  have hhi := (immField w).two_mul_toInt_lt
  rw [fitsSigned16, signedImm, Bool.and_eq_true, decide_eq_true_eq, decide_eq_true_eq]
  omega

theorem fitsUnsigned16_unsignedImm (w : Word) : fitsUnsigned16 (unsignedImm w) = true :=
  decide_eq_true (Nat.le_of_lt_succ (immField w).isLt)

/-- Settles O2: the fields of a word that decodes are the operands and 0, so the command's word is made of the same
fields. -/
theorem encodeOfDecode : Obligations.EncodeOfDecode := by
  intro w i h
  unfold decode at h
  split at h
  -- GPOW and EXPR, the two commands of Format I
  case h_5 hop =>
    cases h
    exact ⟨packI_signedImm hop, fitsSigned16_signedImm w⟩
  case h_8 hop =>
    obtain ⟨hu, rfl⟩ := legalIf_eq_some_iff.mp h
    exact ⟨packI_unsignedImm hop hu, fitsUnsigned16_unsignedImm w⟩
  -- an OP byte of no command
  case h_25 => exact nomatch h
  all_goals
    -- every other command is of Format R
    rename_i hop
    obtain ⟨hu, rfl⟩ := legalIf_eq_some_iff.mp h
    simp [encode, opcode, Instr.wf, packR_of_unusedZ, packR_of_unusedCZ, packR_of_unusedBCZ, packR_of_unusedABCZ,
      hop, hu]

theorem encode_of_decode (h : decode w = some i) : encode i = w := (encodeOfDecode w i h).1

theorem opField_encode (i : Instr) : opField (encode i) = opcode i := by
  cases i <;> simp [encode, opcode]

theorem opField_of_decode (h : decode w = some i) : opField w = opcode i := by
  rw [← encode_of_decode h, opField_encode]

end Sys2Proof
end

section
/-! SUPPORT. The rows of the opcode map: which words match each mask, what a word that matches a row decodes to, and that
every other word is illegal (spec/30_encoding.md R85-R87). -/

namespace Sys2Proof
open Sys2Proof.Machine Sys2Proof.Spec
variable {w p m : Word} {i : Instr}

/-! ### Words that match a mask (R85) -/

/-- The library's `BitVec.and_allOnes` for the width and the spelling of the masks; so is `and_15`. -/
theorem and_255 (x : BitVec 8) : x &&& 255#8 = x := BitVec.and_allOnes

theorem and_15 (x : BitVec 4) : x &&& 15#4 = x := BitVec.and_allOnes

theorem opField_eq_iff : opField w = opField p ↔ w.extractLsb' 24 8 = p.extractLsb' 24 8 := BitVec.toNat_inj

/-- A word is its fields OP, D, A, B, C and Z, so it can be masked field by field. -/
theorem and_eq_iff_fields (w m p : Word) : w &&& m = p ↔
    w.extractLsb' 24 8 &&& m.extractLsb' 24 8 = p.extractLsb' 24 8 ∧
      w.extractLsb' 20 4 &&& m.extractLsb' 20 4 = p.extractLsb' 20 4 ∧
      w.extractLsb' 16 4 &&& m.extractLsb' 16 4 = p.extractLsb' 16 4 ∧
      w.extractLsb' 12 4 &&& m.extractLsb' 12 4 = p.extractLsb' 12 4 ∧
      w.extractLsb' 8 4 &&& m.extractLsb' 8 4 = p.extractLsb' 8 4 ∧
      w.extractLsb' 0 8 &&& m.extractLsb' 0 8 = p.extractLsb' 0 8 := by
  simp only [← BitVec.extractLsb'_and]
  generalize w &&& m = v
  refine ⟨fun h => by simp [h], fun h => ?_⟩
  simp only [← BitVec.toNat_inj, BitVec.extractLsb'_toNat, Nat.shiftRight_eq_div_pow] at h ⊢
  have hv := v.isLt
  have hp := p.isLt
  omega

/-- A mask with the whole OP byte, a pattern of that byte alone: the word has the OP byte and 0 in the masked bits. -/
theorem and_eq_iff_of_opMask (hp : p &&& 0xFF000000#32 = p) (hm : m.extractLsb' 24 8 = 0xFF#8) :
    w &&& m = p ↔ opField w = opField p ∧
      w.extractLsb' 20 4 &&& m.extractLsb' 20 4 = 0#4 ∧ w.extractLsb' 16 4 &&& m.extractLsb' 16 4 = 0#4 ∧
      w.extractLsb' 12 4 &&& m.extractLsb' 12 4 = 0#4 ∧ w.extractLsb' 8 4 &&& m.extractLsb' 8 4 = 0#4 ∧
      w.extractLsb' 0 8 &&& m.extractLsb' 0 8 = 0#8 := by
  obtain ⟨-, h20, h16, h12, h8, h0⟩ := (and_eq_iff_fields ..).mp hp
  rw [and_eq_iff_fields, hm, and_255, opField_eq_iff, ← h20, ← h16, ← h12, ← h8, ← h0]
  simp

section Masks
variable (hp : p &&& 0xFF000000#32 = p)
include hp

theorem and_maskOp_iff : w &&& 0xFF000000#32 = p ↔ opField w = opField p := by simp [and_eq_iff_of_opMask hp]

theorem and_maskZ_iff : w &&& 0xFF0000FF#32 = p ↔ opField w = opField p ∧ unusedZ w = true := by
  simp [and_eq_iff_of_opMask hp, and_255, unusedZ, zField]

theorem and_maskCZ_iff : w &&& 0xFF000FFF#32 = p ↔ opField w = opField p ∧ unusedCZ w = true := by
  simp [and_eq_iff_of_opMask hp, and_255, and_15, unusedCZ, unusedZ, cField, zField, regField_eq_zero_iff]

theorem and_maskBCZ_iff : w &&& 0xFF00FFFF#32 = p ↔ opField w = opField p ∧ unusedBCZ w = true := by
  simp [and_eq_iff_of_opMask hp, and_255, and_15, unusedBCZ, unusedCZ, unusedZ, bField, cField, zField,
    regField_eq_zero_iff]

theorem and_maskABCZ_iff : w &&& 0xFF0FFFFF#32 = p ↔ opField w = opField p ∧ unusedABCZ w = true := by
  simp [and_eq_iff_of_opMask hp, and_255, and_15, unusedABCZ, unusedBCZ, unusedCZ, unusedZ, aField, bField, cField,
    zField, regField_eq_zero_iff]

theorem and_maskA_iff : w &&& 0xFF0F0000#32 = p ↔ opField w = opField p ∧ unusedA w = true := by
  simp [and_eq_iff_of_opMask hp, and_15, unusedA, aField, regField_eq_zero_iff]

/-- A row whose mask covers the OP byte and the unused fields holds the words that the decoder's arm accepts (R83, R85). -/
theorem encodes_of_decode {f : Word → Instr} (unused : Word → Bool)
    (hm : ∀ w, w &&& m = p ↔ opField w = opField p ∧ unused w = true)
    (hd : ∀ w, opField w = opField p → decode w = legalIf (unused w) (f w)) : Encodes p m f := by
  refine fun w => ⟨fun h => ?_, fun hop h => ?_⟩
  · obtain ⟨hop, hu⟩ := (hm w).mp h
    simp [hd w hop, hu, legalIf]
  · rw [and_maskOp_iff hp] at hop
    have hu : unused w ≠ true := fun hu => h ((hm w).mpr ⟨hop, hu⟩)
    simp [hd w hop, hu, legalIf]

end Masks

/-! ### The rows of the map (R85)

One lemma per row: its words, in the terms in which the statement about the row's command says what encodes it. -/

theorem encodes_gadd : Encodes 0x10000000#32 0xFF000FFF#32 (fun w => .gadd (nibble w 20) (nibble w 16) (nibble w 12)) :=
  encodes_of_decode rfl _ (fun _ => and_maskCZ_iff rfl) fun w (h : _ = 0x10) => by simp [decode, h]

theorem encodes_gmul : Encodes 0x11000000#32 0xFF000FFF#32 (fun w => .gmul (nibble w 20) (nibble w 16) (nibble w 12)) :=
  encodes_of_decode rfl _ (fun _ => and_maskCZ_iff rfl) fun w (h : _ = 0x11) => by simp [decode, h]

theorem encodes_gmulnt : Encodes 0x12000000#32 0xFF000FFF#32
    (fun w => .gmulnt (nibble w 20) (nibble w 16) (nibble w 12)) :=
  encodes_of_decode rfl _ (fun _ => and_maskCZ_iff rfl) fun w (h : _ = 0x12) => by simp [decode, h]

theorem encodes_gdiv : Encodes 0x13000000#32 0xFF000FFF#32 (fun w => .gdiv (nibble w 20) (nibble w 16) (nibble w 12)) :=
  encodes_of_decode rfl _ (fun _ => and_maskCZ_iff rfl) fun w (h : _ = 0x13) => by simp [decode, h]

theorem encodes_gpow : Encodes 0x14000000#32 0xFF000000#32
    (fun w => .gpow (nibble w 20) (nibble w 16) (signedImmediate w)) :=
  encodes_of_decode rfl (fun _ => true) (fun _ => by simp [and_maskOp_iff]) fun w (h : _ = 0x14) => by
    simp [decode, h, legalIf]

theorem encodes_ginv : Encodes 0x15000000#32 0xFF00FFFF#32 (fun w => .ginv (nibble w 20) (nibble w 16)) :=
  encodes_of_decode rfl _ (fun _ => and_maskBCZ_iff rfl) fun w (h : _ = 0x15) => by simp [decode, h]

theorem encodes_logr : Encodes 0x16000000#32 0xFF00FFFF#32 (fun w => .logr (nibble w 20) (nibble w 16)) :=
  encodes_of_decode rfl _ (fun _ => and_maskBCZ_iff rfl) fun w (h : _ = 0x16) => by simp [decode, h]

theorem encodes_expr : Encodes 0x17000000#32 0xFF0F0000#32 (fun w => .expr (nibble w 20) (immediate w)) :=
  encodes_of_decode rfl _ (fun _ => and_maskA_iff rfl) fun w (h : _ = 0x17) => by simp [decode, h]

theorem encodes_padd : Encodes 0x20000000#32 0xFF000FFF#32 (fun w => .padd (nibble w 20) (nibble w 16) (nibble w 12)) :=
  encodes_of_decode rfl _ (fun _ => and_maskCZ_iff rfl) fun w (h : _ = 0x20) => by simp [decode, h]

theorem encodes_pscale : Encodes 0x21000000#32 0xFF000FFF#32
    (fun w => .pscale (nibble w 20) (nibble w 16) (nibble w 12)) :=
  encodes_of_decode rfl _ (fun _ => and_maskCZ_iff rfl) fun w (h : _ = 0x21) => by simp [decode, h]

theorem encodes_pmul : Encodes 0x22000000#32 0xFF000FFF#32 (fun w => .pmul (nibble w 20) (nibble w 16) (nibble w 12)) :=
  encodes_of_decode rfl _ (fun _ => and_maskCZ_iff rfl) fun w (h : _ = 0x22) => by simp [decode, h]

theorem encodes_peval : Encodes 0x23000000#32 0xFF000FFF#32
    (fun w => .peval (nibble w 20) (nibble w 16) (nibble w 12)) :=
  encodes_of_decode rfl _ (fun _ => and_maskCZ_iff rfl) fun w (h : _ = 0x23) => by simp [decode, h]

theorem encodes_pdivmod : Encodes 0x24000000#32 0xFF0000FF#32
    (fun w => .pdivmod (nibble w 20) (nibble w 8) (nibble w 16) (nibble w 12)) :=
  encodes_of_decode rfl _ (fun _ => and_maskZ_iff rfl) fun w (h : _ = 0x24) => by simp [decode, h]

theorem encodes_synd : Encodes 0x30000000#32 0xFF00FFFF#32 (fun w => .synd (nibble w 20) (nibble w 16)) :=
  encodes_of_decode rfl _ (fun _ => and_maskBCZ_iff rfl) fun w (h : _ = 0x30) => by simp [decode, h]

theorem encodes_fsynd : Encodes 0x31000000#32 0xFF000FFF#32
    (fun w => .fsynd (nibble w 20) (nibble w 16) (nibble w 12)) :=
  encodes_of_decode rfl _ (fun _ => and_maskCZ_iff rfl) fun w (h : _ = 0x31) => by simp [decode, h]

theorem encodes_eloc : Encodes 0x32000000#32 0xFF00FFFF#32 (fun w => .eloc (nibble w 20) (nibble w 16)) :=
  encodes_of_decode rfl _ (fun _ => and_maskBCZ_iff rfl) fun w (h : _ = 0x32) => by simp [decode, h]

theorem encodes_chien : Encodes 0x33000000#32 0xFF000FFF#32
    (fun w => .chien (nibble w 20) (nibble w 16) (nibble w 12)) :=
  encodes_of_decode rfl _ (fun _ => and_maskCZ_iff rfl) fun w (h : _ = 0x33) => by simp [decode, h]

theorem encodes_ploc : Encodes 0x34000000#32 0xFF000FFF#32 (fun w => .ploc (nibble w 20) (nibble w 16) (nibble w 12)) :=
  encodes_of_decode rfl _ (fun _ => and_maskCZ_iff rfl) fun w (h : _ = 0x34) => by simp [decode, h]

theorem encodes_eeval : Encodes 0x35000000#32 0xFF000FFF#32
    (fun w => .eeval (nibble w 20) (nibble w 16) (nibble w 12)) :=
  encodes_of_decode rfl _ (fun _ => and_maskCZ_iff rfl) fun w (h : _ = 0x35) => by simp [decode, h]

theorem encodes_fmag : Encodes 0x36000000#32 0xFF0000FF#32
    (fun w => .fmag (nibble w 20) (nibble w 16) (nibble w 12) (nibble w 8)) :=
  encodes_of_decode rfl _ (fun _ => and_maskZ_iff rfl) fun w (h : _ = 0x36) => by simp [decode, h]

theorem encodes_corr : Encodes 0x37000000#32 0xFF0000FF#32
    (fun w => .corr (nibble w 20) (nibble w 16) (nibble w 12) (nibble w 8)) :=
  encodes_of_decode rfl _ (fun _ => and_maskZ_iff rfl) fun w (h : _ = 0x37) => by simp [decode, h]

theorem encodes_genpoly : Encodes 0x40000000#32 0xFF0FFFFF#32 (fun w => .genpoly (nibble w 20)) :=
  encodes_of_decode rfl _ (fun _ => and_maskABCZ_iff rfl) fun w (h : _ = 0x40) => by simp [decode, h]

theorem encodes_encode : Encodes 0x41000000#32 0xFF00FFFF#32 (fun w => .encode (nibble w 20) (nibble w 16)) :=
  encodes_of_decode rfl _ (fun _ => and_maskBCZ_iff rfl) fun w (h : _ = 0x41) => by simp [decode, h]

theorem encodes_decode : Encodes 0x42000000#32 0xFF000FFF#32
    (fun w => .decode (nibble w 20) (nibble w 12) (nibble w 16)) :=
  encodes_of_decode rfl _ (fun _ => and_maskCZ_iff rfl) fun w (h : _ = 0x42) => by simp [decode, h]

/-- Every row of the map holds the words of one command. -/
theorem exists_encodes_of_mem : ∀ r ∈ opcodeRows, ∃ f, Encodes r.pattern r.mask f := by
  simp only [opcodeRows, fieldRows, polyRows, stageRows, codecRows, List.cons_append, List.nil_append,
    List.forall_mem_cons]
  exact ⟨⟨_, encodes_gadd⟩, ⟨_, encodes_gmul⟩, ⟨_, encodes_gmulnt⟩, ⟨_, encodes_gdiv⟩, ⟨_, encodes_gpow⟩,
    ⟨_, encodes_ginv⟩, ⟨_, encodes_logr⟩, ⟨_, encodes_expr⟩, ⟨_, encodes_padd⟩, ⟨_, encodes_pscale⟩,
    ⟨_, encodes_pmul⟩, ⟨_, encodes_peval⟩, ⟨_, encodes_pdivmod⟩, ⟨_, encodes_synd⟩, ⟨_, encodes_fsynd⟩,
    ⟨_, encodes_eloc⟩, ⟨_, encodes_chien⟩, ⟨_, encodes_ploc⟩, ⟨_, encodes_eeval⟩, ⟨_, encodes_fmag⟩,
    ⟨_, encodes_corr⟩, ⟨_, encodes_genpoly⟩, ⟨_, encodes_encode⟩, ⟨_, encodes_decode⟩, fun _ h => nomatch h⟩

/-! ### The decoder and the map (R86, R87) -/

/-- The patterns have the OP byte alone. -/
theorem pattern_of_mem : ∀ r ∈ opcodeRows, r.pattern &&& 0xFF000000#32 = r.pattern := by decide

/-- The masks have the whole OP byte. -/
theorem mask_of_mem : ∀ r ∈ opcodeRows, r.mask.extractLsb' 24 8 = 0xFF#8 := by decide

/-- "The rows' OP bytes are distinct" (R87). -/
theorem nodup_opField_pattern : (opcodeRows.map fun r => opField r.pattern).Nodup := by decide

theorem exists_row (i : Instr) : ∃ r ∈ opcodeRows, opField r.pattern = opcode i ∧ r.mnemonic = i.mnemonic := by
  cases i <;> simp [opcodeRows, fieldRows, polyRows, stageRows, codecRows, opcode, Instr.mnemonic, opField]

theorem opField_eq_of_matches {r : OpcodeRow} (hr : r ∈ opcodeRows) (h : r.matches w = true) :
    opField w = opField r.pattern := by
  rw [← beq_iff_eq.mp h, opField_eq_iff, BitVec.extractLsb'_and, mask_of_mem r hr, and_255]

theorem decode_ne_none_of_matches {r : OpcodeRow} (hr : r ∈ opcodeRows) (h : r.matches w = true) : decode w ≠ none := by
  obtain ⟨f, hf⟩ := exists_encodes_of_mem r hr
  simp [(hf w).1 (beq_iff_eq.mp h)]

/-- A word with the OP byte of a row that decodes matches the row. -/
theorem matches_of_decode {r : OpcodeRow} (hr : r ∈ opcodeRows) (h : decode w = some i)
    (hop : opField w = opField r.pattern) : r.matches w = true := by
  obtain ⟨f, hf⟩ := exists_encodes_of_mem r hr
  by_contra hm
  have hn := (hf w).2 ((and_maskOp_iff (pattern_of_mem r hr)).mpr hop) (by simpa [OpcodeRow.matches] using hm)
  simp [hn] at h

/-- Settles O3: a word that decodes has the OP byte of its command's row, so it matches that row, and no other row has that
byte. -/
theorem decodeFollowsOpcodeMap : Obligations.DecodeFollowsOpcodeMap := by
  refine fun w => ⟨fun i h => ?_, fun h r hr => ?_, fun r hr r' hr' h h' => ?_⟩
  · obtain ⟨r, hr, hop, hname⟩ := exists_row i
    exact ⟨r, hr, matches_of_decode hr h ((opField_of_decode h).trans hop.symm), hname⟩
  · exact Bool.eq_false_iff.mpr fun hm => decode_ne_none_of_matches hr hm h
  · exact List.inj_on_of_nodup_map nodup_opField_pattern hr hr'
      ((opField_eq_of_matches hr h).symm.trans (opField_eq_of_matches hr' h'))

/-- The OP bytes of the map, complementary to those that R86 lists. -/
theorem opcode_listed (i : Instr) :
    (0x10 ≤ opcode i ∧ opcode i ≤ 0x17) ∨ (0x20 ≤ opcode i ∧ opcode i ≤ 0x24) ∨
      (0x30 ≤ opcode i ∧ opcode i ≤ 0x37) ∨ (0x40 ≤ opcode i ∧ opcode i ≤ 0x42) := by
  cases i <;> simp [opcode]

/-- An illegal word completes with the failure of R86. -/
theorem step_of_illegal {s : State} (h : decode w = none) (hn : s.nextTurn = .sequencer) (hq : s.seq = .command w) :
    step s = .next (raiseFail s.popTurn .illegalCommand) := by
  rw [step_of_sequencer s hn, sequencerTurn_command s.popTurn w hq, executeWord_none s.popTurn w h]

/-- Settles O4: a word that decodes matches a row, and its OP byte is an opcode; the step runs the failure. -/
theorem illegalWordsFail : Obligations.IllegalWordsFail := by
  refine ⟨fun w hno => ?_, fun w hop => ?_, by decide, rfl, fun s w h hn hq => step_of_illegal h hn hq⟩
  · refine Option.eq_none_iff_forall_ne_some.mpr fun i h => ?_
    obtain ⟨r, hr, hm, -⟩ := (decodeFollowsOpcodeMap w).1 i h
    simp [hno r hr] at hm
  · refine Option.eq_none_iff_forall_ne_some.mpr fun i h => ?_
    rw [← opField_eq_div, opField_of_decode h] at hop
    have := opcode_listed i
    omega

/-- Settles O5: each word is decoded. -/
theorem handEncodedWordsDecode : Obligations.HandEncodedWordsDecode := by
  unfold Obligations.HandEncodedWordsDecode
  decide

end Sys2Proof
end

section
/-! SUPPORT. What the built tables hold, EXP the powers of the generator and LOG their exponents, and the commands that
read them (spec/40_gf_tables.md R101-R108). -/

namespace Sys2Proof.Machine
open Sys2Proof.Spec
variable {t : Tables}

/-! ### The powers of the generator (R101, R102) -/

/-- The carry-less product with the generator is a shift, and of its high bits only bit 8 may be 1. -/
theorem product_generator (x : Byte) : product x Config.generator = xtime x := by
  have hc : carryless x Config.generator = x.setWidth 15 <<< 1 := by
    simp [carryless, Config.generator, List.range_succ]
  have hr : reduce (x.setWidth 15 <<< 1) =
      (if x[7] then x.setWidth 15 <<< 1 ^^^ 0x11D#15 else x.setWidth 15 <<< 1).setWidth 8 := by
    simp [reduce, List.range_succ]
  rw [product, hc, hr, xtime]
  by_cases h : x[7] = true <;> simp [h, Config.primitive, BitVec.setWidth_xor]

/-- `gmul_nolut(x, 2)` is two rounds of the loop: the first doubles x, the second adds it to the result (R101). -/
theorem gmulNolut_generator (x : Byte) : gmulNolut x Config.generator = product x Config.generator := by
  rw [product_generator]
  simp [gmulNolut, gmulNolutLoop, Config.generator]

/-- The build multiplies by the generator at each entry, so entry i from the power j on is the power j + i. -/
theorem powersFrom_getElem? {n i : Nat} (j : Nat) (hi : i < n) :
    (powersFrom n (power 2#8 j))[i]? = some (power 2#8 (j + i)) := by
  induction n generalizing i j with
  | zero => exact absurd hi (Nat.not_lt_zero i)
  | succ n ih =>
    cases i with
    | zero => rfl
    | succ i =>
      rw [powersFrom, gmulNolut_generator, List.getElem?_cons_succ]
      exact (ih (j + 1) (by omega)).trans (by rw [Nat.add_right_comm, Nat.add_assoc])

/-- EXP[i] is the power i (R102). -/
theorem expPeriod_getElem? {i : Nat} (hi : i < 255) : expPeriod[i]? = some (power 2#8 i) :=
  (powersFrom_getElem? 0 hi).trans (by rw [Nat.zero_add])

/-- The order of the generator divides 255: the last entry of the period times 2 is 1 (R106). -/
theorem power_generator_255 : power 2#8 255 = 1#8 := by
  have hlast : expPeriod[254]? = some 0x8E#8 := by decide +kernel
  have h254 : power 2#8 254 = 0x8E#8 := Option.some.inj ((expPeriod_getElem? (by omega)).symm.trans hlast)
  rw [power, h254]
  decide

theorem power_generator_periodic : Function.Periodic (power 2#8) 255 := by
  intro i
  induction i with
  | zero => exact power_generator_255
  | succ i ih => rw [Nat.add_right_comm, power, ih, power]

theorem power_generator_sub_255 {i : Nat} (hi : 255 ≤ i) : power 2#8 (i - 255) = power 2#8 i := by
  rw [← power_generator_periodic (i - 255), Nat.sub_add_cancel hi]

/-- The 255 nonzero elements in rising order. -/
def nonzeroElements : List Byte := (List.range 255).map fun k => BitVec.ofNat 8 (k + 1)

theorem mem_nonzeroElements_iff (x : Byte) : x ∈ nonzeroElements ↔ x ≠ 0#8 := by
  have hlt := x.isLt
  rw [nonzeroElements, List.mem_map, ne_eq, ← BitVec.toNat_inj, BitVec.toNat_zero]
  constructor
  · rintro ⟨k, hk, rfl⟩
    rw [List.mem_range] at hk
    rw [BitVec.toNat_ofNat]
    omega
  · intro hx
    refine ⟨x.toNat - 1, List.mem_range.mpr (by omega), ?_⟩
    rw [Nat.sub_add_cancel (by omega), BitVec.ofNat_toNat, BitVec.setWidth_eq]

theorem nonzeroElements_nodup : nonzeroElements.Nodup := by
  refine List.nodup_range.map_on fun a ha b hb hab => ?_
  have := congrArg BitVec.toNat hab
  rw [List.mem_range] at ha hb
  rw [BitVec.toNat_ofNat, BitVec.toNat_ofNat] at this
  omega

/-- The 255 entries of the period are the 255 nonzero elements in some order: each of these is among them (R106). -/
theorem nonzeroElements_perm_expPeriod : nonzeroElements.Perm expPeriod := by
  refine (nonzeroElements_nodup.subperm fun x hx => ?_).perm_of_length_le (by simp [nonzeroElements])
  obtain ⟨k, hk, rfl⟩ := List.mem_map.mp hx
  exact nonzero_mem_expPeriod ⟨k, List.mem_range.mp hk⟩

theorem expPeriod_nodup : expPeriod.Nodup := nonzeroElements_perm_expPeriod.nodup_iff.mp nonzeroElements_nodup

theorem mem_expPeriod_iff (x : Byte) : x ∈ expPeriod ↔ x ≠ 0#8 :=
  nonzeroElements_perm_expPeriod.mem_iff.symm.trans (mem_nonzeroElements_iff x)

theorem power_generator_ne_zero (i : Nat) : power 2#8 i ≠ 0#8 := by
  rw [← power_generator_periodic.map_mod_nat i]
  exact (mem_expPeriod_iff _).mp (List.mem_of_getElem? (expPeriod_getElem? (Nat.mod_lt i (by omega))))

/-- Every nonzero element is a power of the generator (R106). -/
theorem exists_power_generator {x : Byte} (hx : x ≠ 0#8) : ∃ i ≤ 254, power 2#8 i = x := by
  obtain ⟨i, hi⟩ := List.mem_iff_getElem?.mp ((mem_expPeriod_iff x).mpr hx)
  have hlt : i < 255 := by simpa using (List.getElem?_eq_some_iff.mp hi).1
  exact ⟨i, by omega, Option.some.inj ((expPeriod_getElem? hlt).symm.trans hi)⟩

/-! ### The logarithms (R102) -/

theorem recordLogs_getElem?_of_not_mem (xs : List Byte) (i : Nat) (log : List Byte) {x : Byte} (hx : x ∉ xs) :
    (recordLogs xs i log)[x.toNat]? = log[x.toNat]? := by
  induction xs generalizing i log with
  | nil => rfl
  | cons y ys ih =>
    obtain ⟨hy, hys⟩ := not_or.mp (mt List.mem_cons.mpr hx)
    rw [recordLogs, ih _ _ hys, List.getElem?_set_ne (fun h => hy (BitVec.eq_of_toNat_eq h.symm))]

/-- The logarithm of an element is its index, where no later entry writes the same cell. -/
theorem recordLogs_getElem?_of_nodup {xs : List Byte} (hxs : xs.Nodup) {k : Nat} {x : Byte} (hk : xs[k]? = some x)
    (i : Nat) {log : List Byte} (hx : x.toNat < log.length) :
    (recordLogs xs i log)[x.toNat]? = some (BitVec.ofNat 8 (i + k)) := by
  induction xs generalizing i k log with
  | nil => simp at hk
  | cons y ys ih =>
    obtain ⟨hy, hys⟩ := List.nodup_cons.mp hxs
    rw [recordLogs]
    cases k with
    | zero =>
      obtain rfl : y = x := by simpa using hk
      rw [recordLogs_getElem?_of_not_mem _ _ _ hy, List.getElem?_set_self hx]
      rfl
    | succ k =>
      rw [ih hys hk (i + 1) (by simpa using hx), Nat.add_right_comm, Nat.add_assoc]

/-! ### The built tables (R104, R106) -/

/-- EXP[i] is the power i of the generator, at every index of the table. -/
theorem Tables.Built.expAt (h : t.Built) {i : Nat} (hi : i ≤ 509) : t.expAt i = power 2#8 i := by
  obtain ⟨hexp, -⟩ := h
  have hentry : expTable[i]? = some (power 2#8 i) := by
    rw [expTable]
    by_cases hlt : i < 255
    · rw [List.getElem?_append_left (by simpa using hlt), expPeriod_getElem? hlt]
    · rw [List.getElem?_append_right (by simp; omega), expPeriod_length, expPeriod_getElem? (by omega),
        power_generator_sub_255 (by omega)]
  rw [Tables.expAt, hexp, List.getD_eq_getElem?_getD, hentry, Option.getD_some]

/-- LOG[x] is what the build recorded, at every index but 0. -/
theorem Tables.Built.log_getElem? (h : t.Built) {x : Byte} (hx : x ≠ 0#8) :
    t.log[x.toNat]? = (recordLogs expPeriod 0 Tables.unbuilt.log)[x.toNat]? := by
  obtain ⟨k, hk⟩ := Nat.exists_eq_succ_of_ne_zero (show x.toNat ≠ 0 from fun e => hx (BitVec.eq_of_toNat_eq e))
  obtain ⟨-, hlog⟩ := h
  have htail : t.log.tail[k]? = logPeriod[k]? := by rw [hlog]
  simpa [logPeriod, hk] using htail

/-- LOG of a power of the generator is its exponent. -/
theorem Tables.Built.logAt_power (h : t.Built) {i : Nat} (hi : i ≤ 254) : t.logAt (power 2#8 i) = i := by
  rw [Tables.logAt, List.getD_eq_getElem?_getD, h.log_getElem? (power_generator_ne_zero i),
    recordLogs_getElem?_of_nodup expPeriod_nodup (expPeriod_getElem? (by omega)) 0
      (by simpa using (power 2#8 i).isLt), Option.getD_some, Nat.zero_add, BitVec.toNat_ofNat,
    Nat.mod_eq_of_lt (by omega)]

theorem Tables.Built.logAt_le (h : t.Built) {x : Byte} (hx : x ≠ 0#8) : t.logAt x ≤ 254 := by
  obtain ⟨i, hi, rfl⟩ := exists_power_generator hx
  rwa [h.logAt_power hi]

theorem Tables.Built.power_logAt (h : t.Built) {x : Byte} (hx : x ≠ 0#8) : power 2#8 (t.logAt x) = x := by
  obtain ⟨i, hi, rfl⟩ := exists_power_generator hx
  rw [h.logAt_power hi]

/-- Settles O14: the entries of EXP are powers of the generator, whose order is 255, and LOG holds their exponents. -/
theorem tablesAreInverse : Obligations.TablesAreInverse := by
  refine fun t h => ⟨fun i h255 hi => ?_, fun i hi => h.expAt (by omega), fun i hi => ?_,
    fun x hx => ⟨h.logAt_le hx, ?_⟩⟩
  · rw [h.expAt hi, h.expAt (by omega), power_generator_sub_255 h255]
  · rw [h.expAt (by omega), h.logAt_power hi]
  · rw [h.expAt (by have := h.logAt_le hx; omega), h.power_logAt hx]

/-! ### The build and the commands that read the tables (R103, R107, R108) -/

/-- Settles O11: the sequencer's step is `completeBuild`, which leaves the tables built and has no other effect. -/
theorem buildCompletes : Obligations.BuildCompletes := by
  intro s h hn hq
  have hstep : step s = .next (completeBuild s.popTurn) := by
    rw [step_of_sequencer s hn, sequencerTurn_building s.popTurn hq]
  exact ⟨_, hstep, buildTables_built s.tables h.log_length, rfl, completeBuild_busy _, rfl⟩

@[simp] theorem logRead_zero (t : Tables) : logRead t 0#8 = .error .logOfZero := if_pos rfl

theorem logRead_of_ne_zero (t : Tables) {x : Byte} (hx : x ≠ 0#8) : logRead t x = .ok (BitVec.ofNat 8 (t.logAt x)) :=
  if_neg hx

theorem exec_logr (s : State) (d x : GReg) : exec (.logr d x) s = completeG s d (logRead s.tables (s.readG x)) := rfl

/-- Settles O37: the logarithm of a nonzero element is what LOG holds. -/
theorem logrTakesLogarithm : Obligations.LogrTakesLogarithm := by
  refine ⟨encodes_logr, fun s d x h hr => ⟨fun hx => ?_, fun hx => ?_⟩⟩
  · rw [exec_logr, hx, logRead_zero, completeG_error]
  · have hb := h.tables_built hr
    refine ⟨s.tables.logAt (s.readG x), hb.logAt_le hx, hb.power_logAt hx, ?_⟩
    rw [exec_logr, logRead_of_ne_zero _ hx, completeG_ok]

theorem expRead_of_le (t : Tables) {k : Nat} (hk : k ≤ 509) : expRead t k = .ok (t.expAt k) := if_neg (by omega)

theorem expRead_of_gt (t : Tables) {k : Nat} (hk : 509 < k) : expRead t k = .error .rangeError := if_pos hk

theorem exec_expr (s : State) (d : GReg) (k : Nat) : exec (.expr d k) s = completeG s d (expRead s.tables k) := rfl

/-- Settles O38: EXP holds the powers at its indices 0..509, and the command reads no others. -/
theorem exprReadsExponentTable : Obligations.ExprReadsExponentTable := by
  refine ⟨encodes_expr, fun s d k h hr => ⟨fun hk => ?_, fun hk => ?_⟩⟩
  · rw [exec_expr, expRead_of_le _ hk, (h.tables_built hr).expAt hk, completeG_ok]
  · rw [exec_expr, expRead_of_gt _ hk, completeG_error]

end Sys2Proof.Machine
end

section
/-! SUPPORT. The product of GF(256): linear in each operand, and on nonzero elements the sum of exponents of the
generator, so the field laws hold (spec/40_gf_tables.md R100, R101; spec/41_gf_arith.md R122). -/

namespace Sys2Proof.Machine
open Sys2Proof.Spec
variable {w m n : Nat}

/-! ### Maps that are linear over XOR -/

/-- f maps an XOR of words to the XOR of their images: it is linear over GF(2). -/
def XorLinear (f : BitVec m → BitVec n) : Prop := ∀ x y, f (x ^^^ y) = f x ^^^ f y

theorem XorLinear.map_zero {f : BitVec m → BitVec n} (hf : XorLinear f) : f 0#m = 0#n := by
  have h := hf 0#m 0#m
  rwa [BitVec.xor_self, BitVec.xor_self] at h

theorem XorLinear.comp {f : BitVec m → BitVec n} {g : BitVec w → BitVec m} (hf : XorLinear f) (hg : XorLinear g) :
    XorLinear fun x => f (g x) :=
  fun x y => (congrArg f (hg x y)).trans (hf _ _)

/-- The lowest k + 1 bits of a word are its lowest k bits and bit k. -/
theorem setWidth_succ_eq_xor (x : BitVec w) (k : Nat) : (x.setWidth (k + 1)).setWidth w =
    (x.setWidth k).setWidth w ^^^ if x.getLsbD k then BitVec.twoPow w k else 0#w := by
  refine BitVec.eq_of_getLsbD_eq fun i hi => ?_
  have hle : i < k + 1 ↔ i < k ∨ k = i := by omega
  rw [BitVec.getLsbD_xor, apply_ite (BitVec.getLsbD · i)]
  by_cases hk : k = i
  · subst hk
    cases h : x.getLsbD k <;> simp [hi, h, -BitVec.getLsbD_eq_getElem]
  · simp [hle, hk, hi, Ne.symm hk]

/-- Two linear maps that agree on the words with a single bit are equal. -/
theorem XorLinear.eq_of_twoPow {f g : BitVec w → BitVec n} (hf : XorLinear f) (hg : XorLinear g)
    (h : ∀ i < w, f (BitVec.twoPow w i) = g (BitVec.twoPow w i)) (x : BitVec w) : f x = g x := by
  have hlow : ∀ k ≤ w, f ((x.setWidth k).setWidth w) = g ((x.setWidth k).setWidth w) := by
    intro k hk
    induction k with
    | zero => simp [BitVec.of_length_zero, hf.map_zero, hg.map_zero]
    | succ k ih =>
      rw [setWidth_succ_eq_xor, hf, hg, ih (by omega)]
      split
      · rw [h k (by omega)]
      · rw [hf.map_zero, hg.map_zero]
  simpa using hlow w le_rfl

/-- A loop over accumulators whose every round is linear is linear. -/
theorem foldl_xor {α : Type} {f g h : BitVec n → α → BitVec n} (hstep : ∀ a b i, f (a ^^^ b) i = g a i ^^^ h b i)
    (l : List α) (a b : BitVec n) : l.foldl f (a ^^^ b) = l.foldl g a ^^^ l.foldl h b := by
  induction l generalizing a b with
  | nil => rfl
  | cons i l ih => rw [List.foldl_cons, hstep, ih]; rfl

/-! ### The product is linear in each operand -/

theorem xor_xor_xor_comm (a b c d : BitVec n) : a ^^^ b ^^^ (c ^^^ d) = a ^^^ c ^^^ (b ^^^ d) := by
  ac_rfl

/-- Adding u where a bit is set, in the bit and the word together. -/
theorem ite_xor_ite (p q : Bool) (a b u : BitVec n) : (if p ^^ q then a ^^^ b ^^^ u else a ^^^ b) =
    (if p then a ^^^ u else a) ^^^ if q then b ^^^ u else b := by
  cases p <;> cases q
  · rfl
  · exact BitVec.xor_assoc a b u
  · simp only [Bool.true_xor, Bool.not_false, if_true, Bool.false_eq_true, if_false]
    ac_rfl
  · simp [xor_xor_xor_comm]

theorem carryless_linear_left (y : Byte) : XorLinear fun x => carryless x y := by
  intro x x'
  refine foldl_xor (fun a b i => ?_) (List.range 8) 0#15 0#15
  split
  · rw [BitVec.setWidth_xor, BitVec.shiftLeft_xor_distrib, xor_xor_xor_comm]
  · rfl

theorem carryless_linear_right (x : Byte) : XorLinear (carryless x) := by
  intro y y'
  refine foldl_xor (fun a b i => ?_) (List.range 8) 0#15 0#15
  rw [BitVec.getLsbD_xor, ite_xor_ite]

theorem reduce_linear : XorLinear reduce := by
  intro v v'
  rw [reduce, reduce, reduce, ← BitVec.setWidth_xor]
  refine congrArg _ (foldl_xor (fun a b k => ?_) (List.range 7) v v')
  rw [BitVec.getLsbD_xor, ite_xor_ite]

theorem product_linear_left (y : Byte) : XorLinear fun x => product x y := reduce_linear.comp (carryless_linear_left y)

theorem product_linear_right (x : Byte) : XorLinear (product x) := reduce_linear.comp (carryless_linear_right x)

@[simp] theorem product_zero_left (y : Byte) : product 0#8 y = 0#8 := (product_linear_left y).map_zero

@[simp] theorem product_zero_right (x : Byte) : product x 0#8 = 0#8 := (product_linear_right x).map_zero

/-! ### Powers of the generator multiply by adding exponents (R100) -/

/-- The products that fix `product_assoc_generator` by linearity. -/
theorem product_assoc_generator_twoPow : ∀ i j : Fin 8,
    product (product (BitVec.twoPow 8 i) (BitVec.twoPow 8 j)) 2#8 =
      product (BitVec.twoPow 8 i) (product (BitVec.twoPow 8 j) 2#8) := by
  decide +kernel

/-- Doubling a product doubles its second operand: by linearity, it is enough to double products of single bits. -/
theorem product_assoc_generator (x y : Byte) : product (product x y) 2#8 = product x (product y 2#8) := by
  have hdouble : XorLinear fun z => product z 2#8 := product_linear_left 2#8
  refine (hdouble.comp (product_linear_right x)).eq_of_twoPow ((product_linear_right x).comp hdouble) (fun j hj => ?_) y
  refine (hdouble.comp (product_linear_left _)).eq_of_twoPow (product_linear_left _) (fun i hi => ?_) x
  exact product_assoc_generator_twoPow ⟨i, hi⟩ ⟨j, hj⟩

theorem product_one_twoPow : ∀ i : Fin 8, product (BitVec.twoPow 8 i) 1#8 = BitVec.twoPow 8 i := by decide +kernel

theorem product_one_right (x : Byte) : product x 1#8 = x := by
  refine (product_linear_left 1#8).eq_of_twoPow (g := id) (fun _ _ => rfl) (fun i hi => ?_) x
  exact product_one_twoPow ⟨i, hi⟩

theorem power_generator_add (i j : Nat) : power 2#8 (i + j) = product (power 2#8 i) (power 2#8 j) := by
  induction j with
  | zero => exact (product_one_right _).symm
  | succ j ih => rw [← Nat.add_assoc, power, ih, product_assoc_generator, ← power]

/-! ### The field laws (R122) -/

/-- An element is 0 or a power of the generator (R106). -/
theorem eq_zero_or_power_generator (x : Byte) : x = 0#8 ∨ ∃ i, power 2#8 i = x := by
  by_cases hx : x = 0#8
  · exact .inl hx
  · obtain ⟨i, -, hi⟩ := exists_power_generator hx
    exact .inr ⟨i, hi⟩

theorem product_comm (x y : Byte) : product x y = product y x := by
  obtain rfl | ⟨i, rfl⟩ := eq_zero_or_power_generator x
  · simp
  obtain rfl | ⟨j, rfl⟩ := eq_zero_or_power_generator y
  · simp
  rw [← power_generator_add, ← power_generator_add, Nat.add_comm]

theorem product_assoc (x y z : Byte) : product (product x y) z = product x (product y z) := by
  obtain rfl | ⟨i, rfl⟩ := eq_zero_or_power_generator x
  · simp
  obtain rfl | ⟨j, rfl⟩ := eq_zero_or_power_generator y
  · simp
  obtain rfl | ⟨k, rfl⟩ := eq_zero_or_power_generator z
  · simp
  simp only [← power_generator_add, Nat.add_assoc]

theorem product_one_left (x : Byte) : product 1#8 x = x := (product_comm _ _).trans (product_one_right x)

/-- Every nonzero element has an inverse, the complementary power of the generator. -/
theorem exists_product_eq_one {x : Byte} (hx : x ≠ 0#8) : ∃ y, product x y = 1#8 := by
  obtain ⟨i, hi, rfl⟩ := exists_power_generator hx
  refine ⟨power 2#8 (255 - i), ?_⟩
  rw [← power_generator_add, Nat.add_sub_cancel' (by omega), power_generator_255]

theorem product_right_cancel {x y z : Byte} (hz : z ≠ 0#8) (h : product x z = product y z) : x = y := by
  obtain ⟨u, hu⟩ := exists_product_eq_one hz
  rw [← product_one_right x, ← product_one_right y, ← hu, ← product_assoc, ← product_assoc, h]

/-! ### Powers (R124) -/

@[simp] theorem power_zero (x : Byte) : power x 0 = 1#8 := rfl

theorem power_succ (x : Byte) (n : Nat) : power x (n + 1) = product (power x n) x := rfl

theorem power_zero_succ (n : Nat) : power 0#8 (n + 1) = 0#8 := product_zero_right _

theorem power_power_generator (i n : Nat) : power (power 2#8 i) n = power 2#8 (i * n) := by
  induction n with
  | zero => rfl
  | succ n ih => rw [power_succ, ih, ← power_generator_add, Nat.mul_succ]

theorem power_generator_mod (i : Nat) : power 2#8 (i % 255) = power 2#8 i := power_generator_periodic.map_mod_nat i

end Sys2Proof.Machine
end

section
/-! SUPPORT. The bootstrap multiplier and the field functions over the built tables compute in the field, and so do the
commands GADD, GMUL, GMULNT, GDIV, GPOW and GINV (spec/40_gf_tables.md R101; spec/41_gf_arith.md R121-R132). -/

namespace Sys2Proof.Machine
open Sys2Proof.Spec
variable {t : Tables}

/-! ### The bootstrap multiplier (R101) -/

/-- Doubling an element whose bit 7 is 0 needs no reduction. -/
theorem product_ushiftRight_generator (y : Byte) : product (y >>> 1) 2#8 = y >>> 1 <<< 1 := by
  have hbit : ((y >>> 1).setWidth 9 <<< 1).getLsbD 8 = false := by simp
  refine (product_generator (y >>> 1)).trans ?_
  simp only [xtime, hbit, Bool.false_eq_true, if_false]
  exact BitVec.eq_of_getLsbD_eq fun i hi => by
    have hlt : 1 + (i - 1) < 9 := by omega
    simp [hi, hlt]

/-- A byte is its bit 0 and twice its upper bits. -/
theorem eq_bit_zero_xor_double (y : Byte) :
    y = (if y.getLsbD 0 then 1#8 else 0#8) ^^^ product (y >>> 1) 2#8 := by
  rw [product_ushiftRight_generator]
  refine BitVec.eq_of_getLsbD_eq fun i hi => ?_
  rw [BitVec.getLsbD_xor, apply_ite (BitVec.getLsbD · i)]
  cases i with
  | zero => simp
  | succ i => simp [hi, Nat.add_comm 1]

/-- One round of the loop: x · y is x, where bit 0 of y is 1, and 2·x times the upper bits of y. -/
theorem product_eq_round (x y : Byte) :
    product x y = (if y.getLsbD 0 then x else 0#8) ^^^ product (xtime x) (y >>> 1) := by
  calc product x y
      = product x (if y.getLsbD 0 then 1#8 else 0#8) ^^^ product x (product (y >>> 1) 2#8) := by
        rw [← product_linear_right x, ← eq_bit_zero_xor_double]
    _ = (if y.getLsbD 0 then x else 0#8) ^^^ product (xtime x) (y >>> 1) := by
        rw [apply_ite (product x), product_one_right, product_zero_right, product_comm (y >>> 1), ← product_assoc,
          ← product_generator, Config.generator]

/-- The loop adds x · y to the accumulator, if its rounds are enough for the bits of y. -/
theorem gmulNolutLoop_eq {n : Nat} {y : Byte} (hy : y.toNat < 2 ^ n) (x r : Byte) :
    gmulNolutLoop n x y r = r ^^^ product x y := by
  induction n generalizing x y r with
  | zero =>
    obtain rfl : y = 0#8 := BitVec.eq_of_toNat_eq (by simpa using hy)
    simp [gmulNolutLoop]
  | succ n ih =>
    rw [gmulNolutLoop]
    split
    · next h => simp [h]
    · have hshift : (y >>> 1).toNat < 2 ^ n := by
        rw [BitVec.toNat_ushiftRight, Nat.shiftRight_eq_div_pow]
        omega
      rw [ih hshift, product_eq_round x y]
      split <;> simp [BitVec.xor_assoc]

theorem gmulNolut_eq_product (x y : Byte) : gmulNolut x y = product x y :=
  (gmulNolutLoop_eq y.isLt x 0#8).trans (BitVec.zero_xor)

/-! ### The field functions over the built tables (R121-R125) -/

theorem Tables.Built.gmul_eq_product (h : t.Built) (x y : Byte) : gmul t x y = product x y := by
  by_cases hx : x = 0#8
  · simp [hx]
  by_cases hy : y = 0#8
  · simp [hy]
  have hlx := h.logAt_le hx
  have hly := h.logAt_le hy
  rw [gmul_of_ne_zero t hx hy, h.expAt (by omega), power_generator_add, h.power_logAt hx, h.power_logAt hy]

theorem Tables.Built.product_quotient (h : t.Built) (x : Byte) {y : Byte} (hy : y ≠ 0#8) :
    product (quotient t x y) y = x := by
  by_cases hx : x = 0#8
  · simp [quotient, hx]
  have hlx := h.logAt_le hx
  have hly := h.logAt_le hy
  calc product (quotient t x y) y
      = product (power 2#8 (t.logAt x + 255 - t.logAt y)) (power 2#8 (t.logAt y)) := by
        rw [quotient, if_neg hx, h.expAt (by omega), h.power_logAt hy]
    _ = power 2#8 (t.logAt x + 255) := by rw [← power_generator_add, Nat.sub_add_cancel (by omega)]
    _ = x := by rw [power_generator_periodic, h.power_logAt hx]

theorem Tables.Built.product_inverse (h : t.Built) {x : Byte} (hx : x ≠ 0#8) : product x (inverse t x) = 1#8 := by
  have hlx := h.logAt_le hx
  calc product x (inverse t x)
      = product (power 2#8 (t.logAt x)) (power 2#8 (255 - t.logAt x)) := by
        rw [inverse, h.expAt (by omega), h.power_logAt hx]
    _ = 1#8 := by rw [← power_generator_add, Nat.add_sub_cancel' (by omega), power_generator_255]

/-- The power of a nonzero element that gpow reads: its exponent is LOG[x]·n, reduced by the order of the generator. -/
theorem Tables.Built.gpow_eq_power_generator (h : t.Built) {x : Byte} (hx : x ≠ 0#8) (n : Int) :
    gpow t x n = .ok (power 2#8 (((t.logAt x : Int) * n) % 255).toNat) := by
  rw [gpow_of_ne_zero t n hx, h.expAt (by omega)]

theorem gpow_zero_of_neg (t : Tables) {n : Int} (hn : n < 0) : gpow t 0#8 n = .error .inverseOfZero := by
  rw [gpow, if_pos rfl, if_neg (by omega), if_neg (by omega)]

theorem gpow_zero_of_nonneg (t : Tables) (n : Nat) : gpow t 0#8 n = .ok (power 0#8 n) := by
  cases n with
  | zero => rfl
  | succ n => rw [gpow, if_pos rfl, if_pos (by omega), power_zero_succ]

theorem Tables.Built.gpow_of_nonneg (h : t.Built) (x : Byte) (n : Nat) : gpow t x n = .ok (power x n) := by
  by_cases hx : x = 0#8
  · rw [hx, gpow_zero_of_nonneg]
  · have hmod : (((t.logAt x : Int) * n) % 255).toNat = t.logAt x * n % 255 := by
      rw [← Int.natCast_mul]
      omega
    rw [h.gpow_eq_power_generator hx, hmod, power_generator_mod, ← power_power_generator, h.power_logAt hx]

/-- A negative power of a nonzero element is the inverse of the opposite power: the exponents add up to a multiple of
255. -/
theorem Tables.Built.gpow_of_neg (h : t.Built) {x : Byte} (hx : x ≠ 0#8) (n : Nat) :
    ∃ z, gpow t x (-n) = .ok z ∧ product z (power x n) = 1#8 := by
  refine ⟨_, h.gpow_eq_power_generator hx _, ?_⟩
  have hexp : (((t.logAt x : Int) * -n % 255).toNat + t.logAt x * n) % 255 = 0 := by
    rw [Int.mul_neg, ← Int.natCast_mul]
    omega
  calc product (power 2#8 ((t.logAt x : Int) * -n % 255).toNat) (power x n)
      = power 2#8 (((t.logAt x : Int) * -n % 255).toNat + t.logAt x * n) := by
        rw [power_generator_add, ← power_power_generator, h.power_logAt hx]
    _ = 1#8 := by rw [← power_generator_mod, hexp, power_zero]

/-! ### The field laws over the tables (R122, R132) -/

/-- Settles O29: both multipliers are the product of the field, so its laws are theirs. -/
theorem tableProductIsFieldProduct : Obligations.TableProductIsFieldProduct := by
  intro t h
  have hprod := h.gmul_eq_product
  refine ⟨fun x y => (hprod x y).trans (gmulNolut_eq_product x y).symm, hprod, gmul_comm t, fun x y z => ?_,
    fun x y z => ?_, fun x => ?_, gmul_zero_left t⟩
  · simp only [hprod, product_assoc]
  · simp only [hprod, product_linear_right x y z]
  · rw [hprod, product_one_left]

/-- Settles O30: y cancels from the quotient of x · y, and the powers 0 and 255 of x are powers of the generator whose
exponents are multiples of 255. -/
theorem fieldConsistency : Obligations.FieldConsistency := by
  intro t x y h hx hy
  refine ⟨?_, ⟨inverse t x, ginv_of_ne_zero t hx, ?_⟩, h.gpow_of_nonneg x 0, ?_⟩
  · rw [gdiv_of_ne_zero t _ hy, h.gmul_eq_product, product_right_cancel hy (h.product_quotient (product x y) hy)]
  · rw [h.gmul_eq_product, h.product_inverse hx]
  · rw [gpow_of_ne_zero t 255 hx, gpow_of_ne_zero t 0 hx, Int.mul_emod_left, Int.mul_zero, Int.zero_emod]

/-! ### The commands (R126-R131) -/

theorem exec_gadd (s : State) (d x y : GReg) :
    exec (.gadd d x y) s = .next (succeed (s.writeG d (s.readG x ^^^ s.readG y))) := rfl

theorem exec_gmul (s : State) (d x y : GReg) :
    exec (.gmul d x y) s = .next (succeed (s.writeG d (gmul s.tables (s.readG x) (s.readG y)))) := rfl

theorem exec_gmulnt (s : State) (d x y : GReg) :
    exec (.gmulnt d x y) s = .next (succeed (s.writeG d (gmulNolut (s.readG x) (s.readG y)))) := rfl

theorem exec_gdiv (s : State) (d x y : GReg) :
    exec (.gdiv d x y) s = completeG s d (gdiv s.tables (s.readG x) (s.readG y)) := rfl

theorem exec_gpow (s : State) (d x : GReg) (n : Int) :
    exec (.gpow d x n) s = completeG s d (gpow s.tables (s.readG x) n) := rfl

theorem exec_ginv (s : State) (d x : GReg) :
    exec (.ginv d x) s = completeG s d (ginv s.tables (s.readG x)) := rfl

/-- Settles O31: by the row of the map and the command's meaning. -/
theorem gaddAddsInTheField : Obligations.GaddAddsInTheField := ⟨encodes_gadd, exec_gadd⟩

/-- Settles O32: the built tables give the product of the field. -/
theorem gmulMultiplies : Obligations.GmulMultiplies := by
  refine ⟨encodes_gmul, fun s d x y h hr => ?_⟩
  rw [exec_gmul, (h.tables_built hr).gmul_eq_product]

/-- Settles O33: the bootstrap multiplier gives the product of the field. -/
theorem gmulntMultiplies : Obligations.GmulntMultiplies := by
  refine ⟨encodes_gmulnt, fun s d x y => ?_⟩
  rw [exec_gmulnt, gmulNolut_eq_product]

/-- Settles O34: the quotient times the divisor is the dividend. -/
theorem gdivDivides : Obligations.GdivDivides := by
  refine ⟨encodes_gdiv, fun s d x y h hr => ⟨fun hy => ?_, fun hy => ?_⟩⟩
  · rw [exec_gdiv, hy, gdiv_zero, completeG_error]
  · refine ⟨_, (h.tables_built hr).product_quotient (s.readG x) hy, ?_⟩
    rw [exec_gdiv, gdiv_of_ne_zero _ _ hy, completeG_ok]

/-- Settles O35: by the sign of the exponent, and for a negative one by whether the base is 0. -/
theorem gpowRaisesToPower : Obligations.GpowRaisesToPower := by
  refine ⟨encodes_gpow, fun s d x n h hr => ⟨fun hn => ?_, fun hn hx => ?_, fun hn hx => ?_⟩⟩
  · obtain ⟨k, rfl⟩ := Int.eq_ofNat_of_zero_le hn
    rw [exec_gpow, (h.tables_built hr).gpow_of_nonneg, completeG_ok, Int.toNat_natCast]
  · rw [exec_gpow, hx, gpow_zero_of_neg _ hn, completeG_error]
  · obtain ⟨z, hz, hprod⟩ := (h.tables_built hr).gpow_of_neg hx (-n).toNat
    have hneg : -((-n).toNat : Int) = n := by omega
    rw [hneg] at hz
    exact ⟨z, hprod, by rw [exec_gpow, hz, completeG_ok]⟩

/-- Settles O36: the inverse that the built tables give, and the failure for 0. -/
theorem ginvInverts : Obligations.GinvInverts := by
  refine ⟨encodes_ginv, fun s d x h hr => ⟨fun hx => ?_, fun hx => ?_⟩⟩
  · rw [exec_ginv, hx, ginv_zero, completeG_error]
  · refine ⟨_, (h.tables_built hr).product_inverse hx, ?_⟩
    rw [exec_ginv, ginv_of_ne_zero _ hx, completeG_ok]

/-! ### The frame of the commands with a scalar destination -/

/-- Settles O26: by the cases of `CommandResult`; a polynomial destination is shut out. -/
theorem scalarDestinationFrame : Obligations.ScalarDestinationFrame := by
  intro i d s t hd he
  have hctl := exec_keepsControl i he
  cases commandResult_of_exec i he with
  | failed c ht => subst ht; exact ⟨fun _ _ => rfl, fun _ => rfl, fun _ => rfl, hctl, rfl, rfl, rfl⟩
  | scalar d' v hd' _ ht =>
    obtain rfl : d' = d := Option.some.inj (hd'.symm.trans hd)
    subst ht
    refine ⟨fun k hk => ?_, fun _ => rfl, fun _ => rfl, hctl, rfl, rfl, rfl⟩
    rw [succeed_readG, readG_writeG, if_neg hk.symm]
  | poly _ _ _ hg => simp [hg] at hd
  | polys _ _ _ _ _ _ _ hg => simp [hg] at hd

end Sys2Proof.Machine
end

section
/-! SUPPORT. Polynomials by their coefficients: lists joined, mapped and added, and the sums over exponents that make up
products and values (spec/10_state.md R8; spec/42_poly.md R140-R148). -/

namespace Sys2Proof.Machine
open Sys2Proof.Spec

/-! ### XORs of n terms -/

@[simp] theorem xorSum_zero (f : Nat → Byte) : xorSum 0 f = 0#8 := rfl

theorem xorSum_succ (n : Nat) (f : Nat → Byte) : xorSum (n + 1) f = xorSum n f ^^^ f n := by
  simp [xorSum, List.range_succ]

@[simp] theorem xorSum_const_zero (n : Nat) : xorSum n (fun _ => 0#8) = 0#8 := by
  induction n with
  | zero => rfl
  | succ n ih => rw [xorSum_succ, ih, BitVec.xor_self]

theorem xorSum_congr {n : Nat} {f g : Nat → Byte} (h : ∀ i < n, f i = g i) : xorSum n f = xorSum n g := by
  induction n with
  | zero => rfl
  | succ n ih => rw [xorSum_succ, xorSum_succ, ih fun i hi => h i (by omega), h n (by omega)]

theorem xorSum_xor (n : Nat) (f g : Nat → Byte) : xorSum n (fun i => f i ^^^ g i) = xorSum n f ^^^ xorSum n g := by
  induction n with
  | zero => simp
  | succ n ih => rw [xorSum_succ, ih, xor_xor_xor_comm, ← xorSum_succ, ← xorSum_succ]

/-- A sum of which at most one term is not 0. -/
theorem xorSum_ite_eq (n m : Nat) (f : Nat → Byte) :
    xorSum n (fun i => if i = m then f i else 0#8) = if m < n then f m else 0#8 := by
  induction n with
  | zero => rfl
  | succ n ih =>
    rw [xorSum_succ, ih]
    obtain hlt | rfl | hgt := Nat.lt_trichotomy m n
    · simp [hlt, Nat.lt_succ_of_lt hlt, hlt.ne']
    · simp
    · have hn : ¬ m < n + 1 := by omega
      simp [hgt.not_gt, hn, hgt.ne]

/-! ### The coefficients of a list (R8) -/

theorem coeff_eq_getElem? (p : Poly) (j : Nat) : coeff p j = p.reverse[j]?.getD 0#8 := List.getD_eq_getElem?_getD

@[simp] theorem coeff_nil (j : Nat) : coeff [] j = 0#8 := by simp [coeff]

theorem coeff_of_length_le {p : Poly} {j : Nat} (h : p.length ≤ j) : coeff p j = 0#8 :=
  List.getD_eq_default _ _ (by simpa using h)

/-- The coefficients of a list are those of its right part, and above them those of its left part. -/
theorem coeff_append (p q : Poly) (j : Nat) :
    coeff (p ++ q) j = if j < q.length then coeff q j else coeff p (j - q.length) := by
  simp only [coeff_eq_getElem?, List.reverse_append]
  split
  · rw [List.getElem?_append_left (by simpa)]
  · rw [List.getElem?_append_right (by simp; omega), List.length_reverse]

@[simp] theorem coeff_zeros (n j : Nat) : coeff (zeros n) j = 0#8 := by
  by_cases h : j < n <;> simp [coeff_eq_getElem?, zeros, h]

/-- The first entry of a list adds the leading term. -/
theorem coeff_cons (c : Byte) (p : Poly) (j : Nat) :
    coeff (c :: p) j = coeff p j ^^^ if j = p.length then c else 0#8 := by
  rw [← List.singleton_append, coeff_append]
  obtain hlt | rfl | hgt := Nat.lt_trichotomy j p.length
  · simp [hlt, hlt.ne]
  · simp [coeff]
  · have hpos : [c].length ≤ j - p.length := by simp; omega
    simp [hgt.not_gt, hgt.ne', coeff_of_length_le hgt.le, coeff_of_length_le hpos]

theorem coeff_map {f : Byte → Byte} (hf : f 0#8 = 0#8) (p : Poly) (j : Nat) : coeff (p.map f) j = f (coeff p j) := by
  rw [coeff_eq_getElem?, coeff_eq_getElem?, ← List.map_reverse, List.getElem?_map]
  cases p.reverse[j]? <;> simp [hf]

/-- A list is the list of its coefficients, highest first. -/
theorem eq_map_of_coeff {p : Poly} {f : Nat → Byte} (h : ∀ j, coeff p j = f j) :
    p = (List.range p.length).map fun i => f (p.length - 1 - i) := by
  refine List.ext_getElem (by simp) fun i hi _ => ?_
  have hj : p.length - 1 - i < p.reverse.length := by simp; omega
  simp only [List.getElem_map, List.getElem_range, ← h, coeff_eq_getElem?]
  rw [List.getElem?_eq_getElem hj, Option.getD_some, List.getElem_reverse]
  congr 1
  omega

/-! ### Sums (R140) -/

@[simp] theorem coeff_alignRight (n : Nat) (p : Poly) (j : Nat) : coeff (alignRight n p) j = coeff p j := by
  rw [alignRight, coeff_append, coeff_zeros]
  split
  · rfl
  · next h => exact (coeff_of_length_le (by omega)).symm

theorem coeff_zipWith_xor {p q : Poly} (h : p.length = q.length) (j : Nat) :
    coeff (List.zipWith (· ^^^ ·) p q) j = coeff p j ^^^ coeff q j := by
  simp only [coeff_eq_getElem?, List.reverse_zipWith h, List.getElem?_zipWith]
  by_cases hj : j < p.length
  · have hj' : j < q.length := by omega
    simp [hj, hj']
  · have hj' : ¬ j < q.length := by omega
    simp [hj, hj']

@[simp] theorem coeff_padd (p q : Poly) (j : Nat) : coeff (padd p q) j = coeff p j ^^^ coeff q j := by
  rw [padd, coeff_zipWith_xor (by simp), coeff_alignRight, coeff_alignRight]

/-! ### Products (R144) -/

theorem product_xor_left (x x' y : Byte) : product (x ^^^ x') y = product x y ^^^ product x' y :=
  product_linear_left y x x'

/-- A list whose entries are multiplied by c, shifted up by n: the product by c·x^n. -/
theorem coeff_shifted (c : Byte) (q : Poly) (n k : Nat) :
    coeff (q.map (product c) ++ zeros n) k = if n ≤ k then product c (coeff q (k - n)) else 0#8 := by
  rw [coeff_append, zeros_length, coeff_zeros, coeff_map (product_zero_right c)]
  by_cases h : n ≤ k
  · simp [h, h.not_gt]
  · simp [h, Nat.lt_of_not_le h]

@[simp] theorem productCoeff_nil (q : Poly) (k : Nat) : productCoeff [] q k = 0#8 := by
  simp [productCoeff]

/-- The leading term of the first operand, multiplied out: what one round of the convolution and one pass of the division
work with. -/
theorem productCoeff_cons (c : Byte) (p q : Poly) (k : Nat) :
    productCoeff (c :: p) q k = coeff (q.map (product c) ++ zeros p.length) k ^^^ productCoeff p q k := by
  have hterm : ∀ i, product (coeff (c :: p) i) (coeff q (k - i)) =
      (if i = p.length then product c (coeff q (k - i)) else 0#8) ^^^ product (coeff p i) (coeff q (k - i)) := by
    intro i
    rw [coeff_cons, product_xor_left, BitVec.xor_comm]
    split <;> simp
  simp only [productCoeff, hterm]
  rw [xorSum_xor, xorSum_ite_eq, coeff_shifted]
  simp only [Nat.lt_succ_iff]

/-! ### Values (R146) -/

/-- The leading term of a polynomial's value. -/
theorem evalAt_cons (c : Byte) (p : Poly) (y : Byte) :
    evalAt (c :: p) y = evalAt p y ^^^ product c (power y p.length) := by
  have hlow : ∀ i < p.length, product (coeff (c :: p) i) (power y i) = product (coeff p i) (power y i) := fun i hi => by
    simp [coeff_cons, hi.ne]
  rw [evalAt, List.length_cons, xorSum_succ, xorSum_congr hlow, ← evalAt, coeff_cons, coeff_of_length_le le_rfl]
  simp

end Sys2Proof.Machine
end

section
/-! SUPPORT. Over the built tables the convolution, Horner's loop and the synthetic division compute the product, the value
and the quotient and remainder of polynomials, and so do the commands PADD, PSCALE, PMUL, PEVAL and PDIVMOD
(spec/42_poly.md R140-R150). -/

namespace Sys2Proof.Machine
open Sys2Proof.Spec
variable {t : Tables}

/-! ### The polynomial functions over the built tables -/

theorem Tables.Built.pscale_eq (h : t.Built) (p : Poly) (x : Byte) : pscale t p x = p.map fun c => product c x := by
  simp only [pscale, h.gmul_eq_product]

theorem Tables.Built.coeff_convolve (h : t.Built) (p q : Poly) (k : Nat) :
    coeff (convolve t p q) k = productCoeff p q k := by
  induction p with
  | nil => rw [convolve, coeff_zeros, productCoeff_nil]
  | cons c p ih =>
    have hrow : gmul t c = product c := funext (h.gmul_eq_product c)
    rw [convolve, coeff_padd, ih, hrow, productCoeff_cons]

theorem Tables.Built.convolve_eq_productPoly (h : t.Built) (p : Poly) {q : Poly} (hq : q ≠ []) :
    convolve t p q = productPoly p q := by
  have heq := eq_map_of_coeff (h.coeff_convolve p q)
  rwa [convolve_length t p q hq, Nat.sub_sub] at heq

/-- Horner's loop multiplies what it has by the powers of x still to come (R146). -/
theorem Tables.Built.hornerFrom_eq (h : t.Built) (x acc : Byte) (p : Poly) :
    hornerFrom t x acc p = product acc (power x p.length) ^^^ evalAt p x := by
  induction p generalizing acc with
  | nil => simpa [hornerFrom, evalAt] using (product_one_right acc).symm
  | cons c p ih =>
    calc hornerFrom t x acc (c :: p)
        = product (product acc x ^^^ c) (power x p.length) ^^^ evalAt p x := by
          rw [hornerFrom, ih, h.gmul_eq_product]
      _ = product acc (product x (power x p.length)) ^^^ (evalAt p x ^^^ product c (power x p.length)) := by
          rw [product_xor_left, product_assoc, BitVec.xor_assoc, BitVec.xor_comm (evalAt p x)]
      _ = product acc (power x (c :: p).length) ^^^ evalAt (c :: p) x := by
          rw [evalAt_cons, List.length_cons, power_succ, product_comm x]

theorem Tables.Built.horner_eq_evalAt (h : t.Built) (p : Poly) (x : Byte) : horner t p x = evalAt p x := by
  cases p with
  | nil => rfl
  | cons c p => rw [horner, h.hornerFrom_eq, evalAt_cons, BitVec.xor_comm]

/-! ### Synthetic division (R148) -/

/-- XOR into the front adds the list shifted up to the leading coefficients. -/
theorem coeff_xorFront {xs w : Poly} (h : xs.length ≤ w.length) (k : Nat) :
    coeff (xorFront xs w) k = coeff w k ^^^ coeff (xs ++ zeros (w.length - xs.length)) k := by
  induction xs generalizing w with
  | nil => simp [xorFront]
  | cons x xs ih =>
    cases w with
    | nil => simp at h
    | cons y w =>
      have hle : xs.length ≤ w.length := by simpa using h
      have hlen : (xs ++ zeros (w.length - xs.length)).length = w.length := by simp [hle]
      rw [xorFront, coeff_cons, ih hle, xorFront_length, List.length_cons, List.length_cons, Nat.add_sub_add_right,
        List.cons_append, coeff_cons y, coeff_cons x, hlen, xor_xor_xor_comm]
      split <;> simp

/-- What a pass with coefficient c leaves of the working copy w behind it: the rule of `divPass`. -/
def passRest (t : Tables) (tail : Poly) (c : Byte) (w : Poly) : Poly :=
  if c = 0#8 then w else xorFront (tail.map fun b => gmul t b c) w

theorem divPass_succ_cons (t : Tables) (tail : Poly) (n : Nat) (c : Byte) (w : Poly) :
    divPass t tail (n + 1) (c :: w) =
      (c :: (divPass t tail n (passRest t tail c w)).1, (divPass t tail n (passRest t tail c w)).2) := rfl

@[simp] theorem passRest_length (t : Tables) (tail : Poly) (c : Byte) (w : Poly) :
    (passRest t tail c w).length = w.length := by
  rw [passRest]
  split
  · rfl
  · exact xorFront_length _ w

/-- A pass splits the working copy into the multiple of the divisor's tail and what it leaves, for a zero coefficient
too. -/
theorem Tables.Built.coeff_eq_xor_passRest (h : t.Built) (c : Byte) {tail w : Poly} (hle : tail.length ≤ w.length)
    (k : Nat) : coeff w k =
      coeff (tail.map (product c) ++ zeros (w.length - tail.length)) k ^^^ coeff (passRest t tail c w) k := by
  rw [passRest]
  split
  · next hc => simp [hc, coeff_shifted]
  · have hrow : (fun b => gmul t b c) = product c := funext fun b => (h.gmul_eq_product b c).trans (product_comm b c)
    rw [hrow, coeff_xorFront (by simpa), List.length_map, BitVec.xor_comm (coeff w k), ← BitVec.xor_assoc,
      BitVec.xor_self, BitVec.zero_xor]

/-- The first entry of the working copy leads the multiple of a monic divisor that a pass takes off it. -/
theorem Tables.Built.coeff_cons_eq_xor_passRest (h : t.Built) (c : Byte) {tail w : Poly} {n : Nat}
    (hw : w.length = n + tail.length) (k : Nat) : coeff (c :: w) k =
      coeff ((1#8 :: tail).map (product c) ++ zeros n) k ^^^ coeff (passRest t tail c w) k := by
  have hpass := h.coeff_eq_xor_passRest c (tail := tail) (w := w) (by omega) k
  have hrow : (tail.map (product c) ++ zeros n).length = w.length := by simp [hw, Nat.add_comm]
  rw [hw, Nat.add_sub_cancel] at hpass
  rw [List.map_cons, List.cons_append, product_one_right, coeff_cons, coeff_cons, hrow, hpass]
  ac_rfl

/-- As many passes as leave the length of the tail divide by a monic divisor (R150). -/
theorem Tables.Built.coeff_divPass (h : t.Built) {tail w : Poly} {n : Nat} (hw : w.length = n + tail.length) (k : Nat) :
    coeff w k = productCoeff (divPass t tail n w).1 (1#8 :: tail) k ^^^ coeff (divPass t tail n w).2 k := by
  induction n generalizing w with
  | zero => simp [divPass]
  | succ n ih =>
    cases w with
    | nil => simp at hw; omega
    | cons c w =>
      have hlen : w.length = n + tail.length := by rw [List.length_cons] at hw; omega
      have hquo := (divPass_length t tail n (passRest t tail c w) (by simp; omega)).1
      rw [divPass_succ_cons, productCoeff_cons, hquo, BitVec.xor_assoc, ← ih (by simpa using hlen),
        h.coeff_cons_eq_xor_passRest c hlen]

/-- dividend = quotient · divisor + remainder (R150). -/
theorem Tables.Built.coeff_divide (h : t.Built) {a b : Poly} (hb : b.head? = some 1#8) (hle : b.length - 1 ≤ a.length)
    (k : Nat) : coeff a k = productCoeff (divide t a b).1 b k ^^^ coeff (divide t a b).2 k := by
  obtain ⟨tail, rfl⟩ := List.head?_eq_some_iff.mp hb
  simp only [List.length_cons, Nat.add_sub_cancel] at hle
  exact h.coeff_divPass (by simp; omega) k

/-! ### The checks of the commands (R145, R147, R149) -/

theorem pmulChecked_of_illegal (t : Tables) {p q : Poly}
    (h : p.length = 0 ∨ q.length = 0 ∨ 512 < p.length + q.length - 1) : pmulChecked t p q = .error .rangeError := by
  by_cases hempty : p.length = 0 ∨ q.length = 0
  · exact if_pos hempty
  · rw [pmulChecked, if_neg hempty, if_pos (show 512 < _ by tauto)]

theorem pmulChecked_of_legal (t : Tables) {p q : Poly} (hp : p.length ≠ 0) (hq : q.length ≠ 0)
    (hlen : p.length + q.length - 1 ≤ 512) : pmulChecked t p q = .ok (convolve t p q) := by
  have hempty : ¬ (p.length = 0 ∨ q.length = 0) := by tauto
  rw [pmulChecked, if_neg hempty, if_neg (show ¬ 512 < _ by omega), pmul, if_neg hempty]

theorem peval_of_empty (t : Tables) {p : Poly} (x : Byte) (h : p.length = 0) : peval t p x = .error .rangeError :=
  if_pos h

theorem pdivmod_of_illegal (t : Tables) {a b : Poly} (h : b.length = 0 ∨ a.length < b.length - 1) :
    pdivmod t a b = .error .rangeError := by
  by_cases hb : b.length = 0
  · exact if_pos hb
  · rw [pdivmod, if_neg hb, if_pos (by tauto)]

theorem pdivmod_of_not_monic (t : Tables) {a b : Poly} (hb : b.length ≠ 0) (hle : b.length - 1 ≤ a.length)
    (hmonic : b.head? ≠ some 1#8) : pdivmod t a b = .error .nonMonicDivisor := by
  rw [pdivmod, if_neg hb, if_neg (by omega), if_pos hmonic]

/-! ### The commands (R141-R149) -/

theorem State.Inv.poly_length_le {s : State} (h : s.Inv) (k : PReg) : (s.poly k).length ≤ Config.pmax :=
  (poly_length s k).trans_le (h.plen_legal k)

theorem exec_padd (s : State) (d p q : PReg) :
    exec (.padd d p q) s = completeP s d (.ok (padd (s.poly p) (s.poly q))) := rfl

theorem exec_pscale (s : State) (d p : PReg) (x : GReg) :
    exec (.pscale d p x) s = completeP s d (.ok (pscale s.tables (s.poly p) (s.readG x))) := rfl

theorem exec_pmul (s : State) (d p q : PReg) :
    exec (.pmul d p q) s = completeP s d (pmulChecked s.tables (s.poly p) (s.poly q)) := rfl

theorem exec_peval (s : State) (d : GReg) (p : PReg) (x : GReg) :
    exec (.peval d p x) s = completeG s d (peval s.tables (s.poly p) (s.readG x)) := rfl

theorem exec_pdivmod_self (s : State) (q a b : PReg) :
    exec (.pdivmod q q a b) s = .next (raiseFail s .operandConflict) :=
  congrArg (completePP s q q) (if_pos rfl)

theorem exec_pdivmod_of_ne (s : State) {q r : PReg} (a b : PReg) (h : q ≠ r) :
    exec (.pdivmod q r a b) s = completePP s q r (pdivmod s.tables (s.poly a) (s.poly b)) :=
  congrArg (completePP s q r) (if_neg h)

/-- Settles O39: by the coefficients of the sum, which is no longer than its operands. -/
theorem paddAddsPolynomials : Obligations.PaddAddsPolynomials := by
  refine ⟨encodes_padd, fun s d p q h => ?_⟩
  have hlen : (padd (s.poly p) (s.poly q)).length ≤ Config.pmax := by
    rw [padd_length]
    exact max_le (h.poly_length_le p) (h.poly_length_le q)
  have heq := eq_map_of_coeff (coeff_padd (s.poly p) (s.poly q))
  rw [padd_length] at heq
  rw [exec_padd, completeP_ok s d _ hlen, ← heq]

/-- Settles O40: the result is as long as the operand, and the built tables give the product of the field. -/
theorem pscaleScalesPolynomial : Obligations.PscaleScalesPolynomial := by
  refine ⟨encodes_pscale, fun s d p x h hr => ?_⟩
  have hlen : (pscale s.tables (s.poly p) (s.readG x)).length ≤ Config.pmax :=
    (pscale_length _ _ _).trans_le (h.poly_length_le p)
  rw [exec_pscale, completeP_ok s d _ hlen, (h.tables_built hr).pscale_eq]

/-- Settles O41: the convolution has the coefficients of the product. -/
theorem pmulMultipliesPolynomials : Obligations.PmulMultipliesPolynomials := by
  refine ⟨encodes_pmul, fun s d p q h hr => ⟨fun hbad => ?_, fun hp hq hlen => ?_⟩⟩
  · rw [exec_pmul, pmulChecked_of_illegal _ hbad, completeP_error]
  · have hne : s.poly q ≠ [] := List.length_pos_iff.mp (Nat.pos_of_ne_zero hq)
    have hfit := (convolve_length s.tables (s.poly p) (s.poly q) hne).trans_le hlen
    rw [exec_pmul, pmulChecked_of_legal _ hp hq hlen, completeP_ok s d _ hfit,
      (h.tables_built hr).convolve_eq_productPoly _ hne]

/-- Settles O42: Horner's loop gives the value. -/
theorem pevalEvaluates : Obligations.PevalEvaluates := by
  refine ⟨encodes_peval, fun s d p x h hr => ⟨fun hp => ?_, fun hp => ?_⟩⟩
  · rw [exec_peval, peval_of_empty _ _ hp, completeG_error]
  · have hne : s.poly p ≠ [] := List.length_pos_iff.mp (Nat.pos_of_ne_zero hp)
    rw [exec_peval, peval_of_ne_nil _ _ _ hne, completeG_ok, (h.tables_built hr).horner_eq_evalAt]

/-- Settles O43: the checks in their order, and the law of division for the operands that pass them. -/
theorem pdivmodDivides : Obligations.PdivmodDivides := by
  refine ⟨encodes_pdivmod, fun s q r a b h hr => ⟨?_, fun hne hbad => ?_, fun hne hb hle hmonic => ?_,
    fun hne hle hmonic => ?_⟩⟩
  · rintro rfl
    exact exec_pdivmod_self s q a b
  · rw [exec_pdivmod_of_ne s a b hne, pdivmod_of_illegal _ hbad, completePP_error]
  · rw [exec_pdivmod_of_ne s a b hne, pdivmod_of_not_monic _ hb hle hmonic, completePP_error]
  · have hnil : s.poly b ≠ [] := fun e => by simp [e] at hmonic
    have hpos := List.length_pos_iff.mpr hnil
    have hla := h.poly_length_le a
    have hlb := h.poly_length_le b
    obtain ⟨hquo, hrem⟩ := divide_length s.tables (s.poly a) (s.poly b) hnil hle
    refine ⟨_, _, ?_, hquo, hrem, (h.tables_built hr).coeff_divide hmonic hle⟩
    rw [exec_pdivmod_of_ne s a b hne, pdivmod_of_monic _ _ _ hmonic hle]
    exact completePP_ok s q r _ _ (hquo.trans_le (by omega)) (hrem.trans_le (by omega))

end Sys2Proof.Machine
end

section
/-! SUPPORT. The checks of the stage commands, and the stages around the error locator: syndromes, Forney syndromes, errata
locator, root search, evaluator and correction, over the built tables (spec/43_decoder_stages.md R160-R173, R176-R179). -/

namespace Sys2Proof.Machine
open Sys2Proof.Spec
variable {t : Tables}

/-! ### The two checks (R160) -/

theorem cwlen_of_long {c : Poly} (h : 255 < c.length) : cwlen c = .error .messageTooLong := if_pos h

theorem cwlen_of_empty {c : Poly} (h : c.length = 0) : cwlen c = .error .rangeError := by
  rw [List.length_eq_zero_iff.mp h]
  rfl

theorem cwlen_of_legal {c : Poly} (h0 : c.length ≠ 0) (h : c.length ≤ 255) : cwlen c = .ok c.length :=
  (if_neg (Nat.not_lt.mpr h)).trans (if_neg h0)

theorem inRange_iff (l : List Byte) (n : Nat) : inRange l n = true ↔ positionsOf l n := by
  simp [inRange, positionsOf]

theorem checkPos_of_legal {l : List Byte} {n : Nat} {distinct : Bool} (h : positionsOf l n)
    (hd : distinct = true → l.Nodup) : checkPos l n distinct = .ok () := by
  have hrange := (inRange_iff l n).mpr h
  have hnodup : ¬ (distinct = true ∧ ¬ l.Nodup) := fun ⟨hdist, hrep⟩ => hrep (hd hdist)
  rw [checkPos, if_neg (by simp [hrange]), if_neg hnodup]

theorem checkPos_of_illegal {l : List Byte} {n : Nat} {distinct : Bool}
    (h : ¬ (positionsOf l n ∧ (distinct = true → l.Nodup))) : checkPos l n distinct = .error .badPosition := by
  rw [checkPos]
  split
  · rfl
  · next hrange =>
    have hpos : positionsOf l n := (inRange_iff l n).mp (by simpa using hrange)
    exact if_pos (by tauto)

/-- Of a list that need not be distinct, only the range is checked. -/
theorem checkPos_false_of_illegal {l : List Byte} {n : Nat} (h : ¬ positionsOf l n) :
    checkPos l n false = .error .badPosition := checkPos_of_illegal fun ⟨hpos, _⟩ => h hpos

theorem checkPos_false_of_legal {l : List Byte} {n : Nat} (h : positionsOf l n) : checkPos l n false = .ok () :=
  checkPos_of_legal h nofun

/-! ### The stage functions over the built tables -/

/-- The locator of every position of a codeword, whose length is at most 255 (R13). -/
theorem Tables.Built.locator_eq (h : t.Built) {n : Nat} (hn : n ≤ 255) (p : Byte) :
    locator t n p = locatorOf n p.toNat := h.expAt (by omega)

theorem Tables.Built.syndromes_eq (h : t.Built) (c : Poly) {m : Nat} (hm : m ≤ 254) :
    syndromes t c m = syndromesOf c m := by
  refine congrArg _ (List.map_congr_left fun i hi => ?_)
  have := List.mem_range.mp hi
  rw [h.horner_eq_evalAt, h.expAt (by omega)]

theorem allZero_iff (l : List Byte) : allZero l = true ↔ ∀ x ∈ l, x = 0#8 := by simp [allZero]

/-- The fold of a list of two or more entries makes its first entry from the first two. -/
theorem foldOnce_cons_cons (x a b : Byte) (f : Poly) :
    foldOnce x (a :: b :: f) = (product x a ^^^ b) :: foldOnce x (b :: f) := by
  simp [foldOnce, List.range_succ_eq_map, Nat.succ_le_iff]

theorem Tables.Built.foldPass_eq (h : t.Built) (x : Byte) (f : Poly) : foldPass t x f = foldOnce x f := by
  induction f with
  | nil => rfl
  | cons a f ih =>
    cases f with
    | nil => rfl
    | cons b f => rw [foldPass, foldOnce_cons_cons, ih, h.gmul_eq_product, product_comm]

theorem Tables.Built.forneySynd_eq (h : t.Built) (s : Poly) (era : List Byte) {n : Nat} (hn : n ≤ 255) :
    forneySynd t s era n = era.foldl (fun f p => foldOnce (locatorOf n p.toNat) f) s.tail := by
  simp only [forneySynd, h.locator_eq hn, h.foldPass_eq]

theorem Tables.Built.errataLoc_eq (h : t.Built) (pos : List Byte) {n : Nat} (hn : n ≤ 255) :
    errataLoc t pos n = locatorProduct pos n := by
  simp only [errataLoc, h.locator_eq hn, h.convolve_eq_productPoly _ (List.cons_ne_nil _ _), locatorProduct]

theorem Tables.Built.rootPositions_eq (h : t.Built) (loc : Poly) {n : Nat} (hn : n ≤ 255) :
    rootPositions t loc n = locatedPositions loc n := by
  refine congrArg _ (List.filter_congr fun i hi => ?_)
  have := List.mem_range.mp hi
  rw [h.horner_eq_evalAt, h.expAt (by omega)]

theorem Tables.Built.chienRoots_eq (h : t.Built) (loc : Poly) {n : Nat} (hn : n ≤ 255) :
    chienRoots t loc n = if (locatedPositions loc n).length ≠ loc.length - 1 then .error .couldNotLocateErrors
      else .ok (locatedPositions loc n) := by
  simp only [chienRoots, h.rootPositions_eq loc hn]

/-- A multiple of x^n has no coefficients below x^n. -/
theorem productCoeff_shift_of_lt (p : Poly) {n k : Nat} (hk : k < n) : productCoeff p (1#8 :: zeros n) k = 0#8 := by
  have hterm : ∀ i, product (coeff p i) (coeff (1#8 :: zeros n) (k - i)) = 0#8 := fun i => by
    have hne : k - i ≠ (zeros n).length := by rw [zeros_length]; omega
    rw [coeff_cons, coeff_zeros, if_neg hne, BitVec.xor_zero, product_zero_right]
  simp only [productCoeff, hterm, xorSum_const_zero]

/-- The coefficients of a list, lowest first. -/
theorem reverse_eq_map_coeff (p : Poly) : p.reverse = (List.range p.length).map (coeff p) := by
  refine List.ext_getElem (by simp) fun i hi _ => ?_
  simp only [List.getElem_map, List.getElem_range, coeff, List.getD_eq_getElem _ _ hi]

/-- The remainder by x^(m+1) has the low coefficients of the dividend (R172). -/
theorem Tables.Built.errEval_eq (h : t.Built) {synd l : Poly} {m : Nat} (hs : synd.length = m + 1) (hl : l.length ≠ 0) :
    errEval t synd l m = lowCoefficients synd l m := by
  have hlen := convolve_length t synd.reverse l (List.length_pos_iff.mp (Nat.pos_of_ne_zero hl))
  rw [List.length_reverse, hs] at hlen
  have hle : (1#8 :: zeros (m + 1)).length - 1 ≤ (convolve t synd.reverse l).length := by simp; omega
  have hrem := (divide_length t _ _ (List.cons_ne_nil _ _) hle).2
  rw [List.length_cons, zeros_length, Nat.add_sub_cancel] at hrem
  rw [errEval, reverse_eq_map_coeff, hrem, lowCoefficients]
  refine List.map_congr_left fun i hi => ?_
  rw [← h.coeff_convolve, h.coeff_divide rfl hle, productCoeff_shift_of_lt _ (List.mem_range.mp hi), BitVec.zero_xor]

/-! ### Correction (R176) -/

@[simp] theorem length_foldl_set (l : List (Byte × Byte)) (e : Poly) :
    (l.foldl (fun e pm => e.set pm.1.toNat pm.2) e).length = e.length := by
  induction l generalizing e with
  | nil => rfl
  | cons pm l ih => simp [ih]

/-- Of the entries written to one index, the last stays. -/
theorem getElem?_foldl_set (l : List (Byte × Byte)) (e : Poly) {i : Nat} (hi : i < e.length) :
    (l.foldl (fun e pm => e.set pm.1.toNat pm.2) e)[i]? =
      some ((l.reverse.find? fun pm => decide (pm.1.toNat = i)).elim e[i] Prod.snd) := by
  induction l using List.reverseRecOn with
  | nil => simp [hi]
  | append_singleton l pm ih =>
    rw [List.foldl_append, List.foldl_cons, List.foldl_nil, List.reverse_append, List.reverse_singleton,
      List.singleton_append, List.getElem?_set, ih]
    by_cases hpm : pm.1.toNat = i
    · simp [hpm, hi]
    · simp [hpm]

theorem errorAt_eq_elim (pos mags : List Byte) (i : Nat) : errorAt pos mags i =
    ((pos.zip mags).reverse.find? fun pm => decide (pm.1.toNat = i)).elim 0#8 Prod.snd := by
  rw [errorAt]
  cases (pos.zip mags).reverse.find? fun pm => decide (pm.1.toNat = i) <;> rfl

theorem getElem?_errorVector (pos mags : List Byte) {i n : Nat} (hi : i < n) :
    (errorVector n pos mags)[i]? = some (errorAt pos mags i) := by
  rw [errorVector, getElem?_foldl_set _ _ (by simpa using hi), errorAt_eq_elim]
  simp [zeros]

theorem applyCorr_eq (c : Poly) (pos mags : List Byte) :
    applyCorr c pos mags = (List.range c.length).map fun i => c.getD i 0#8 ^^^ errorAt pos mags i := by
  refine List.ext_getElem (by simp) fun i hi _ => ?_
  rw [applyCorr_length] at hi
  have hvec := getElem?_errorVector pos mags hi
  rw [List.getElem?_eq_getElem (by simpa using hi)] at hvec
  simp only [applyCorr, List.getElem_zipWith, List.getElem_map, List.getElem_range, List.getD_eq_getElem _ _ hi,
    Option.some.inj hvec]

/-! ### Completing a stage command -/

theorem completeP_of_error (s : State) (d : PReg) {r : Except Failure Poly} {e : Failure} (h : r = .error e) :
    completeP s d r = .next (raiseFail s e) := by rw [h, completeP_error]

theorem completeP_of_ok (s : State) (d : PReg) {r : Except Failure Poly} {l : Poly} (h : r = .ok l)
    (hl : l.length ≤ Config.pmax) : completeP s d r = .next (succeed (s.writePoly d l)) := by rw [h, completeP_ok s d l hl]

/-! ### The checks of the commands -/

theorem fsyndChecked_of_length_ne (t : Tables) {synd : Poly} {m : Nat} (h : synd.length ≠ m + 1) (cw : Poly)
    (era : List Byte) : fsyndChecked t synd cw era m = .error .rangeError := if_pos h

theorem chienChecked_of_empty (t : Tables) {loc : Poly} (h : loc.length = 0) (cw : Poly) :
    chienChecked t loc cw = .error .rangeError := if_pos h

theorem eevalChecked_of_illegal (t : Tables) {synd l : Poly} {m : Nat} (h : synd.length ≠ m + 1 ∨ l.length = 0) :
    eevalChecked t synd l m = .error .rangeError := by
  by_cases hs : synd.length ≠ m + 1
  · exact if_pos hs
  · rw [eevalChecked, if_neg hs, if_pos (by tauto)]

theorem eevalChecked_of_legal (t : Tables) {synd l : Poly} {m : Nat} (hs : synd.length = m + 1) (hl : l.length ≠ 0) :
    eevalChecked t synd l m = .ok (errEval t synd l m) := (if_neg (not_not.mpr hs)).trans (if_neg hl)

section CodewordLength
variable {cw : Poly} {e : Failure} (hc : cwlen cw = .error e)
include hc

theorem syndChecked_of_cwlen (m : Nat) : syndChecked t cw m = .error e := by rw [syndChecked, hc]

theorem fsyndChecked_of_cwlen {synd : Poly} {m : Nat} (hs : synd.length = m + 1) (era : List Byte) :
    fsyndChecked t synd cw era m = .error e := by rw [fsyndChecked, if_neg (not_not.mpr hs), hc]

theorem chienChecked_of_cwlen {loc : Poly} (hl : loc.length ≠ 0) : chienChecked t loc cw = .error e := by
  rw [chienChecked, if_neg hl, hc]

theorem plocChecked_of_cwlen (pos : Poly) : plocChecked t pos cw = .error e := by rw [plocChecked, hc]

theorem corrChecked_of_cwlen (pos mags : Poly) : corrChecked cw pos mags = .error e := by rw [corrChecked, hc]

end CodewordLength

theorem syndChecked_of_legal (t : Tables) {cw : Poly} (h0 : cw.length ≠ 0) (hn : cw.length ≤ 255) (m : Nat) :
    syndChecked t cw m = .ok (syndromes t cw m) := by rw [syndChecked, cwlen_of_legal h0 hn]

/-- The checks of FSYND on operands of legal lengths: the erasures must be distinct positions (R163). -/
theorem fsyndChecked_of_lengths (t : Tables) {synd cw : Poly} {m : Nat} (hs : synd.length = m + 1)
    (h0 : cw.length ≠ 0) (hn : cw.length ≤ 255) (era : List Byte) : fsyndChecked t synd cw era m =
      (checkPos era cw.length true).map fun _ => forneySynd t synd era cw.length := by
  rw [fsyndChecked, if_neg (not_not.mpr hs), cwlen_of_legal h0 hn]
  dsimp only
  cases checkPos era cw.length true <;> rfl

theorem plocChecked_of_lengths (t : Tables) {pos cw : Poly} (h0 : cw.length ≠ 0) (hn : cw.length ≤ 255) :
    plocChecked t pos cw = (checkPos pos cw.length false).bind fun _ =>
      if pos.length + 1 > Config.pmax then .error .rangeError else .ok (errataLoc t pos cw.length) := by
  rw [plocChecked, cwlen_of_legal h0 hn]
  dsimp only
  cases checkPos pos cw.length false <;> rfl

theorem chienChecked_of_lengths (t : Tables) {loc cw : Poly} (hl : loc.length ≠ 0) (h0 : cw.length ≠ 0)
    (hn : cw.length ≤ 255) : chienChecked t loc cw = chienRoots t loc cw.length := by
  rw [chienChecked, if_neg hl, cwlen_of_legal h0 hn]

theorem corrChecked_of_lengths {cw pos mags : Poly} (h0 : cw.length ≠ 0) (hn : cw.length ≤ 255)
    (hlen : pos.length = mags.length) :
    corrChecked cw pos mags = (checkPos pos cw.length false).map fun _ => applyCorr cw pos mags := by
  rw [corrChecked, cwlen_of_legal h0 hn]
  dsimp only
  rw [if_neg (not_not.mpr hlen)]
  cases checkPos pos cw.length false <;> rfl

theorem corrChecked_of_length_ne {cw pos mags : Poly} (h0 : cw.length ≠ 0) (hn : cw.length ≤ 255)
    (hlen : pos.length ≠ mags.length) : corrChecked cw pos mags = .error .rangeError := by
  rw [corrChecked, cwlen_of_legal h0 hn]
  exact if_pos hlen

/-! ### The commands (R161-R177) -/

theorem exec_synd (s : State) (d c : PReg) : exec (.synd d c) s =
    complete s ((syndChecked s.tables (s.poly c) s.nsym.toNat).bind fun l => (s.writeSz (allZero l)).storePoly d l) := rfl

theorem exec_fsynd (s : State) (d v c : PReg) :
    exec (.fsynd d v c) s = completeP s d (fsyndChecked s.tables (s.poly v) (s.poly c) s.era s.nsym.toNat) := rfl

theorem exec_chien (s : State) (d l c : PReg) :
    exec (.chien d l c) s = completeP s d (chienChecked s.tables (s.poly l) (s.poly c)) := rfl

theorem exec_ploc (s : State) (d p c : PReg) :
    exec (.ploc d p c) s = completeP s d (plocChecked s.tables (s.poly p) (s.poly c)) := rfl

theorem exec_eeval (s : State) (d v l : PReg) :
    exec (.eeval d v l) s = completeP s d (eevalChecked s.tables (s.poly v) (s.poly l) s.nsym.toNat) := rfl

theorem exec_corr (s : State) (d c p mg : PReg) :
    exec (.corr d c p mg) s = completeP s d (corrChecked (s.poly c) (s.poly p) (s.poly mg)) := rfl

/-- Settles O44: the values of the codeword at the powers, and a flag for whether all are 0. -/
theorem syndComputesSyndromes : Obligations.SyndComputesSyndromes := by
  refine ⟨encodes_synd, fun s d c h hr => ?_⟩
  rw [exec_synd]
  refine ⟨fun hc => ?_, fun hc => ?_, fun h0 hn => ?_⟩
  · rw [syndChecked_of_cwlen (cwlen_of_long hc)]
    rfl
  · rw [syndChecked_of_cwlen (cwlen_of_empty hc)]
    rfl
  · have heq := (h.tables_built hr).syndromes_eq (s.poly c) h.nsym_legal
    have hfit : (syndromesOf (s.poly c) s.nsym.toNat).length ≤ Config.pmax := by
      rw [← heq, syndromes_length]
      exact (Nat.succ_le_succ h.nsym_legal).trans (by decide)
    refine ⟨_, allZero_iff _, ?_⟩
    rw [syndChecked_of_legal _ h0 hn, heq]
    exact congrArg (complete s) (storePoly_ok _ d _ hfit)

/-- Settles O45: the checks in their order, and a pass of the fold for each erasure. -/
theorem fsyndFoldsErasures : Obligations.FsyndFoldsErasures := by
  refine ⟨encodes_fsynd, fun s d v c h hr => ?_⟩
  rw [exec_fsynd]
  refine ⟨fun hv => completeP_of_error s d (fsyndChecked_of_length_ne _ hv _ _),
    fun hv hc => completeP_of_error s d (fsyndChecked_of_cwlen (cwlen_of_long hc) hv _),
    fun hv hc => completeP_of_error s d (fsyndChecked_of_cwlen (cwlen_of_empty hc) hv _), fun hv h0 hn => ?_⟩
  rw [fsyndChecked_of_lengths _ hv h0 hn]
  refine ⟨fun hbad => ?_, fun hpos hnodup => ?_⟩
  · rw [checkPos_of_illegal (by simpa using hbad)]
    rfl
  · have hfit := (forneySynd_length s.tables (s.poly v) s.era (s.poly c).length).trans_le
      ((Nat.sub_le _ _).trans (h.poly_length_le v))
    rw [checkPos_of_legal hpos fun _ => hnodup, ← (h.tables_built hr).forneySynd_eq _ _ hn]
    exact completeP_ok s d _ hfit

/-- Settles O48: the root search over the exponents of the positions, whose number is compared with the degree. -/
theorem chienFindsRoots : Obligations.ChienFindsRoots := by
  refine ⟨encodes_chien, fun s d l c roots h hr hroots => ?_⟩
  rw [exec_chien]
  refine ⟨fun hl => completeP_of_error s d (chienChecked_of_empty _ hl _),
    fun hl hc => completeP_of_error s d (chienChecked_of_cwlen (cwlen_of_long hc) hl),
    fun hl hc => completeP_of_error s d (chienChecked_of_cwlen (cwlen_of_empty hc) hl), fun hl h0 hn => ?_⟩
  have hpos : locatedPositions (s.poly l) (s.poly c).length =
      roots.map fun i => BitVec.ofNat 8 ((s.poly c).length - 1 - i) := by rw [hroots, locatedPositions]
  rw [chienChecked_of_lengths _ hl h0 hn, (h.tables_built hr).chienRoots_eq _ hn, hpos, List.length_map]
  refine ⟨fun hne => completeP_of_error s d (if_pos hne), fun heq => ?_⟩
  have hfit := h.poly_length_le l
  exact completeP_of_ok s d (if_neg (not_not.mpr heq)) (by rw [List.length_map]; omega)

/-- Settles O49: the checks in their order, and the product over the built tables. -/
theorem plocMultipliesFactors : Obligations.PlocMultipliesFactors := by
  refine ⟨encodes_ploc, fun s d p c h hr => ?_⟩
  rw [exec_ploc]
  refine ⟨fun hc => completeP_of_error s d (plocChecked_of_cwlen (cwlen_of_long hc) _),
    fun hc => completeP_of_error s d (plocChecked_of_cwlen (cwlen_of_empty hc) _), fun h0 hn => ?_⟩
  rw [plocChecked_of_lengths _ h0 hn]
  refine ⟨fun hbad => ?_, fun hpos hlen => ?_, fun hpos hlen => ?_⟩
  · rw [checkPos_false_of_illegal hbad]
    rfl
  · rw [checkPos_false_of_legal hpos]
    exact completeP_of_error s d (if_pos (show 512 < _ by omega))
  · have hfit := (errataLoc_length s.tables (s.poly p) (s.poly c).length).trans_le hlen
    rw [checkPos_false_of_legal hpos, ← locatorProduct, ← (h.tables_built hr).errataLoc_eq _ hn]
    exact completeP_of_ok s d (if_neg (show ¬ 512 < _ by omega)) hfit

/-- Settles O50: the remainder by x^(m+1) keeps the low coefficients of the product. -/
theorem eevalKeepsLowCoefficients : Obligations.EevalKeepsLowCoefficients := by
  refine ⟨encodes_eeval, fun s d v l h hr => ?_⟩
  rw [exec_eeval]
  refine ⟨fun hbad => completeP_of_error s d (eevalChecked_of_illegal _ hbad), fun hv hl => ?_⟩
  have hfit : (lowCoefficients (s.poly v) (s.poly l) s.nsym.toNat).length ≤ Config.pmax := by
    rw [lowCoefficients, List.length_map, List.length_range]
    exact (Nat.succ_le_succ h.nsym_legal).trans (by decide)
  rw [eevalChecked_of_legal _ hv hl, (h.tables_built hr).errEval_eq hv hl]
  exact completeP_ok s d _ hfit

/-- Settles O52: the checks in their order, and the error vector whose entries are those last written. -/
theorem corrAppliesErrorVector : Obligations.CorrAppliesErrorVector := by
  refine ⟨encodes_corr, fun s d c p mg h => ?_⟩
  rw [exec_corr]
  refine ⟨fun hc => completeP_of_error s d (corrChecked_of_cwlen (cwlen_of_long hc) _ _),
    fun hc => completeP_of_error s d (corrChecked_of_cwlen (cwlen_of_empty hc) _ _),
    fun h0 hn hlen => completeP_of_error s d (corrChecked_of_length_ne h0 hn hlen), fun h0 hn hlen => ?_⟩
  rw [corrChecked_of_lengths h0 hn hlen]
  refine ⟨fun hbad => ?_, fun hpos => ?_⟩
  · rw [checkPos_false_of_illegal hbad]
    rfl
  · have hfit := (applyCorr_length (s.poly c) (s.poly p) (s.poly mg)).trans_le (h.poly_length_le c)
    rw [checkPos_false_of_legal hpos, ← applyCorr_eq]
    exact completeP_ok s d _ hfit

end Sys2Proof.Machine
end

section
/-! SUPPORT. The error locator: the discrepancy and the iteration over the built tables are those of plain field arithmetic,
what each step keeps of the two polynomials, and the command ELOC (spec/43_decoder_stages.md R164-R166). -/

namespace Sys2Proof.Machine
open Sys2Proof.Spec
variable {t : Tables}

/-! ### The inverse (R125) -/

/-- The search among all elements finds an inverse of a nonzero element. -/
theorem product_inverseOf {x : Byte} (hx : x ≠ 0#8) : product x (inverseOf x) = 1#8 := by
  obtain ⟨y, hy⟩ := exists_product_eq_one hx
  have hmem : y ∈ (List.range 256).map (BitVec.ofNat 8) := List.mem_map.mpr ⟨y.toNat, by simp; omega, by simp⟩
  rw [inverseOf]
  cases hfind : ((List.range 256).map (BitVec.ofNat 8)).find? fun y => decide (product x y = 1#8) with
  | none => exact absurd hy (by simpa using List.find?_eq_none.mp hfind y hmem)
  | some z => simpa using List.find?_some hfind

theorem ne_zero_of_product_eq_one {x y : Byte} (h : product x y = 1#8) : x ≠ 0#8 := by
  rintro rfl
  simp at h

/-- An element has at most one inverse. -/
theorem eq_inverseOf {x y : Byte} (h : product x y = 1#8) : y = inverseOf x := by
  have hx := ne_zero_of_product_eq_one h
  refine product_right_cancel hx ?_
  rw [product_comm, h, product_comm, product_inverseOf hx]

theorem Tables.Built.inverse_eq (h : t.Built) {x : Byte} (hx : x ≠ 0#8) : inverse t x = inverseOf x :=
  eq_inverseOf (h.product_inverse hx)

/-! ### Lists and sums -/

/-- A loop that XORs terms into an accumulator adds their sum. -/
theorem foldl_range_xor (n : Nat) (f : Nat → Byte) (a : Byte) :
    (List.range n).foldl (fun acc i => acc ^^^ f i) a = a ^^^ xorSum n f := by
  induction n with
  | zero => simp
  | succ n ih => rw [List.range_succ, List.foldl_append, ih, xorSum_succ, ← BitVec.xor_assoc]; rfl

/-- An entry counted from the end of a list is a coefficient. -/
theorem getD_length_sub (p : Poly) {j : Nat} (hj : j < p.length) : p.getD (p.length - 1 - j) 0#8 = coeff p j := by
  rw [coeff_eq_getElem?, List.getElem?_reverse hj, List.getD_eq_getElem?_getD]

theorem padd_eq_sumPoly (p q : Poly) : padd p q = sumPoly p q := by
  have heq := eq_map_of_coeff (coeff_padd p q)
  rwa [padd_length] at heq

/-- The last entry of a list is its constant coefficient. -/
theorem getLast?_eq_one_iff (p : Poly) : p.getLast? = some 1#8 ↔ coeff p 0 = 1#8 := by
  rw [coeff_eq_getElem?, ← List.head?_eq_getElem?, List.head?_reverse]
  cases p.getLast? <;> simp

/-! ### One step of the iteration (R164) -/

theorem Tables.Built.discrepancy_eq (h : t.Built) (f err : Poly) (i : Nat) :
    discrepancy t f err i = discrepancyAt f err i := by
  rw [discrepancy, List.range'_eq_map_range, List.foldl_map, foldl_range_xor, discrepancyAt]
  refine congrArg _ (xorSum_congr fun j hj => ?_)
  rw [Nat.add_comm 1 j, getD_length_sub err (by omega), h.gmul_eq_product]

section Step
variable {f : Poly} {st : Locators} {i : Nat}

theorem bmStep_of_zero (hδ : discrepancy t f st.err i = 0#8) :
    bmStep t f st i = { err := st.err, old := st.old ++ [0#8] } := if_pos hδ

/-- The degree-increase rule: old and err swap, scaled. -/
theorem bmStep_of_longer (hδ : discrepancy t f st.err i ≠ 0#8) (hlen : st.err.length < (st.old ++ [0#8]).length) :
    bmStep t f st i =
      { err := padd (pscale t (st.old ++ [0#8]) (discrepancy t f st.err i))
          (pscale t (pscale t st.err (inverse t (discrepancy t f st.err i))) (discrepancy t f st.err i))
        old := pscale t st.err (inverse t (discrepancy t f st.err i)) } :=
  (if_neg hδ).trans (if_pos hlen)

theorem bmStep_of_not_longer (hδ : discrepancy t f st.err i ≠ 0#8)
    (hlen : ¬ st.err.length < (st.old ++ [0#8]).length) : bmStep t f st i =
      { err := padd st.err (pscale t (st.old ++ [0#8]) (discrepancy t f st.err i)), old := st.old ++ [0#8] } :=
  (if_neg hδ).trans (if_neg hlen)

end Step

/-- The pair of polynomials that `Spec.iterationStep` works on. -/
def Locators.toPair (st : Locators) : Poly × Poly := (st.err, st.old)

theorem Tables.Built.toPair_bmStep (h : t.Built) (f : Poly) (st : Locators) (i : Nat) :
    (bmStep t f st i).toPair = iterationStep f st.toPair i := by
  have hδ := h.discrepancy_eq f st.err i
  by_cases hzero : discrepancy t f st.err i = 0#8
  · rw [bmStep_of_zero hzero]
    exact (if_pos (hδ ▸ hzero)).symm
  · have hinv := h.inverse_eq hzero
    by_cases hlen : st.err.length < (st.old ++ [0#8]).length
    · rw [bmStep_of_longer hzero hlen, hinv]
      simp only [padd_eq_sumPoly, h.pscale_eq, hδ]
      exact ((if_neg (hδ ▸ hzero)).trans (if_pos hlen)).symm
    · rw [bmStep_of_not_longer hzero hlen]
      simp only [padd_eq_sumPoly, h.pscale_eq, hδ]
      exact ((if_neg (hδ ▸ hzero)).trans (if_neg hlen)).symm

/-! ### The iteration (R164, R166) -/

theorem bmIterate_succ (t : Tables) (f : Poly) (k : Nat) : bmIterate t f (k + 1) = bmStep t f (bmIterate t f k) k := by
  simp [bmIterate, List.range_succ]

theorem Tables.Built.toPair_bmIterate (h : t.Built) (f : Poly) (k : Nat) :
    (bmIterate t f k).toPair = (List.range k).foldl (iterationStep f) ([1#8], [1#8]) := by
  induction k with
  | zero => rfl
  | succ k ih => rw [bmIterate_succ, h.toPair_bmStep, ih, List.range_succ, List.foldl_append]; rfl

theorem Tables.Built.bmLocator_eq (h : t.Built) (f : Poly) (nu m : Nat) : bmLocator t f nu m =
    if 2 * ((errorLocator f (m - nu)).length - 1) + nu > m then .error .tooManyErrors
    else .ok (errorLocator f (m - nu)) := by
  have heq : stripZeros (bmIterate t f (m - nu)).err = errorLocator f (m - nu) := by
    rw [errorLocator, ← h.toPair_bmIterate]
    rfl
  simp only [bmLocator, heq]

/-- What step i keeps (R166): both polynomials have at most i + 1 coefficients, and the constant one of err is 1. -/
structure Locators.Bounded (st : Locators) (i : Nat) : Prop where
  err_length : st.err.length ≤ i + 1
  old_length : st.old.length ≤ i + 1
  err_last : coeff st.err 0 = 1#8

theorem coeff_zero_append_zero (p : Poly) : coeff (p ++ [0#8]) 0 = 0#8 := by
  rw [coeff_append]
  rfl

theorem Tables.Built.coeff_pscale (h : t.Built) (p : Poly) (x : Byte) (j : Nat) :
    coeff (pscale t p x) j = product (coeff p j) x := by
  rw [h.pscale_eq, coeff_map (product_zero_left x)]

theorem Tables.Built.bmStep_bounded (h : t.Built) (f : Poly) {st : Locators} {i : Nat} (hst : st.Bounded i) :
    (bmStep t f st i).Bounded (i + 1) := by
  obtain ⟨herr, hold, hlast⟩ := hst
  have hshift : (st.old ++ [0#8]).length ≤ i + 1 + 1 := by simpa using hold
  by_cases hzero : discrepancy t f st.err i = 0#8
  · rw [bmStep_of_zero hzero]
    exact ⟨Nat.le_succ_of_le herr, hshift, hlast⟩
  · by_cases hlen : st.err.length < (st.old ++ [0#8]).length
    · rw [bmStep_of_longer hzero hlen]
      refine ⟨?_, ?_, ?_⟩
      · rw [padd_length, pscale_length, pscale_length, pscale_length]
        exact max_le hshift (Nat.le_succ_of_le herr)
      · exact (pscale_length _ _ _).trans_le (Nat.le_succ_of_le herr)
      · rw [coeff_padd, h.coeff_pscale, h.coeff_pscale, h.coeff_pscale, coeff_zero_append_zero, product_zero_left, hlast,
          product_one_left, product_comm, h.product_inverse hzero, BitVec.zero_xor]
    · rw [bmStep_of_not_longer hzero hlen]
      refine ⟨?_, hshift, ?_⟩
      · rw [padd_length, pscale_length]
        exact max_le (Nat.le_succ_of_le herr) hshift
      · rw [coeff_padd, h.coeff_pscale, coeff_zero_append_zero, product_zero_left, hlast, BitVec.xor_zero]

theorem Tables.Built.bmIterate_bounded (h : t.Built) (f : Poly) (k : Nat) : (bmIterate t f k).Bounded k := by
  induction k with
  | zero => exact ⟨le_rfl, le_rfl, rfl⟩
  | succ k ih => rw [bmIterate_succ]; exact h.bmStep_bounded f ih

/-! ### What the iteration reads (R166) -/

theorem discrepancy_congr (t : Tables) {f f' : Poly} {i : Nat} (hf : ∀ j ≤ i, f.getD j 0#8 = f'.getD j 0#8) (err : Poly) :
    discrepancy t f err i = discrepancy t f' err i := by
  rw [discrepancy, discrepancy, hf i le_rfl]
  exact congrArg (fun g => List.foldl g _ _) (funext₂ fun delta j => by rw [hf (i - j) (Nat.sub_le i j)])

theorem bmStep_congr (t : Tables) {f f' : Poly} {i : Nat} (hf : ∀ j ≤ i, f.getD j 0#8 = f'.getD j 0#8) (st : Locators) :
    bmStep t f st i = bmStep t f' st i := by
  simp only [bmStep, discrepancy_congr t hf]

/-- k steps read the first k entries. -/
theorem bmIterate_congr (t : Tables) {f f' : Poly} {k : Nat} (hf : ∀ j < k, f.getD j 0#8 = f'.getD j 0#8) :
    bmIterate t f k = bmIterate t f' k := by
  induction k with
  | zero => rfl
  | succ k ih =>
    rw [bmIterate_succ, bmIterate_succ, ih fun j hj => hf j (by omega), bmStep_congr t fun j hj => hf j (by omega)]

theorem getD_eq_of_take_eq {f f' : Poly} {k j : Nat} (h : f.take k = f'.take k) (hj : j < k) :
    f.getD j 0#8 = f'.getD j 0#8 := by
  rw [List.getD_eq_getElem?_getD, List.getD_eq_getElem?_getD, ← List.getElem?_take_of_lt hj, h,
    List.getElem?_take_of_lt hj]

/-! ### The result of the iteration -/

theorem head?_stripZeros (p : Poly) : (stripZeros p).head? ≠ some 0#8 := by
  intro h
  have hnot := List.head?_dropWhile_not (· == 0#8) p
  rw [stripZeros] at h
  simp [h] at hnot

/-- Stripping stops at the last entry at the latest, if that is not 0. -/
theorem getLast?_stripZeros {p : Poly} (h : p.getLast? = some 1#8) : (stripZeros p).getLast? = some 1#8 := by
  obtain ⟨q, rfl⟩ := List.getLast?_eq_some_iff.mp h
  rw [stripZeros, List.dropWhile_append]
  split
  · rfl
  · simp

theorem bmLocator_eq_ok {f loc : Poly} {nu m : Nat} (h : bmLocator t f nu m = .ok loc) :
    loc = stripZeros (bmIterate t f (m - nu)).err ∧ 2 * (loc.length - 1) + nu ≤ m := by
  rw [bmLocator] at h
  split at h
  · cases h
  · next hle =>
    cases h
    exact ⟨rfl, Nat.not_lt.mp hle⟩

/-- Settles O47: the bounds that every step keeps, and the entries that the steps read. -/
theorem locatorProperties : Obligations.LocatorProperties := by
  have hlast : ∀ (t : Tables) (f : Poly) (i : Nat), t.Built → (bmIterate t f i).err.getLast? = some 1#8 :=
    fun t f i h => (getLast?_eq_one_iff _).mpr (h.bmIterate_bounded f i).err_last
  refine ⟨fun t f nu m loc h hloc => ?_, fun t f i h => ⟨(h.bmIterate_bounded f i).err_length, hlast t f i h⟩,
    fun t f f' k htake => bmIterate_congr t fun j hj => getD_eq_of_take_eq htake hj, fun t f m => ?_⟩
  · obtain ⟨rfl, hle⟩ := bmLocator_eq_ok hloc
    exact ⟨getLast?_stripZeros (hlast t f _ h), head?_stripZeros _, hle⟩
  · rw [bmLocator, Nat.sub_self]
    exact if_neg (by simp [bmIterate, stripZeros])

/-! ### The command (R165) -/

theorem elocChecked_of_length_ne (t : Tables) {f : Poly} {m : Nat} (h : f.length ≠ m) (nu : Nat) :
    elocChecked t f nu m = .error .rangeError := if_pos h

theorem elocChecked_of_erasures (t : Tables) {f : Poly} {nu m : Nat} (hf : f.length = m) (hnu : m < nu) :
    elocChecked t f nu m = .error .tooManyErasures := (if_neg (not_not.mpr hf)).trans (if_pos hnu)

theorem elocChecked_of_legal (t : Tables) {f : Poly} {nu m : Nat} (hf : f.length = m) (hnu : nu ≤ m) :
    elocChecked t f nu m = bmLocator t f nu m := (if_neg (not_not.mpr hf)).trans (if_neg (Nat.not_lt.mpr hnu))

theorem exec_eloc (s : State) (d f : PReg) :
    exec (.eloc d f) s = completeP s d (elocChecked s.tables (s.poly f) s.elen.toNat s.nsym.toNat) := rfl

/-- Settles O46: the checks in their order, and the iteration over the built tables. -/
theorem elocWritesLocator : Obligations.ElocWritesLocator := by
  refine ⟨encodes_eloc, fun s d f loc h hr hloc => ?_⟩
  rw [exec_eloc]
  refine ⟨fun hf => completeP_of_error s d (elocChecked_of_length_ne _ hf _),
    fun hf hnu => completeP_of_error s d (elocChecked_of_erasures _ hf hnu), fun hf hnu => ?_⟩
  rw [elocChecked_of_legal _ hf hnu, (h.tables_built hr).bmLocator_eq, ← hloc]
  refine ⟨fun hlong => completeP_of_error s d (if_pos hlong), fun hle => ?_⟩
  have hm := h.nsym_legal
  exact completeP_of_ok s d (if_neg (Nat.not_lt.mpr hle)) (show _ ≤ 512 by omega)

end Sys2Proof.Machine
end

section
/-! SUPPORT. The Forney magnitudes: the derivative product vanishes exactly where a position is repeated, and the command
FMAG (spec/43_decoder_stages.md R174, R175). -/

namespace Sys2Proof.Machine
open Sys2Proof.Spec
variable {t : Tables}

/-! ### Products and locators -/

theorem product_eq_zero_iff (x y : Byte) : product x y = 0#8 ↔ x = 0#8 ∨ y = 0#8 := by
  refine ⟨fun h => or_iff_not_imp_right.mpr fun hy => ?_, ?_⟩
  · exact product_right_cancel hy (h.trans (product_zero_left y).symm)
  · rintro (rfl | rfl) <;> simp

theorem productOf_succ (n : Nat) (f : Nat → Byte) : productOf (n + 1) f = product (productOf n f) (f n) := by
  simp [productOf, List.range_succ]

theorem productOf_eq_zero_iff (n : Nat) (f : Nat → Byte) : productOf n f = 0#8 ↔ ∃ i < n, f i = 0#8 := by
  induction n with
  | zero => simp [productOf]
  | succ n ih => rw [productOf_succ, product_eq_zero_iff, ih, Nat.exists_lt_succ_right]

theorem productOf_congr {n : Nat} {f g : Nat → Byte} (h : ∀ i < n, f i = g i) : productOf n f = productOf n g := by
  induction n with
  | zero => rfl
  | succ n ih => rw [productOf_succ, productOf_succ, ih fun i hi => h i (by omega), h n (by omega)]

theorem power_generator_inj {i j : Nat} (hi : i < 255) (hj : j < 255) (h : power 2#8 i = power 2#8 j) : i = j := by
  refine (List.getElem?_inj (by simpa using hi) expPeriod_nodup).mp ?_
  rw [expPeriod_getElem? hi, expPeriod_getElem? hj, h]

/-- The locators of distinct positions of a codeword are distinct (R13). -/
theorem locatorOf_inj {n p q : Nat} (hn : n ≤ 255) (hp : p < n) (hq : q < n) (h : locatorOf n p = locatorOf n q) :
    p = q := by
  have := power_generator_inj (by omega) (by omega) h
  omega

theorem locatorOf_ne_zero (n p : Nat) : locatorOf n p ≠ 0#8 := power_generator_ne_zero _

/-- A factor of the derivative product vanishes where the two locators are equal. -/
theorem one_xor_product_inverseOf_eq_zero_iff {x y : Byte} (hx : x ≠ 0#8) :
    1#8 ^^^ product (inverseOf x) y = 0#8 ↔ y = x := by
  rw [BitVec.xor_eq_zero_iff]
  constructor
  · intro h
    rw [← product_one_left y, ← product_inverseOf hx, product_assoc, ← h, product_one_right]
  · rintro rfl
    rw [product_comm, product_inverseOf hx]

/-! ### The derivative product (R174) -/

/-- The locator of entry j of a position list. -/
def locatorAt (pos : List Byte) (n j : Nat) : Byte := locatorOf n (pos.getD j 0#8).toNat

/-- The product of 1 ^ X(i)^-1·X(j) over j ≠ i. -/
def derivativeAt (pos : List Byte) (n i : Nat) : Byte :=
  productOf pos.length fun j => if j = i then 1#8 else 1#8 ^^^ product (inverseOf (locatorAt pos n i)) (locatorAt pos n j)

theorem magnitudeOf_eq (ev : Poly) (pos : List Byte) (n i : Nat) : magnitudeOf ev pos n i =
    product (product (locatorAt pos n i) (evalAt ev.reverse (inverseOf (locatorAt pos n i))))
      (inverseOf (derivativeAt pos n i)) := rfl

theorem Tables.Built.getD_map_locator (h : t.Built) {pos : List Byte} {n : Nat} (hn : n ≤ 255) {j : Nat}
    (hj : j < pos.length) : (pos.map (locator t n)).getD j 0#8 = locatorAt pos n j := by
  rw [locatorAt, List.getD_eq_getElem _ _ (by simpa using hj), List.getElem_map, h.locator_eq hn,
    List.getD_eq_getElem _ _ hj]

/-- The loop of `derivProduct` skips j = i, which is a factor 1 of the product. -/
theorem Tables.Built.derivProduct_eq (h : t.Built) (xs : List Byte) (i : Nat) (xInv : Byte) : derivProduct t xs i xInv =
    productOf xs.length fun j => if j = i then 1#8 else 1#8 ^^^ product xInv (xs.getD j 0#8) := by
  refine congrArg (fun g => List.foldl g 1#8 _) (funext₂ fun prime j => ?_)
  by_cases hji : j = i
  · simp only [hji, if_true, product_one_right]
  · simp only [hji, if_false, h.gmul_eq_product]

/-- The derivative product of entry i is 0 where another entry holds the same position. -/
theorem derivativeAt_eq_zero_iff {pos : List Byte} {n i : Nat} (hn : n ≤ 255) (hpos : positionsOf pos n)
    (hi : i < pos.length) : derivativeAt pos n i = 0#8 ↔ ∃ j < pos.length, j ≠ i ∧ pos[j]? = pos[i]? := by
  rw [derivativeAt, productOf_eq_zero_iff]
  refine exists_congr fun j => and_congr_right fun hj => ?_
  split
  · next hji => simp [hji]
  · next hji =>
    have hx : locatorAt pos n i ≠ 0#8 := locatorOf_ne_zero _ _
    rw [one_xor_product_inverseOf_eq_zero_iff hx, List.getElem?_eq_getElem hi, List.getElem?_eq_getElem hj,
      Option.some_inj, locatorAt, locatorAt, List.getD_eq_getElem _ _ hi, List.getD_eq_getElem _ _ hj]
    refine ⟨fun heq => ⟨hji, BitVec.eq_of_toNat_eq ?_⟩, fun ⟨_, heq⟩ => by rw [heq]⟩
    exact locatorOf_inj hn (hpos _ (List.getElem_mem hj)) (hpos _ (List.getElem_mem hi)) heq

theorem derivativeAt_ne_zero {pos : List Byte} {n i : Nat} (hn : n ≤ 255) (hpos : positionsOf pos n)
    (hnodup : pos.Nodup) (hi : i < pos.length) : derivativeAt pos n i ≠ 0#8 := by
  rw [ne_eq, derivativeAt_eq_zero_iff hn hpos hi]
  rintro ⟨j, hj, hne, heq⟩
  exact hne ((List.getElem?_inj hj hnodup).mp heq)

theorem exists_derivativeAt_eq_zero {pos : List Byte} {n : Nat} (hn : n ≤ 255) (hpos : positionsOf pos n)
    (hrep : ¬ pos.Nodup) : ∃ i < pos.length, derivativeAt pos n i = 0#8 := by
  simp only [List.nodup_iff_getElem?_ne_getElem?, not_forall, not_not] at hrep
  obtain ⟨i, j, hij, hj, heq⟩ := hrep
  have hi := hij.trans hj
  exact ⟨i, hi, (derivativeAt_eq_zero_iff hn hpos hi).mpr ⟨j, hj, hij.ne', heq.symm⟩⟩

/-! ### The magnitudes (R174) -/

theorem Tables.Built.quotient_eq (h : t.Built) (y : Byte) {x : Byte} (hx : x ≠ 0#8) :
    quotient t y x = product y (inverseOf x) := by
  refine product_right_cancel hx ?_
  rw [h.product_quotient y hx, product_assoc, product_comm _ x, product_inverseOf hx, product_one_right]

theorem Tables.Built.magnitudeAt_eq (h : t.Built) (ev : Poly) {pos : List Byte} {n i : Nat} (hn : n ≤ 255)
    (hi : i < pos.length) : magnitudeAt t ev (pos.map (locator t n)) i =
      if derivativeAt pos n i = 0#8 then .error .cannotComputeMagnitude else .ok (magnitudeOf ev pos n i) := by
  have hx : locatorAt pos n i ≠ 0#8 := locatorOf_ne_zero _ _
  have hderiv : derivProduct t (pos.map (locator t n)) i (inverseOf (locatorAt pos n i)) = derivativeAt pos n i := by
    rw [h.derivProduct_eq, List.length_map]
    exact productOf_congr fun j hj => by rw [h.getD_map_locator hn hj]
  simp only [magnitudeAt, h.getD_map_locator hn hi, h.inverse_eq hx, hderiv]
  split
  · rfl
  · next hne => rw [h.quotient_eq _ hne, h.gmul_eq_product, h.horner_eq_evalAt, magnitudeOf_eq]

/-- The magnitudes, where every entry has one. -/
theorem magnitudes_of_ok {ev : Poly} {xs : List Byte} {is : List Nat} {f : Nat → Byte}
    (h : ∀ i ∈ is, magnitudeAt t ev xs i = .ok (f i)) : magnitudes t ev xs is = .ok (is.map f) := by
  induction is with
  | nil => rfl
  | cons i is ih =>
    rw [magnitudes, h i List.mem_cons_self, ih fun j hj => h j (List.mem_cons_of_mem i hj)]
    rfl

theorem magnitudeAt_cases (t : Tables) (ev : Poly) (xs : List Byte) (i : Nat) :
    magnitudeAt t ev xs i = .error .cannotComputeMagnitude ∨ ∃ y, magnitudeAt t ev xs i = .ok y := by
  rw [magnitudeAt]
  split
  · exact .inl rfl
  · exact .inr ⟨_, rfl⟩

/-- One entry without a magnitude fails the list. -/
theorem magnitudes_of_error {ev : Poly} {xs : List Byte} {is : List Nat} {i : Nat} (hi : i ∈ is)
    (h : magnitudeAt t ev xs i = .error .cannotComputeMagnitude) :
    magnitudes t ev xs is = .error .cannotComputeMagnitude := by
  induction is with
  | nil => exact absurd hi List.not_mem_nil
  | cons j is ih =>
    rw [magnitudes]
    rcases magnitudeAt_cases t ev xs j with hj | ⟨y, hj⟩
    · rw [hj]
    · have hmem : i ∈ is := (List.mem_cons.mp hi).resolve_left fun hij => by simp [← hij, h] at hj
      rw [hj, ih hmem]

theorem Tables.Built.forneyMag_of_nodup (h : t.Built) (ev : Poly) {pos : List Byte} {n : Nat} (hn : n ≤ 255)
    (hpos : positionsOf pos n) (hnodup : pos.Nodup) :
    forneyMag t ev pos n = .ok ((List.range pos.length).map (magnitudeOf ev pos n)) := by
  rw [forneyMag, List.length_map]
  refine magnitudes_of_ok fun i hi => ?_
  have hi := List.mem_range.mp hi
  rw [h.magnitudeAt_eq ev hn hi, if_neg (derivativeAt_ne_zero hn hpos hnodup hi)]

theorem Tables.Built.forneyMag_of_not_nodup (h : t.Built) (ev : Poly) {pos : List Byte} {n : Nat} (hn : n ≤ 255)
    (hpos : positionsOf pos n) (hrep : ¬ pos.Nodup) : forneyMag t ev pos n = .error .cannotComputeMagnitude := by
  obtain ⟨i, hi, hzero⟩ := exists_derivativeAt_eq_zero hn hpos hrep
  rw [forneyMag, List.length_map]
  refine magnitudes_of_error (List.mem_range.mpr hi) ?_
  rw [h.magnitudeAt_eq ev hn hi, if_pos hzero]

/-- The Forney relation, in which the derivative product is not divided by (R174). -/
theorem product_magnitudeOf_derivativeAt (ev : Poly) {pos : List Byte} {n i : Nat} (h : derivativeAt pos n i ≠ 0#8) :
    product (magnitudeOf ev pos n i) (derivativeAt pos n i) =
      product (locatorAt pos n i) (evalAt ev.reverse (inverseOf (locatorAt pos n i))) := by
  rw [magnitudeOf_eq, product_assoc, product_comm (inverseOf _), product_inverseOf h, product_one_right]

/-! ### The command (R175) -/

theorem fmagChecked_of_empty (t : Tables) {ev : Poly} (h : ev.length = 0) (pos cw : Poly) :
    fmagChecked t ev pos cw = .error .rangeError := if_pos h

theorem fmagChecked_of_cwlen (t : Tables) {ev cw : Poly} {e : Failure} (hev : ev.length ≠ 0) (hc : cwlen cw = .error e)
    (pos : Poly) : fmagChecked t ev pos cw = .error e := by rw [fmagChecked, if_neg hev, hc]

theorem fmagChecked_of_lengths (t : Tables) {ev cw : Poly} (hev : ev.length ≠ 0) (h0 : cw.length ≠ 0)
    (hn : cw.length ≤ 255) (pos : Poly) : fmagChecked t ev pos cw =
      (checkPos pos cw.length false).bind fun _ => forneyMag t ev pos cw.length := by
  rw [fmagChecked, if_neg hev, cwlen_of_legal h0 hn]
  dsimp only
  cases checkPos pos cw.length false <;> rfl

theorem exec_fmag (s : State) (d e p c : PReg) :
    exec (.fmag d e p c) s = completeP s d (fmagChecked s.tables (s.poly e) (s.poly p) (s.poly c)) := rfl

/-- Settles O51: the checks in their order, and the derivative product, which is 0 for a repeated position only. -/
theorem fmagComputesMagnitudes : Obligations.FmagComputesMagnitudes := by
  refine ⟨encodes_fmag, fun s d e p c h hr => ?_⟩
  rw [exec_fmag]
  refine ⟨fun he => completeP_of_error s d (fmagChecked_of_empty _ he _ _),
    fun he hc => completeP_of_error s d (fmagChecked_of_cwlen _ he (cwlen_of_long hc) _),
    fun he hc => completeP_of_error s d (fmagChecked_of_cwlen _ he (cwlen_of_empty hc) _), fun he h0 hn => ?_⟩
  rw [fmagChecked_of_lengths _ he h0 hn]
  refine ⟨fun hbad => ?_, fun hpos hrep => ?_, fun hpos hnodup => ?_⟩
  · rw [checkPos_false_of_illegal hbad]
    rfl
  · rw [checkPos_false_of_legal hpos]
    exact completeP_of_error s d ((h.tables_built hr).forneyMag_of_not_nodup _ hn hpos hrep)
  · have hlen : ((List.range (s.poly p).length).map (magnitudeOf (s.poly e) (s.poly p) (s.poly c).length)).length =
        (s.poly p).length := by rw [List.length_map, List.length_range]
    rw [checkPos_false_of_legal hpos]
    refine ⟨_, completeP_of_ok s d ((h.tables_built hr).forneyMag_of_nodup _ hn hpos hnodup)
      (hlen.trans_le (h.poly_length_le p)), hlen, fun i hi inv hinv => ?_⟩
    have hi := hi.trans_eq hlen
    obtain rfl := eq_inverseOf hinv
    rw [hlen, List.getD_eq_getElem _ _ (by simpa using hi), List.getElem_map, List.getElem_range]
    exact product_magnitudeOf_derivativeAt _ (derivativeAt_ne_zero hn hpos hnodup hi)

end Sys2Proof.Machine
end

section
/-! SUPPORT. GF(256) as a field in which XOR adds and `product` multiplies, and the polynomials over it that lists of
coefficients stand for (spec/00_scope.md R12, R13; spec/10_state.md R8; spec/40_gf_tables.md R100). -/

namespace Sys2Proof.Machine
open Sys2Proof.Spec Polynomial

/-! ### The field (R100) -/

/-- The elements of GF(256), apart from the bytes, whose own sum and product are those of integers. -/
structure Element where
  byte : Byte

theorem product_xor_right (x y y' : Byte) : product x (y ^^^ y') = product x y ^^^ product x y' :=
  product_linear_right x y y'

/-- GF(256). -/
@[reducible] def elementField : Field Element :=
  letI : Add Element := ⟨fun x y => ⟨x.byte ^^^ y.byte⟩⟩
  letI : Mul Element := ⟨fun x y => ⟨product x.byte y.byte⟩⟩
  letI : Neg Element := ⟨fun x => x⟩
  letI : Inv Element := ⟨fun x => ⟨if x.byte = 0#8 then 0#8 else inverseOf x.byte⟩⟩
  letI : Zero Element := ⟨⟨0#8⟩⟩
  letI : One Element := ⟨⟨1#8⟩⟩
  Field.ofMinimalAxioms Element
    (fun _ _ _ => congrArg Element.mk (BitVec.xor_assoc _ _ _))
    (fun _ => congrArg Element.mk BitVec.zero_xor)
    (fun _ => congrArg Element.mk BitVec.xor_self)
    (fun _ _ _ => congrArg Element.mk (product_assoc _ _ _))
    (fun _ _ => congrArg Element.mk (product_comm _ _))
    (fun _ => congrArg Element.mk (product_one_left _))
    (fun _ hx => congrArg Element.mk <| (congrArg _ (if_neg fun h => hx (congrArg Element.mk h))).trans <|
      product_inverseOf fun h => hx (congrArg Element.mk h))
    (congrArg Element.mk (if_pos rfl))
    (fun _ _ _ => congrArg Element.mk (product_xor_right _ _ _))
    ⟨⟨0#8⟩, ⟨1#8⟩, nofun⟩

/-- φ carries the bytes to a field in which XOR is the sum and `product` the product. -/
structure FieldModel {K : Type} [Field K] (φ : Byte → K) : Prop where
  injective : Function.Injective φ
  map_xor : ∀ x y, φ (x ^^^ y) = φ x + φ y
  map_product : ∀ x y, φ (product x y) = φ x * φ y

/-- There is such a field. -/
theorem exists_fieldModel : ∃ (K : Type) (_ : Field K) (φ : Byte → K), FieldModel φ :=
  ⟨Element, elementField, Element.mk,
    letI := elementField
    { injective := fun _ _ h => congrArg Element.byte h, map_xor := fun _ _ => rfl, map_product := fun _ _ => rfl }⟩

section Model
variable {K : Type} [Field K] {φ : Byte → K} (h : FieldModel φ)
include h

theorem FieldModel.map_zero : φ 0#8 = 0 := by simpa using h.map_xor 0#8 0#8

theorem FieldModel.map_eq_zero {x : Byte} : φ x = 0 ↔ x = 0#8 := by rw [← h.map_zero, h.injective.eq_iff]

theorem FieldModel.map_one : φ 1#8 = 1 := by
  have hne : φ 1#8 ≠ 0 := by rw [ne_eq, h.map_eq_zero]; decide
  refine mul_right_cancel₀ hne ?_
  rw [← h.map_product, product_one_left, one_mul]

theorem FieldModel.charP : CharP K 2 := by
  refine CharTwo.of_one_ne_zero_of_two_eq_zero one_ne_zero ?_
  rw [← one_add_one_eq_two, ← h.map_one, ← h.map_xor, BitVec.xor_self, h.map_zero]

theorem FieldModel.map_power (x : Byte) (n : Nat) : φ (power x n) = φ x ^ n := by
  induction n with
  | zero => rw [power_zero, h.map_one, pow_zero]
  | succ n ih => rw [power_succ, h.map_product, ih, pow_succ]

theorem FieldModel.map_inverseOf {x : Byte} (hx : x ≠ 0#8) : φ (inverseOf x) = (φ x)⁻¹ := by
  refine eq_inv_of_mul_eq_one_right ?_
  rw [← h.map_product, product_inverseOf hx, h.map_one]

theorem FieldModel.map_xorSum (n : Nat) (f : Nat → Byte) : φ (xorSum n f) = ∑ i ∈ Finset.range n, φ (f i) := by
  induction n with
  | zero => exact h.map_zero
  | succ n ih => rw [xorSum_succ, h.map_xor, ih, Finset.sum_range_succ]

theorem FieldModel.map_productOf (n : Nat) (f : Nat → Byte) :
    φ (productOf n f) = ∏ i ∈ Finset.range n, φ (f i) := by
  induction n with
  | zero => exact h.map_one
  | succ n ih => rw [productOf_succ, h.map_product, ih, Finset.prod_range_succ]

end Model

/-! ### The polynomial of a list of coefficients (R8) -/

/-- The polynomial whose coefficients a list holds, most significant first. -/
noncomputable def polyOf {K : Type} [Field K] (φ : Byte → K) (p : Poly) : K[X] :=
  ∑ j ∈ Finset.range p.length, monomial j (φ (coeff p j))

theorem polyOf_pair {K : Type} [Field K] (φ : Byte → K) (a b : Byte) : polyOf φ [a, b] = C (φ a) * X + C (φ b) := by
  simp [polyOf, Spec.coeff, Finset.sum_range_succ, C_mul_X_eq_monomial, add_comm]

theorem productPoly_length (p q : Poly) : (productPoly p q).length = p.length + q.length - 1 := by simp [productPoly]

/-- The list of a product has the product's coefficients at every exponent. -/
theorem coeff_productPoly (p : Poly) {q : Poly} (hq : q ≠ []) (k : Nat) :
    coeff (productPoly p q) k = productCoeff p q k := by
  have hbuilt := buildTables_built Tables.unbuilt unbuilt_log_length
  rw [← hbuilt.convolve_eq_productPoly p hq, hbuilt.coeff_convolve]

section Model
variable {K : Type} [Field K] {φ : Byte → K} (h : FieldModel φ)
include h

theorem FieldModel.coeff_polyOf (p : Poly) (j : Nat) : (polyOf φ p).coeff j = φ (coeff p j) := by
  simp only [polyOf, finsetSum_coeff, coeff_monomial, Finset.sum_ite_eq', Finset.mem_range]
  split
  · rfl
  · next hj => rw [coeff_of_length_le (Nat.not_lt.mp hj), h.map_zero]

theorem FieldModel.polyOf_eq {p : Poly} {f : K[X]} (hf : ∀ j, φ (coeff p j) = f.coeff j) : polyOf φ p = f :=
  Polynomial.ext fun j => (h.coeff_polyOf p j).trans (hf j)

theorem FieldModel.map_evalAt (p : Poly) (y : Byte) : φ (evalAt p y) = (polyOf φ p).eval (φ y) := by
  simp only [evalAt, h.map_xorSum, h.map_product, h.map_power, polyOf, eval_finsetSum, eval_monomial]

theorem FieldModel.map_productCoeff (p q : Poly) (k : Nat) :
    φ (productCoeff p q k) = (polyOf φ p * polyOf φ q).coeff k := by
  simp only [productCoeff, h.map_xorSum, h.map_product, coeff_mul, h.coeff_polyOf]
  exact (Finset.Nat.sum_antidiagonal_eq_sum_range_succ (fun i j => φ (coeff p i) * φ (coeff q j)) k).symm

theorem FieldModel.polyOf_productPoly (p : Poly) {q : Poly} (hq : q ≠ []) :
    polyOf φ (productPoly p q) = polyOf φ p * polyOf φ q :=
  h.polyOf_eq fun k => by rw [coeff_productPoly p hq, h.map_productCoeff]

theorem FieldModel.polyOf_one : polyOf φ [1#8] = 1 := by
  simp [polyOf, Spec.coeff, h.map_one]

/-- A product of factors, built up from the left. -/
theorem FieldModel.polyOf_foldl_productPoly {α : Type} {factor : α → Poly} (hne : ∀ x, factor x ≠ []) (xs : List α)
    (g : Poly) : polyOf φ (xs.foldl (fun g x => productPoly g (factor x)) g) =
      polyOf φ g * (xs.map fun x => polyOf φ (factor x)).prod := by
  induction xs generalizing g with
  | nil => simp
  | cons x xs ih => rw [List.foldl_cons, ih, h.polyOf_productPoly g (hne x), List.map_cons, List.prod_cons, mul_assoc]

/-- A codeword's polynomial vanishes at the first m powers of the generator element (R204). -/
theorem FieldModel.isCodeword_iff (c : Poly) (m : Nat) :
    isCodeword c m ↔ ∀ i < m, (polyOf φ c).eval (φ 2#8 ^ i) = 0 := by
  simp only [isCodeword, ← h.map_power, ← h.map_evalAt, h.map_eq_zero]

end Model

end Sys2Proof.Machine
end

section
/-! SUPPORT. The generator and the encoder: the generator is the product of its binomials, and a multiple of it is a
codeword (spec/44_codec.md R200-R204). -/

namespace Sys2Proof.Machine
open Sys2Proof.Spec Polynomial
variable {t : Tables} {K : Type} [Field K] {φ : Byte → K}

/-! ### The generator (R200) -/

/-- The product of the binomials [1, 2^i], i = 0..m-1. -/
def generatorOf (m : Nat) : Poly := (List.range m).foldl (fun g i => productPoly g [1#8, power 2#8 i]) [1#8]

theorem Tables.Built.genpoly_eq (h : t.Built) {m : Nat} (hm : m ≤ 254) : genpoly t m = generatorOf m := by
  refine List.foldl_ext _ _ _ fun g i hi => ?_
  have := List.mem_range.mp hi
  rw [h.convolve_eq_productPoly g (List.cons_ne_nil _ _), h.expAt (by omega)]

theorem FieldModel.polyOf_generatorOf (h : FieldModel φ) (m : Nat) :
    polyOf φ (generatorOf m) = ∏ i ∈ Finset.range m, (X + C (φ 2#8 ^ i)) := by
  rw [generatorOf, h.polyOf_foldl_productPoly fun _ => List.cons_ne_nil _ _, h.polyOf_one, one_mul]
  simp only [polyOf_pair, h.map_one, h.map_power, C_1, one_mul]
  rfl

theorem generatorOf_length (m : Nat) : (generatorOf m).length = m + 1 := by
  induction m with
  | zero => rfl
  | succ m ih =>
    rw [generatorOf, List.range_succ, List.foldl_append, ← generatorOf, List.foldl_cons, List.foldl_nil,
      productPoly_length, ih]
    rfl

theorem FieldModel.monic_polyOf_generatorOf (h : FieldModel φ) (m : Nat) : (polyOf φ (generatorOf m)).Monic := by
  rw [h.polyOf_generatorOf]
  exact monic_prod_of_monic _ _ fun i _ => monic_X_add_C _

theorem FieldModel.natDegree_polyOf_generatorOf (h : FieldModel φ) (m : Nat) :
    (polyOf φ (generatorOf m)).natDegree = m := by
  rw [h.polyOf_generatorOf, natDegree_prod_of_monic _ _ fun i _ => monic_X_add_C _]
  simp only [natDegree_X_add_C, Finset.sum_const, Finset.card_range, smul_eq_mul, mul_one]

theorem head?_generatorOf (m : Nat) : (generatorOf m).head? = some 1#8 := by
  obtain ⟨K, _, φ, h⟩ := exists_fieldModel
  have hlead : coeff (generatorOf m) m = 1#8 := by
    refine h.injective ?_
    have hmonic := (h.monic_polyOf_generatorOf m).coeff_natDegree
    rwa [h.natDegree_polyOf_generatorOf, h.coeff_polyOf, ← h.map_one] at hmonic
  have hlen := generatorOf_length m
  have hget := getD_length_sub (generatorOf m) (j := m) (by omega)
  rw [hlead] at hget
  cases hg : generatorOf m with
  | nil => simp [hg] at hlen
  | cons c g => simp_all

/-- Its roots are 2^0 .. 2^(m-1), and every multiple of it has them. -/
theorem FieldModel.isCodeword_of_dvd (h : FieldModel φ) {c : Poly} {m : Nat}
    (hdvd : polyOf φ (generatorOf m) ∣ polyOf φ c) : isCodeword c m := by
  have := h.charP
  refine (h.isCodeword_iff c m).mpr fun i hi => eval_eq_zero_of_dvd_of_eval_eq_zero hdvd ?_
  rw [h.polyOf_generatorOf, eval_prod]
  exact Finset.prod_eq_zero (Finset.mem_range.mpr hi) (by simp [CharTwo.add_self_eq_zero])

theorem isCodeword_generatorOf (m : Nat) : isCodeword (generatorOf m) m := by
  obtain ⟨K, _, φ, h⟩ := exists_fieldModel
  exact h.isCodeword_of_dvd dvd_rfl

/-! ### The encoder (R202) -/

/-- What is added to the padded data is the remainder, so a multiple of the generator is left (R204). -/
theorem Tables.Built.isCodeword_encodeWord (h : t.Built) (data : Poly) {m : Nat} (hm : m ≤ 254) :
    isCodeword (encodeWord t data m) m := by
  obtain ⟨K, _, φ, hφ⟩ := exists_fieldModel
  have hmonic : (genpoly t m).head? = some 1#8 := h.genpoly_eq hm ▸ head?_generatorOf m
  have hle : (genpoly t m).length - 1 ≤ (data ++ zeros m).length := by simp
  have hrem : (divide t (data ++ zeros m) (genpoly t m)).2.length = m := by
    rw [(divide_length t _ _ (fun e => by simp [e] at hmonic) hle).2, genpoly_length, Nat.add_sub_cancel]
  have hcoeff : ∀ k, coeff (encodeWord t data m) k =
      productCoeff (divide t (data ++ zeros m) (genpoly t m)).1 (genpoly t m) k := fun k => by
    have hdiv := h.coeff_divide hmonic hle k
    rw [coeff_append, zeros_length] at hdiv
    rw [encodeWord, coeff_append, hrem]
    split at hdiv
    · next hk =>
      rw [if_pos hk]
      rw [coeff_zeros, eq_comm, BitVec.xor_eq_zero_iff] at hdiv
      exact hdiv.symm
    · next hk => rw [if_neg hk, hdiv, coeff_of_length_le (show _ ≤ k by omega), BitVec.xor_zero]
  refine hφ.isCodeword_of_dvd (Dvd.intro_left (polyOf φ (divide t (data ++ zeros m) (genpoly t m)).1) ?_)
  rw [← h.genpoly_eq hm]
  exact (hφ.polyOf_eq fun k => by rw [hcoeff, hφ.map_productCoeff]).symm

theorem take_encodeWord (t : Tables) (data : Poly) (m : Nat) : (encodeWord t data m).take data.length = data := by
  simp [encodeWord]

/-! ### The commands (R201, R203) -/

theorem exec_genpoly (s : State) (d : PReg) :
    exec (.genpoly d) s = completeP s d (.ok (genpoly s.tables s.nsym.toNat)) := rfl

theorem exec_encode (s : State) (d a : PReg) :
    exec (.encode d a) s = completeP s d (encodeChecked s.tables (s.poly a) s.nsym.toNat) := rfl

/-- Settles O53: the convolutions multiply the binomials, each with its root. -/
theorem genpolyBuildsGenerator : Obligations.GenpolyBuildsGenerator := by
  refine ⟨encodes_genpoly, fun s d gen h hr hgen => ?_⟩
  obtain rfl : gen = generatorOf s.nsym.toNat := hgen
  have hm := h.nsym_legal
  have hlen := generatorOf_length s.nsym.toNat
  refine ⟨?_, hlen, head?_generatorOf _, isCodeword_generatorOf _⟩
  rw [exec_genpoly, (h.tables_built hr).genpoly_eq hm]
  exact completeP_ok s d _ (hlen.trans_le (show _ ≤ 512 by omega))

/-- Settles O54: the codeword is a multiple of the generator. -/
theorem encodeWritesCodeword : Obligations.EncodeWritesCodeword := by
  refine ⟨encodes_encode, fun s d a h hr => ?_⟩
  rw [exec_encode]
  refine ⟨fun hlong => ?_, fun hfit => ?_⟩
  · exact completeP_of_error s d (if_pos hlong)
  · have hlen := encodeWord_length s.tables (s.poly a) s.nsym.toNat
    exact ⟨_, completeP_of_ok s d (if_neg (Nat.not_lt.mpr hfit)) (hlen.trans_le (show _ ≤ 512 by omega)), hlen,
      take_encodeWord _ _ _, (h.tables_built hr).isCodeword_encodeWord _ h.nsym_legal⟩

end Sys2Proof.Machine
end

section
/-! SUPPORT. The decoder over the built tables: its checks, the no-correction exit, and the correction path stage by
stage (spec/44_codec.md R205, R206). -/

namespace Sys2Proof.Machine
open Sys2Proof.Spec
variable {t : Tables} {c : Poly} {era : List Byte} {m : Nat}

/-! ### The operand checks (R205) -/

/-- The operands that pass DECODE's checks. -/
structure DecodeLegal (c : Poly) (era : List Byte) (m : Nat) : Prop where
  length_le : c.length ≤ 255
  erasures_le : era.length ≤ m
  length_ne : c.length ≠ 0
  le_length : m ≤ c.length
  positions : positionsOf era c.length
  nodup : era.Nodup

theorem decodeChecks_of_long (h : 255 < c.length) : decodeChecks c era m = .error .messageTooLong := if_pos h

theorem decodeChecks_of_erasures (hn : c.length ≤ 255) (h : m < era.length) :
    decodeChecks c era m = .error .tooManyErasures := (if_neg (Nat.not_lt.mpr hn)).trans (if_pos h)

theorem decodeChecks_of_lengths (hn : c.length ≤ 255) (hnu : era.length ≤ m) : decodeChecks c era m =
    if c.length = 0 ∨ c.length < m then .error .rangeError else checkPos era c.length true :=
  (if_neg (Nat.not_lt.mpr hn)).trans (if_neg (Nat.not_lt.mpr hnu))

theorem decodeChecks_of_short (hn : c.length ≤ 255) (hnu : era.length ≤ m) (h : c.length = 0 ∨ c.length < m) :
    decodeChecks c era m = .error .rangeError := (decodeChecks_of_lengths hn hnu).trans (if_pos h)

theorem decodeChecks_of_positions (hn : c.length ≤ 255) (hnu : era.length ≤ m) (h0 : c.length ≠ 0) (hm : m ≤ c.length)
    (h : ¬ (positionsOf era c.length ∧ era.Nodup)) : decodeChecks c era m = .error .badPosition := by
  rw [decodeChecks_of_lengths hn hnu, if_neg (by omega), checkPos_of_illegal (by simpa using h)]

theorem DecodeLegal.decodeChecks (h : DecodeLegal c era m) : decodeChecks c era m = .ok () := by
  have hm := h.le_length
  have h0 := h.length_ne
  rw [decodeChecks_of_lengths h.length_le h.erasures_le, if_neg (by omega),
    checkPos_of_legal h.positions fun _ => h.nodup]

/-- Only legal operands pass the checks. -/
theorem decodeLegal_of_decodeChecks (h : decodeChecks c era m = .ok ()) : DecodeLegal c era m := by
  by_cases hn : c.length ≤ 255
  case neg => rw [decodeChecks_of_long (Nat.not_le.mp hn)] at h; cases h
  by_cases hnu : era.length ≤ m
  case neg => rw [decodeChecks_of_erasures hn (Nat.not_le.mp hnu)] at h; cases h
  by_cases hshort : c.length = 0 ∨ c.length < m
  case pos => rw [decodeChecks_of_short hn hnu hshort] at h; cases h
  have h0 : c.length ≠ 0 := by omega
  have hm : m ≤ c.length := by omega
  by_cases hpos : positionsOf era c.length ∧ era.Nodup
  case neg => rw [decodeChecks_of_positions hn hnu h0 hm hpos] at h; cases h
  exact ⟨hn, hnu, h0, hm, hpos.1, hpos.2⟩

/-! ### Blanking (R206 step 2) -/

theorem getElem?_blank (cw : Poly) (era : List Byte) (i : Nat) : (blank cw era)[i]? =
    cw[i]?.map fun x => if era.any (fun p => decide (p.toNat = i)) then 0#8 else x := by
  induction era using List.reverseRecOn with
  | nil => simp [blank]
  | append_singleton era p ih =>
    rw [blank, List.foldl_append, List.foldl_cons, List.foldl_nil, ← blank, List.getElem?_set, ih, List.any_append]
    by_cases hp : p.toNat = i
    · by_cases hi : i < cw.length <;> simp [hp, hi]
    · simp [hp]

theorem blank_eq_blanked (cw : Poly) (era : List Byte) : blank cw era = blanked cw era := by
  refine List.ext_getElem? fun i => ?_
  rw [getElem?_blank, blanked, List.getElem?_map]
  by_cases hi : i < cw.length <;> simp [hi]

@[simp] theorem blanked_length (c : Poly) (era : List Byte) : (blanked c era).length = c.length := by simp [blanked]

theorem blanked_nil (c : Poly) : blanked c [] = c := (blank_eq_blanked c []).symm

theorem blanked_getD {i : Nat} (hi : i < c.length) : (blanked c era).getD i 0#8 =
    if era.any (fun p => decide (p.toNat = i)) then 0#8 else c.getD i 0#8 := by
  simp [blanked, hi]

/-! ### The syndromes (R206 step 3) -/

/-- Every syndrome is 0 where the word is a codeword (R179, R204). -/
theorem allZero_syndromesOf_iff (c : Poly) (m : Nat) : allZero (syndromesOf c m) = true ↔ isCodeword c m := by
  simp [allZero_iff, syndromesOf, isCodeword]

theorem syndromesOf_length (c : Poly) (m : Nat) : (syndromesOf c m).length = m + 1 := by simp [syndromesOf]

/-! ### The correction path (R206 steps 4 to 9) -/

theorem mem_locatedPositions {loc : Poly} {n : Nat} (hn : n ≤ 255) {p : Byte} :
    p ∈ locatedPositions loc n ↔ p.toNat < n ∧ evalAt loc.reverse (locatorOf n p.toNat) = 0#8 := by
  simp only [locatedPositions, List.mem_map, List.mem_filter, List.mem_range, beq_iff_eq, locatorOf]
  constructor
  · rintro ⟨i, ⟨hi, hroot⟩, rfl⟩
    have hp : (BitVec.ofNat 8 (n - 1 - i)).toNat = n - 1 - i := by rw [BitVec.toNat_ofNat]; omega
    rw [hp, Nat.sub_sub_self (by omega)]
    exact ⟨by omega, hroot⟩
  · rintro ⟨hp, hroot⟩
    refine ⟨n - 1 - p.toNat, ⟨by omega, hroot⟩, ?_⟩
    rw [Nat.sub_sub_self (by omega), BitVec.ofNat_toNat, BitVec.setWidth_eq]

theorem nodup_locatedPositions (loc : Poly) {n : Nat} (hn : n ≤ 255) : (locatedPositions loc n).Nodup := by
  refine (List.nodup_range.filter _).map_on fun i hi j hj hij => ?_
  have hi := List.mem_range.mp (List.mem_filter.mp hi).1
  have hj := List.mem_range.mp (List.mem_filter.mp hj).1
  have := congrArg BitVec.toNat hij
  simp only [BitVec.toNat_ofNat] at this
  omega

/-- The located positions are positions of the codeword. -/
theorem positionsOf_locatedPositions (loc : Poly) {n : Nat} (hn : n ≤ 255) :
    positionsOf (locatedPositions loc n) n := fun _ hp => ((mem_locatedPositions hn).mp hp).1

@[simp] theorem correctedWord_length (c : Poly) (pos : List Byte) (m : Nat) :
    (correctedWord c pos m).length = c.length := by
  simp [correctedWord]

/-- The error locator of a blanked word (R206 steps 4 and 5). -/
def locatorFor (w : Poly) (era : List Byte) (m : Nat) : Poly := errorLocator (foldedSyndromes w era m) (m - era.length)

/-- The located errors of a blanked word (R206 step 6). -/
def locatedOf (w : Poly) (era : List Byte) (m : Nat) : List Byte := locatedPositions (locatorFor w era m) w.length

/-- The failure or the result of steps 4 to 9 for a blanked word that is no codeword, in stage order (R206). -/
def correctionOf (w : Poly) (era : List Byte) (m : Nat) : Except Failure Decoded :=
  if 2 * ((locatorFor w era m).length - 1) + era.length > m then .error .tooManyErrors
  else if (locatedOf w era m).length ≠ (locatorFor w era m).length - 1 ∨ era ++ locatedOf w era m = [] then
    .error .couldNotLocateErrors
  else if ¬ (era ++ locatedOf w era m).Nodup then .error .cannotComputeMagnitude
  else if allZero (syndromesOf (correctedWord w (era ++ locatedOf w era m) m) m) = true then
    .ok { word := correctedWord w (era ++ locatedOf w era m) m
          clean := false
          nerrata := (era ++ locatedOf w era m).length
          nerr := (locatedOf w era m).length }
  else .error .couldNotCorrect

section Correction
variable {w : Poly}

theorem correctionOf_of_long (h : m < 2 * ((locatorFor w era m).length - 1) + era.length) :
    correctionOf w era m = .error .tooManyErrors := if_pos h

variable (hle : 2 * ((locatorFor w era m).length - 1) + era.length ≤ m)
include hle

theorem correctionOf_of_unlocated (h : (locatedOf w era m).length ≠ (locatorFor w era m).length - 1 ∨
    era ++ locatedOf w era m = []) : correctionOf w era m = .error .couldNotLocateErrors :=
  (if_neg (Nat.not_lt.mpr hle)).trans (if_pos h)

variable (hcount : (locatedOf w era m).length = (locatorFor w era m).length - 1) (hne : era ++ locatedOf w era m ≠ [])
include hcount hne

theorem correctionOf_of_repeated (h : ¬ (era ++ locatedOf w era m).Nodup) :
    correctionOf w era m = .error .cannotComputeMagnitude := by
  rw [correctionOf, if_neg (Nat.not_lt.mpr hle), if_neg (not_or.mpr ⟨not_not.mpr hcount, hne⟩), if_pos h]

variable (hnodup : (era ++ locatedOf w era m).Nodup)
include hnodup

theorem correctionOf_of_not_codeword (h : ¬ isCodeword (correctedWord w (era ++ locatedOf w era m) m) m) :
    correctionOf w era m = .error .couldNotCorrect := by
  rw [correctionOf, if_neg (Nat.not_lt.mpr hle), if_neg (not_or.mpr ⟨not_not.mpr hcount, hne⟩),
    if_neg (not_not.mpr hnodup), if_neg ((allZero_syndromesOf_iff _ m).not.mpr h)]

theorem correctionOf_of_codeword (h : isCodeword (correctedWord w (era ++ locatedOf w era m) m) m) :
    correctionOf w era m = .ok
      { word := correctedWord w (era ++ locatedOf w era m) m
        clean := false
        nerrata := (era ++ locatedOf w era m).length
        nerr := (locatedOf w era m).length } := by
  rw [correctionOf, if_neg (Nat.not_lt.mpr hle), if_neg (not_or.mpr ⟨not_not.mpr hcount, hne⟩),
    if_neg (not_not.mpr hnodup), if_pos ((allZero_syndromesOf_iff _ m).mpr h)]

end Correction

/-- Steps 7 to 9 fail for a repeated position, and else give the corrected word if it is a codeword. -/
theorem Tables.Built.correct_eq (h : t.Built) {w : Poly} {pos : List Byte} (hn : w.length ≤ 255) (hm : m ≤ 254)
    (hpos : positionsOf pos w.length) (nerr : Nat) : correct t w (syndromesOf w m) pos nerr m =
      if ¬ pos.Nodup then .error .cannotComputeMagnitude
      else if allZero (syndromesOf (correctedWord w pos m) m) = true then
        .ok { word := correctedWord w pos m, clean := false, nerrata := pos.length, nerr := nerr }
      else .error .couldNotCorrect := by
  have hloc : (locatorProduct pos w.length).length ≠ 0 := by rw [← h.errataLoc_eq pos hn, errataLoc_length]; omega
  rw [correct, h.errataLoc_eq pos hn, h.errEval_eq (syndromesOf_length w m) hloc]
  by_cases hnodup : pos.Nodup
  · rw [h.forneyMag_of_nodup _ hn hpos hnodup, if_neg (not_not.mpr hnodup)]
    simp only [applyCorr_eq, h.syndromes_eq _ hm]
    rfl
  · rw [h.forneyMag_of_not_nodup _ hn hpos hnodup, if_pos hnodup]

/-- The correction path over the built tables, for erasures that are positions of the word. -/
theorem Tables.Built.locateAndCorrect_eq (h : t.Built) {w : Poly} (hn : w.length ≤ 255) (hm : m ≤ 254)
    (hera : positionsOf era w.length) : locateAndCorrect t w (syndromesOf w m) era m = correctionOf w era m := by
  rw [locateAndCorrect, h.forneySynd_eq _ _ hn, ← foldedSyndromes, h.bmLocator_eq, ← locatorFor, correctionOf]
  by_cases hlong : 2 * ((locatorFor w era m).length - 1) + era.length > m
  · rw [if_pos hlong, if_pos hlong]
  rw [if_neg hlong, if_neg hlong]
  dsimp only
  rw [h.chienRoots_eq _ hn, ← locatedOf]
  by_cases hcount : (locatedOf w era m).length ≠ (locatorFor w era m).length - 1
  · rw [if_pos hcount, if_pos (.inl hcount)]
  rw [if_neg hcount]
  dsimp only
  by_cases hempty : era ++ locatedOf w era m = []
  · rw [if_pos (List.length_eq_zero_iff.mpr hempty), if_pos (.inr hempty)]
  · have hpos : positionsOf (era ++ locatedOf w era m) w.length := fun p hp =>
      (List.mem_append.mp hp).elim (hera p) (positionsOf_locatedPositions _ hn p)
    rw [if_neg (hempty <| List.length_eq_zero_iff.mp ·), if_neg (not_or.mpr ⟨hcount, hempty⟩), h.correct_eq hn hm hpos]

/-- What the correction path gives, if it succeeds. -/
theorem correctionOf_eq_ok {w : Poly} {r : Decoded} (h : correctionOf w era m = .ok r) :
    r = { word := correctedWord w (era ++ locatedOf w era m) m
          clean := false
          nerrata := (era ++ locatedOf w era m).length
          nerr := (locatedOf w era m).length } ∧
      2 * (locatedOf w era m).length + era.length ≤ m ∧ isCodeword r.word m := by
  rw [correctionOf] at h
  split at h
  case isTrue => cases h
  split at h
  case isTrue => cases h
  split at h
  case isTrue => cases h
  split at h
  case isFalse => cases h
  next hlong hcount _ hzero =>
    cases h
    exact ⟨rfl, by omega, (allZero_syndromesOf_iff _ m).mp hzero⟩

/-! ### The whole of DECODE up to its stores (R206 steps 1 to 9) -/

theorem decodeWord_of_error {f : Failure} (h : decodeChecks c era m = .error f) : decodeWord t c era m = .error f := by
  rw [decodeWord, h]

theorem Tables.Built.decodeWord_of_codeword (h : t.Built) (hl : DecodeLegal c era m) (hm : m ≤ 254)
    (hw : isCodeword (blanked c era) m) :
    decodeWord t c era m = .ok { word := blanked c era, clean := true, nerrata := 0, nerr := 0 } := by
  rw [decodeWord, hl.decodeChecks]
  simp only [decodeBlanked, blank_eq_blanked, h.syndromes_eq _ hm]
  exact if_pos ((allZero_syndromesOf_iff _ m).mpr hw)

theorem Tables.Built.decodeWord_of_not_codeword (h : t.Built) (hl : DecodeLegal c era m) (hm : m ≤ 254)
    (hw : ¬ isCodeword (blanked c era) m) : decodeWord t c era m = correctionOf (blanked c era) era m := by
  have hlen := blanked_length c era
  rw [decodeWord, hl.decodeChecks]
  simp only [decodeBlanked, blank_eq_blanked, h.syndromes_eq _ hm]
  rw [if_neg fun hzero => hw ((allZero_syndromesOf_iff _ m).mp hzero)]
  exact h.locateAndCorrect_eq (hlen.trans_le hl.length_le) hm (hlen.symm ▸ hl.positions)

/-- A successful decoding had legal operands. -/
theorem decodeLegal_of_decodeWord {r : Decoded} (h : decodeWord t c era m = .ok r) : DecodeLegal c era m := by
  rw [decodeWord] at h
  split at h
  · cases h
  · next heq => exact decodeLegal_of_decodeChecks heq

/-! ### The command (R205, R206) -/

theorem exec_decode (s : State) (d e c : PReg) : exec (.decode d e c) s = complete s
    ((if d = e then .error .operandConflict else decodeWord s.tables (s.poly c) s.era s.nsym.toNat).bind
      fun r => storeDecoded s d e r) := rfl

theorem exec_decode_self (s : State) (d c : PReg) : exec (.decode d d c) s = .next (raiseFail s .operandConflict) := by
  rw [exec_decode, if_pos rfl]
  rfl

section Command
variable {s : State} {d e c : PReg} (hde : d ≠ e)
include hde

theorem exec_decode_of_error {f : Failure} (h : decodeWord s.tables (s.poly c) s.era s.nsym.toNat = .error f) :
    exec (.decode d e c) s = .next (raiseFail s f) := by
  rw [exec_decode, if_neg hde, h]
  rfl

theorem exec_decode_of_ok {r : Decoded} (h : decodeWord s.tables (s.poly c) s.era s.nsym.toNat = .ok r)
    (hr : r.word.length ≤ 255) : exec (.decode d e c) s = .next (succeed ((((s.writeSz r.clean).writeInfo r.nerrata
      r.nerr).writePoly d (r.word.take (r.word.length - s.nsym.toNat))).writePoly e
        (r.word.drop (r.word.length - s.nsym.toNat)))) := by
  have htake : (r.word.take (r.word.length - s.nsym.toNat)).length ≤ 512 := by rw [List.length_take]; omega
  have hdrop : (r.word.drop (r.word.length - s.nsym.toNat)).length ≤ 512 := by rw [List.length_drop]; omega
  rw [exec_decode, if_neg hde, h]
  exact congrArg (complete s) (storePolys_ok _ d e _ _ htake hdrop)

end Command

/-- Settles O55: the checks in their order, and the correction path in its stage order. -/
theorem decodeChecksInOrder : Obligations.DecodeChecksInOrder := by
  have hnu : ∀ s : State, s.era.length = s.elen.toNat := era_length
  refine ⟨encodes_decode, fun s d e c => ⟨?_, fun hde hn => ?_, fun hde hn hm => ?_, fun hde hn hm hshort => ?_,
    fun hde hn hm h0 hle hpos => ?_⟩, ?_⟩
  · rintro rfl
    exact exec_decode_self s d c
  · exact exec_decode_of_error hde (decodeWord_of_error (decodeChecks_of_long hn))
  · exact exec_decode_of_error hde (decodeWord_of_error (decodeChecks_of_erasures hn ((hnu s).symm ▸ hm)))
  · exact exec_decode_of_error hde (decodeWord_of_error (decodeChecks_of_short hn ((hnu s).trans_le hm) hshort))
  · exact exec_decode_of_error hde
      (decodeWord_of_error (decodeChecks_of_positions hn ((hnu s).trans_le hm) h0 hle hpos))
  · intro s d e c n m w loc pos word h hr hde hn hm hn255 hnum h0 hmn hpos hnodup hw hcw hloc hlocated hword
    subst hn hm hw
    rw [← hnu s] at hloc hnum
    subst hloc
    have hlen := blanked_length (s.poly c) s.era
    rw [← hlen] at hlocated
    obtain rfl : pos = locatedOf (blanked (s.poly c) s.era) s.era s.nsym.toNat := hlocated
    subst hword
    have hdecode := (h.tables_built hr).decodeWord_of_not_codeword ⟨hn255, hnum, h0, hmn, hpos, hnodup⟩ h.nsym_legal hcw
    have hword := correctedWord_length (blanked (s.poly c) s.era)
      (s.era ++ locatedOf (blanked (s.poly c) s.era) s.era s.nsym.toNat) s.nsym.toNat
    rw [← hnu s, ← locatorFor]
    refine ⟨fun hlong => exec_decode_of_error hde (hdecode.trans (correctionOf_of_long hlong)), fun hle =>
      ⟨fun hnone => exec_decode_of_error hde (hdecode.trans (correctionOf_of_unlocated hle hnone)), fun hcount hne =>
      ⟨fun hrep => exec_decode_of_error hde (hdecode.trans (correctionOf_of_repeated hle hcount hne hrep)),
      fun hnodup => ⟨fun hbad => exec_decode_of_error hde
        (hdecode.trans (correctionOf_of_not_codeword hle hcount hne hnodup hbad)), fun hgood => ?_⟩⟩⟩⟩
    rw [exec_decode_of_ok hde (hdecode.trans (correctionOf_of_codeword hle hcount hne hnodup hgood))
      (hword.trans_le (hlen.trans_le hn255)), ← hlen, ← hword]
    rfl

/-- Settles O56: the syndromes of a codeword are 0, so the blanked word is the result. -/
theorem decodeNoCorrectionExit : Obligations.DecodeNoCorrectionExit := by
  intro s d e c w h hr hde hn hnu h0 hm hpos hnodup hw hcw
  subst hw
  have hlegal : DecodeLegal (s.poly c) s.era s.nsym.toNat := ⟨hn, (era_length s).trans_le hnu, h0, hm, hpos, hnodup⟩
  have hlen := blanked_length (s.poly c) s.era
  exact exec_decode_of_ok hde ((h.tables_built hr).decodeWord_of_codeword hlegal h.nsym_legal hcw) (hlen.trans_le hn)

end Sys2Proof.Machine
end

section
/-! SUPPORT. What a successful DECODE leaves in its destinations, and the round trip (spec/44_codec.md R204,
R206-R208). -/

namespace Sys2Proof.Machine
open Sys2Proof.Spec
variable {s t : State} {d e c : PReg} {m : Nat}

/-! ### The two destinations (R208) -/

/-- Two registers written together each hold their own list (R27, R234). -/
theorem poly_writePoly_writePoly (s : State) (hm : s.cells.wf) (hde : d ≠ e) {l1 l2 : Poly} (h1 : l1.length ≤ 512)
    (h2 : l2.length ≤ 512) : ((s.writePoly d l1).writePoly e l2).poly d = l1 ∧
      ((s.writePoly d l1).writePoly e l2).poly e = l2 := by
  have hwf : (s.writePoly d l1).cells.wf := writeList_wf _ _ _ hm
  have hplen : (s.writePoly d l1).readPlen d ≤ 512 := by simpa using h1
  refine ⟨?_, poly_writePoly_self _ e l2 hwf⟩
  rw [poly_writePoly_of_ne _ l2 hde.symm h2 hplen, poly_writePoly_self s d l1 hm]

/-- What a successful DECODE decoded, and where it left it. -/
theorem exists_decoded (hx : exec (.decode d e c) s = .next t) (ht : t.err = false) :
    ∃ r : Decoded, d ≠ e ∧ decodeWord s.tables (s.poly c) s.era s.nsym.toNat = .ok r ∧
      t = succeed ((((s.writeSz r.clean).writeInfo r.nerrata r.nerr).writePoly d
        (r.word.take (r.word.length - s.nsym.toNat))).writePoly e (r.word.drop (r.word.length - s.nsym.toNat))) := by
  rcases execDecode_cases s d e c with ⟨r, hde, hr, -, -, ht'⟩ | ⟨f, ht'⟩
  · exact ⟨r, hde, hr, Host.Outcome.next.inj (hx.symm.trans ht')⟩
  · obtain rfl := Host.Outcome.next.inj (hx.symm.trans ht')
    cases ht

/-! ### How far the result is from the received word (R207) -/

theorem errorAt_of_not_mem {pos : List Byte} (mags : List Byte) {i : Nat} (hi : ∀ p ∈ pos, p.toNat ≠ i) :
    errorAt pos mags i = 0#8 := by
  have hnone : (pos.zip mags).reverse.find? (fun pm => decide (pm.1.toNat = i)) = none :=
    List.find?_eq_none.mpr fun pm hpm => by
      simpa using hi pm.1 (List.of_mem_zip (List.mem_reverse.mp hpm)).1
  rw [errorAt_eq_elim, hnone]
  rfl

theorem undeclaredErrors_blanked (cw : Poly) (era : List Byte) : undeclaredErrors (blanked cw era) cw era = 0 := by
  rw [undeclaredErrors, List.length_eq_zero_iff, List.filter_eq_nil_iff]
  intro i hi
  rw [blanked_getD (List.mem_range.mp hi)]
  cases era.any fun p => decide (p.toNat = i) <;> simp

/-- Outside the erasures, only a located position is changed. -/
theorem undeclaredErrors_correctedWord_le (cw : Poly) (era located : List Byte) (m : Nat) :
    undeclaredErrors (correctedWord (blanked cw era) (era ++ located) m) cw era ≤ located.length := by
  rw [undeclaredErrors, ← List.length_map (f := BitVec.toNat) (as := located)]
  refine ((List.nodup_range.filter _).subperm fun i hi => ?_).length_le
  obtain ⟨hi, hdiff⟩ := List.mem_filter.mp hi
  have hi := List.mem_range.mp hi
  by_contra hmem
  rw [List.mem_map] at hmem
  simp only [Bool.and_eq_true, decide_eq_true_eq, Bool.not_eq_true', List.any_eq_false] at hdiff
  have hnot : ∀ p ∈ era ++ located, p.toNat ≠ i := fun p hp heq =>
    (List.mem_append.mp hp).elim (fun hp => hdiff.2 p hp heq) fun hp => hmem ⟨p, hp, heq⟩
  have hera : era.any (fun p => decide (p.toNat = i)) = false := by simpa using hdiff.2
  refine hdiff.1 ?_
  rw [correctedWord, List.getD_eq_getElem _ _ (by simpa using hi), List.getElem_map, List.getElem_range,
    errorAt_of_not_mem _ hnot, blanked_getD hi, hera]
  simp

/-! ### Success (R206, R207) -/

/-- What R207 says of a successful decoding. -/
structure Decoded.Sound (r : Decoded) (c : Poly) (era : List Byte) (m : Nat) : Prop where
  length_eq : r.word.length = c.length
  codeword : isCodeword r.word m
  undeclared_le : undeclaredErrors r.word c era ≤ r.nerr
  capacity : 2 * r.nerr + era.length ≤ m
  of_clean : r.clean = true → r.nerrata = 0 ∧ r.nerr = 0 ∧ r.word = blanked c era
  of_corrected : r.clean = false → r.nerrata = era.length + r.nerr

/-- The no-correction exit changes the erasures only, the correction path the erasures and the located positions. -/
theorem Tables.Built.decoded_sound {tb : Tables} (h : tb.Built) {cw : Poly} {era : List Byte} (hm : m ≤ 254)
    {r : Decoded} (hr : decodeWord tb cw era m = .ok r) : r.Sound cw era m := by
  have hl := decodeLegal_of_decodeWord hr
  by_cases hcw : isCodeword (blanked cw era) m
  · rw [h.decodeWord_of_codeword hl hm hcw] at hr
    cases hr
    exact ⟨blanked_length _ _, hcw, (undeclaredErrors_blanked _ _).le, by simpa using hl.erasures_le,
      fun _ => ⟨rfl, rfl, rfl⟩, nofun⟩
  · rw [h.decodeWord_of_not_codeword hl hm hcw] at hr
    obtain ⟨rfl, hcap, hword⟩ := correctionOf_eq_ok hr
    exact ⟨(correctedWord_length _ _ _).trans (blanked_length _ _), hword, undeclaredErrors_correctedWord_le _ _ _ _,
      hcap, nofun, fun _ => List.length_append⟩

/-- Settles O57: what R207 says of the decoding holds of the destinations, SZ and INFO; the counts fit their fields. -/
theorem decodeReturnsCodeword : Obligations.DecodeReturnsCodeword := by
  intro s t d e c h hr hx ht
  obtain ⟨r, hde, hdec, rfl⟩ := exists_decoded hx ht
  obtain ⟨hlen, hword, hund, hcap, hclean, hcorr⟩ := (h.tables_built hr).decoded_sound h.nsym_legal hdec
  have hl := decodeLegal_of_decodeWord hdec
  have hn := hl.length_le
  have hle := hl.le_length
  have hm := h.nsym_legal
  have hnu : s.era.length = s.elen.toNat := era_length s
  rw [hnu] at hcap hcorr
  obtain ⟨hd, he⟩ := poly_writePoly_writePoly ((s.writeSz r.clean).writeInfo r.nerrata r.nerr) h.cells_canonical hde
    (l1 := r.word.take (r.word.length - s.nsym.toNat)) (l2 := r.word.drop (r.word.length - s.nsym.toNat))
    (by rw [List.length_take]; omega) (by rw [List.length_drop]; omega)
  have hnerr : (BitVec.ofNat 8 r.nerr).toNat = r.nerr := by rw [BitVec.toNat_ofNat]; omega
  simp only [succeed_poly, hd, he, List.take_append_drop, succeed_sz, succeed_nerr, succeed_nerrata, writePoly_sz,
    writePoly_nerr, writePoly_nerrata, writeInfo_sz, writeInfo_nerr, writeInfo_nerrata, writeSz_sz, hnerr]
  refine ⟨hlen, by rw [List.length_drop]; omega, hword, hund, hcap, fun hz => ?_, fun hz => ?_⟩
  · obtain ⟨hnerrata, hnerr, heq⟩ := hclean hz
    exact ⟨by rw [hnerrata], by rw [hnerr], heq⟩
  · have := hcorr hz
    rw [BitVec.toNat_ofNat, this]
    omega

/-! ### The round trip (R204, R206) -/

theorem infoWord_of_counts {s : State} (herrata : s.nerrata = 0#8) (herr : s.nerr = 0#8) : infoWord s = 0#32 := by
  rw [infoWord, herrata, herr]
  rfl

/-- Settles O59: the word that ENCODE leaves is a codeword, so DECODE splits it into the data and the rest. -/
theorem encodeThenDecodeRoundTrip : Obligations.EncodeThenDecodeRoundTrip := by
  intro s w a d e h hr hde helen hn h0
  obtain ⟨word, henc, hlen, htake, hcw⟩ := (encodeWritesCodeword.2 s w a h hr).2 hn
  have hinv := h.exec hr _ henc
  have hw : (succeed (s.writePoly w word)).poly w = word := poly_writePoly_self s w word h.cells_canonical
  have hera : (succeed (s.writePoly w word)).era = [] := by
    rw [← List.length_eq_zero_iff, era_length]
    exact congrArg BitVec.toNat helen
  have hle : s.nsym.toNat ≤ word.length := by omega
  have hdec := decodeNoCorrectionExit (succeed (s.writePoly w word)) d e w word hinv hr hde (by rw [hw]; omega)
    (by simp [helen]) (by rw [hw]; omega) (by rw [hw]; exact hle) (by rw [hera]; nofun)
    (by rw [hera]; exact List.nodup_nil) (by rw [hw, hera, blanked_nil]) hcw
  have hsplit : word.length - s.nsym.toNat = (s.poly a).length := by omega
  obtain ⟨hd, he⟩ := poly_writePoly_writePoly
    { succeed (s.writePoly w word) with sz := true, nerrata := 0#8, nerr := 0#8 } hinv.cells_canonical hde
    (l1 := word.take (word.length - s.nsym.toNat)) (l2 := word.drop (word.length - s.nsym.toNat))
    (by rw [List.length_take]; omega) (by rw [List.length_drop]; omega)
  refine ⟨_, _, henc, hdec, rfl, hd.trans (hsplit ▸ htake), ?_, rfl, infoWord_of_counts rfl rfl⟩
  rw [hw, ← htake, ← hsplit]
  exact (congrArg _ he).trans (List.take_append_drop _ _)

end Sys2Proof.Machine
end

section
/-! SUPPORT. The algebra of the decoder over any field: sums of powers of distinct locators, the polynomials whose
product with such a sequence vanishes, and the evaluator that the locator product makes of it (spec/43_decoder_stages.md
R164, R167, R171; spec/44_codec.md R207). -/

namespace Sys2Proof.Machine
open Polynomial
variable {K ι : Type} [Field K]

/-! ### Sums of powers of locators -/

/-- Entry j of the sequence that errors with magnitudes y at the locators x give: the sum of y·x^j. -/
def powerSum (s : Finset ι) (x y : ι → K) (j : Nat) : K := ∑ p ∈ s, y p * x p ^ j

theorem powerSum_add (s : Finset ι) (x y : ι → K) (a j : Nat) :
    powerSum s x y (a + j) = powerSum s x (fun p => y p * x p ^ a) j :=
  Finset.sum_congr rfl fun p _ => by rw [pow_add, mul_assoc]

/-- Errors without a magnitude add nothing. -/
theorem powerSum_of_subset {s u : Finset ι} (hsu : s ⊆ u) {x y : ι → K} (hy : ∀ p ∈ u, p ∉ s → y p = 0) (j : Nat) :
    powerSum u x y j = powerSum s x y j :=
  (Finset.sum_subset hsu fun p hp hps => by rw [hy p hp hps, zero_mul]).symm

section Locators
variable {s : Finset ι} {x y : ι → K}

/-- A polynomial of small degree takes values whose weighted sum is 0, if the power sums are 0. -/
theorem sum_mul_eval_of_powerSum_eq_zero {q : K[X]} (hq : q.natDegree < s.card)
    (h : ∀ j < s.card, powerSum s x y j = 0) : ∑ p ∈ s, y p * q.eval (x p) = 0 := by
  calc ∑ p ∈ s, y p * q.eval (x p)
      = ∑ p ∈ s, ∑ j ∈ Finset.range s.card, q.coeff j * (y p * x p ^ j) := by
        refine Finset.sum_congr rfl fun p _ => ?_
        rw [eval_eq_sum_range' hq, Finset.mul_sum]
        exact Finset.sum_congr rfl fun j _ => by ring
    _ = ∑ j ∈ Finset.range s.card, q.coeff j * powerSum s x y j := by
        rw [Finset.sum_comm]
        exact Finset.sum_congr rfl fun j _ => (Finset.mul_sum _ _ _).symm
    _ = 0 := Finset.sum_eq_zero fun j hj => by rw [h j (Finset.mem_range.mp hj), mul_zero]

/-- As many power sums as there are locators determine the magnitudes: the distance of the code (R207). -/
theorem eq_zero_of_powerSum_eq_zero [DecidableEq ι] (hx : Set.InjOn x s)
    (h : ∀ j < s.card, powerSum s x y j = 0) {p : ι} (hp : p ∈ s) : y p = 0 := by
  have hdeg : (Lagrange.basis s x p).natDegree < s.card := by
    rw [natDegree_eq_of_degree_eq_some (Lagrange.degree_basis hx hp)]
    have := Finset.card_pos.mpr ⟨p, hp⟩
    omega
  have hsum := sum_mul_eval_of_powerSum_eq_zero hdeg h
  rwa [Finset.sum_eq_single_of_mem p hp fun q hq hne => by
    rw [Lagrange.eval_basis_of_ne hne.symm hq, mul_zero], Lagrange.eval_basis_self hx hp, mul_one] at hsum

/-- The same for power sums from any exponent on. -/
theorem eq_zero_of_powerSum_add_eq_zero [DecidableEq ι] (hx : Set.InjOn x s) (hne : ∀ p ∈ s, x p ≠ 0) {a : Nat}
    (h : ∀ j < s.card, powerSum s x y (a + j) = 0) {p : ι} (hp : p ∈ s) : y p = 0 := by
  have hzero := eq_zero_of_powerSum_eq_zero (y := fun p => y p * x p ^ a) hx
    (fun j hj => (powerSum_add s x y a j).symm.trans (h j hj)) hp
  exact (mul_eq_zero.mp hzero).resolve_right (pow_ne_zero _ (hne p hp))

/-! ### Polynomials that annihilate such a sequence (R164) -/

/-- A product with the sequence is the sequence of the same locators with other magnitudes. -/
theorem coeff_mul_of_powerSum (hne : ∀ p ∈ s, x p ≠ 0) {q f : K[X]} {j : Nat} (hq : q.natDegree ≤ j)
    (hf : ∀ i ≤ j, f.coeff i = powerSum s x y i) :
    (q * f).coeff j = powerSum s x (fun p => y p * q.eval (x p)⁻¹) j := by
  rw [coeff_mul, Finset.Nat.sum_antidiagonal_eq_sum_range_succ fun a b => q.coeff a * f.coeff b]
  calc ∑ a ∈ Finset.range (j + 1), q.coeff a * f.coeff (j - a)
      = ∑ a ∈ Finset.range (j + 1), ∑ p ∈ s, y p * (q.coeff a * (x p)⁻¹ ^ a) * x p ^ j := by
        refine Finset.sum_congr rfl fun a ha => ?_
        have ha := Finset.mem_range_succ_iff.mp ha
        rw [hf _ (Nat.sub_le j a), powerSum, Finset.mul_sum]
        refine Finset.sum_congr rfl fun p hp => ?_
        rw [pow_sub₀ _ (hne p hp) ha, inv_pow]
        ring
    _ = powerSum s x (fun p => y p * q.eval (x p)⁻¹) j := by
        rw [Finset.sum_comm]
        refine Finset.sum_congr rfl fun p _ => ?_
        beta_reduce
        rw [eval_eq_sum_range' (Nat.lt_succ_of_le hq), Finset.mul_sum, Finset.sum_mul]

/-- A polynomial that annihilates enough of the sequence has every locator's inverse as a root. -/
theorem eval_inv_eq_zero_of_annihilates [DecidableEq ι] (hx : Set.InjOn x s) (hne : ∀ p ∈ s, x p ≠ 0)
    (hy : ∀ p ∈ s, y p ≠ 0) {q f : K[X]} {l n : Nat} (hq : q.natDegree ≤ l) (hn : l + s.card ≤ n)
    (hf : ∀ j < n, f.coeff j = powerSum s x y j) (hzero : ∀ j, l ≤ j → j < n → (q * f).coeff j = 0) {p : ι}
    (hp : p ∈ s) : q.eval (x p)⁻¹ = 0 := by
  have hprod : y p * q.eval (x p)⁻¹ = 0 := by
    refine eq_zero_of_powerSum_add_eq_zero (y := fun p => y p * q.eval (x p)⁻¹) (a := l) hx hne (fun j hj => ?_) hp
    rw [← coeff_mul_of_powerSum hne (by omega) fun i hi => hf i (by omega)]
    exact hzero _ (by omega) (by omega)
  exact (mul_eq_zero.mp hprod).resolve_left (hy p hp)

/-- A polynomial that annihilates the sequence so far, but not its next entry, has a large degree bound: what the
degree-increase rule makes of it is no longer than the number of errors. -/
theorem lt_add_card_of_not_annihilates [DecidableEq ι] (hx : Set.InjOn x s) (hne : ∀ p ∈ s, x p ≠ 0)
    (hy : ∀ p ∈ s, y p ≠ 0) {q f : K[X]} {l n : Nat} (hq : q.natDegree ≤ l)
    (hf : ∀ j ≤ n, f.coeff j = powerSum s x y j) (hzero : ∀ j, l ≤ j → j < n → (q * f).coeff j = 0)
    (hnext : (q * f).coeff n ≠ 0) : n < l + s.card := by
  by_contra hle
  refine hnext ?_
  rw [coeff_mul_of_powerSum hne (by omega) hf]
  refine Finset.sum_eq_zero fun p hp => ?_
  beta_reduce
  rw [eval_inv_eq_zero_of_annihilates hx hne hy hq (Nat.not_lt.mp hle) (fun j hj => hf j hj.le) hzero hp, mul_zero,
    zero_mul]

/-- A polynomial of degree at most the number of its known roots has no other root. -/
theorem natDegree_eq_and_isRoot_iff {q : K[X]} {r : Finset K} (h0 : q ≠ 0) (hdeg : q.natDegree ≤ r.card)
    (hr : ∀ y ∈ r, q.eval y = 0) : q.natDegree = r.card ∧ ∀ y, q.eval y = 0 ↔ y ∈ r := by
  have hle : r.val ≤ q.roots := (Multiset.le_iff_subset r.nodup).mpr fun y hy => (mem_roots h0).mpr (hr y hy)
  have heq : r.val = q.roots := Multiset.eq_of_le_of_card_le hle ((card_roots' q).trans hdeg)
  refine ⟨le_antisymm hdeg ((Multiset.card_le_card hle).trans (card_roots' q)), fun y => ?_⟩
  rw [← IsRoot.def, ← mem_roots h0, ← heq, Finset.mem_val]

end Locators

/-! ### The evaluator (R171, R174) -/

section Evaluator
variable (s : Finset ι) (x y : ι → K)

/-- The errata locator: the product of the factors 1 + x·X (R167). -/
noncomputable def locatorPoly (s : Finset ι) (x : ι → K) : K[X] := ∏ p ∈ s, (1 + C (x p) * X)

/-- The errata evaluator: the sum of y·X times the factors of the other locators (R172). -/
noncomputable def evaluatorPoly [DecidableEq ι] (s : Finset ι) (x y : ι → K) : K[X] :=
  ∑ p ∈ s, C (y p) * X * locatorPoly (s.erase p) x

/-- One error's part of the syndromes, cut off after m of them, times its factor. -/
theorem geometric_mul_factor [CharP K 2] (a : K) (m : Nat) :
    (∑ k ∈ Finset.range m, (C a * X) ^ k) * (1 + C a * X) = 1 + (C a * X) ^ m := by
  rw [add_comm 1, ← CharTwo.sub_eq_add, geom_sum_mul, CharTwo.sub_eq_add, add_comm]

theorem coeff_geometric (a : K) {m i : Nat} (hi : i < m) :
    (∑ k ∈ Finset.range m, (C a * X) ^ k : K[X]).coeff i = a ^ i := by
  simp only [mul_pow, ← C_pow, finsetSum_coeff, coeff_C_mul_X_pow, Finset.sum_ite_eq, Finset.mem_range, hi, if_true]

/-- The syndromes times the locator are the evaluator, up to x^m. -/
theorem dvd_mul_locatorPoly_sub_evaluatorPoly [CharP K 2] [DecidableEq ι] {f : K[X]} {m : Nat} (h0 : f.coeff 0 = 0)
    (hf : ∀ i < m, f.coeff (i + 1) = powerSum s x y i) : X ^ (m + 1) ∣ f * locatorPoly s x - evaluatorPoly s x y := by
  have hcut : X ^ (m + 1) ∣ f - ∑ p ∈ s, C (y p) * (X * ∑ k ∈ Finset.range m, (C (x p) * X) ^ k) := by
    refine X_pow_dvd_iff.mpr fun d hd => ?_
    rw [coeff_sub, finsetSum_coeff, sub_eq_zero]
    cases d with
    | zero => simp [h0]
    | succ i =>
      rw [hf i (by omega)]
      exact Finset.sum_congr rfl fun p _ => by rw [coeff_C_mul, coeff_X_mul, coeff_geometric _ (by omega)]
  have hprod : (∑ p ∈ s, C (y p) * (X * ∑ k ∈ Finset.range m, (C (x p) * X) ^ k)) * locatorPoly s x =
      evaluatorPoly s x y + X ^ (m + 1) * ∑ p ∈ s, C (y p * x p ^ m) * locatorPoly (s.erase p) x := by
    rw [evaluatorPoly, Finset.mul_sum, ← Finset.sum_add_distrib, Finset.sum_mul]
    refine Finset.sum_congr rfl fun p hp => ?_
    calc C (y p) * (X * ∑ k ∈ Finset.range m, (C (x p) * X) ^ k) * locatorPoly s x
        = C (y p) * X * ((∑ k ∈ Finset.range m, (C (x p) * X) ^ k) * (1 + C (x p) * X)) *
            locatorPoly (s.erase p) x := by
          rw [locatorPoly, ← Finset.mul_prod_erase s _ hp, locatorPoly]
          ring
      _ = _ := by
          rw [geometric_mul_factor, C_mul, C_pow]
          ring
  have hsplit : f * locatorPoly s x - evaluatorPoly s x y =
      (f - ∑ p ∈ s, C (y p) * (X * ∑ k ∈ Finset.range m, (C (x p) * X) ^ k)) * locatorPoly s x +
        X ^ (m + 1) * ∑ p ∈ s, C (y p * x p ^ m) * locatorPoly (s.erase p) x := by
    rw [sub_mul, hprod]
    ring
  rw [hsplit]
  exact dvd_add (hcut.mul_right _) (dvd_mul_right _ _)

theorem natDegree_locatorPoly_le : (locatorPoly s x).natDegree ≤ s.card := by
  refine (natDegree_prod_le _ _).trans ((Finset.sum_le_card_nsmul _ _ 1 fun p _ => ?_).trans_eq (mul_one _))
  rw [add_comm, ← C_1]
  exact natDegree_linear_le

theorem natDegree_evaluatorPoly_le [DecidableEq ι] : (evaluatorPoly s x y).natDegree ≤ s.card := by
  refine natDegree_sum_le_of_forall_le _ _ fun p hp => natDegree_mul_le.trans ?_
  have hX : (C (y p) * X).natDegree ≤ 1 := (natDegree_C_mul_le _ _).trans natDegree_X_le
  have hrest := natDegree_locatorPoly_le (s.erase p) x
  rw [Finset.card_erase_of_mem hp] at hrest
  have := Finset.card_pos.mpr ⟨p, hp⟩
  omega

/-- At a locator's inverse only that locator's term of the evaluator is left. -/
theorem eval_evaluatorPoly [CharP K 2] [DecidableEq ι] {p : ι} (hp : p ∈ s) (hne : x p ≠ 0) :
    (evaluatorPoly s x y).eval (x p)⁻¹ = y p * (x p)⁻¹ * ∏ q ∈ s.erase p, (1 + x q * (x p)⁻¹) := by
  have hterm : ∀ q, (C (y q) * X * locatorPoly (s.erase q) x).eval (x p)⁻¹ =
      y q * (x p)⁻¹ * ∏ r ∈ s.erase q, (1 + x r * (x p)⁻¹) := fun q => by
    simp only [locatorPoly, eval_mul, eval_prod, eval_add, eval_C, eval_X, eval_one]
  rw [evaluatorPoly, eval_finsetSum, Finset.sum_eq_single_of_mem p hp fun q _ hqp => ?_, hterm]
  rw [hterm, Finset.prod_eq_zero (Finset.mem_erase.mpr ⟨hqp.symm, hp⟩), mul_zero]
  rw [mul_inv_cancel₀ hne, CharTwo.add_self_eq_zero]

end Evaluator

end Sys2Proof.Machine
end

section
/-! SUPPORT. The iteration of the error locator as operations on polynomials, the invariant that every step keeps, and
what it gives for the sequence of few enough errors (spec/43_decoder_stages.md R164). -/

namespace Sys2Proof.Machine
open Sys2Proof.Spec Polynomial
variable {K : Type} [Field K] {φ : Byte → K}

/-! ### The list operations of the iteration -/

@[simp] theorem scalePoly_length (p : Poly) (x : Byte) : (scalePoly p x).length = p.length := by simp [scalePoly]

@[simp] theorem sumPoly_length (p q : Poly) : (sumPoly p q).length = max p.length q.length := by simp [sumPoly]

theorem natDegree_polyOf_le (φ : Byte → K) (p : Poly) : (polyOf φ p).natDegree ≤ p.length - 1 :=
  natDegree_sum_le_of_forall_le _ _ fun _ hj =>
    (natDegree_monomial_le _).trans (Nat.le_sub_one_of_lt (Finset.mem_range.mp hj))

theorem coeff_reverse (f : Poly) (j : Nat) : coeff f.reverse j = f.getD j 0#8 := by
  rw [Spec.coeff, List.reverse_reverse]

section Model
variable (h : FieldModel φ)
include h

theorem FieldModel.polyOf_scalePoly (p : Poly) (x : Byte) : polyOf φ (scalePoly p x) = C (φ x) * polyOf φ p :=
  h.polyOf_eq fun j => by
    rw [scalePoly, coeff_map (product_zero_left x), h.map_product, coeff_C_mul, h.coeff_polyOf, mul_comm]

theorem FieldModel.polyOf_sumPoly (p q : Poly) : polyOf φ (sumPoly p q) = polyOf φ p + polyOf φ q :=
  h.polyOf_eq fun j => by
    rw [← padd_eq_sumPoly, coeff_padd, h.map_xor, coeff_add, h.coeff_polyOf, h.coeff_polyOf]

/-- A zero at the end of a list moves its polynomial up by one power. -/
theorem FieldModel.polyOf_append_zero (p : Poly) : polyOf φ (p ++ [0#8]) = X * polyOf φ p :=
  h.polyOf_eq fun j => by
    cases j with
    | zero => rw [coeff_zero_append_zero, h.map_zero, coeff_X_mul_zero]
    | succ j => rw [coeff_append, if_neg (by simp), coeff_X_mul, h.coeff_polyOf]; rfl

/-- Zeros at the front of a list do not change its polynomial. -/
theorem FieldModel.polyOf_dropWhile (p : Poly) : polyOf φ (p.dropWhile fun c => c == 0#8) = polyOf φ p := by
  induction p with
  | nil => rfl
  | cons c p ih =>
    rw [List.dropWhile_cons]
    split
    · next hc =>
      rw [ih]
      refine (h.polyOf_eq fun j => ?_).symm
      rw [coeff_cons, (beq_iff_eq.mp hc : c = 0#8), ite_self, BitVec.xor_zero, h.coeff_polyOf]
    · rfl

/-- A list without a zero in front has one coefficient more than the degree of its polynomial. -/
theorem FieldModel.length_eq_natDegree_succ {p : Poly} (hp : p.head? ≠ some 0#8) (h0 : polyOf φ p ≠ 0) :
    p.length = (polyOf φ p).natDegree + 1 := by
  cases p with
  | nil => exact absurd rfl h0
  | cons c p =>
    have hc : (polyOf φ (c :: p)).coeff p.length ≠ 0 := by
      rw [h.coeff_polyOf, coeff_cons, coeff_of_length_le le_rfl, if_pos rfl, BitVec.zero_xor, ne_eq, h.map_eq_zero]
      rintro rfl
      exact hp rfl
    exact congrArg (· + 1) (le_antisymm (le_natDegree_of_ne_zero hc) (natDegree_polyOf_le φ (c :: p)))

/-- The sequence that a list holds, lowest index first. -/
theorem FieldModel.coeff_polyOf_reverse (f : Poly) (j : Nat) : (polyOf φ f.reverse).coeff j = φ (f.getD j 0#8) := by
  rw [h.coeff_polyOf, coeff_reverse]

/-- The discrepancy of step i is entry i of the locator's product with the sequence. -/
theorem FieldModel.map_discrepancyAt (f : Poly) {err : Poly} {i : Nat} (hlen : err.length ≤ i + 1)
    (hlast : coeff err 0 = 1#8) : φ (discrepancyAt f err i) = (polyOf φ err * polyOf φ f.reverse).coeff i := by
  rw [coeff_mul, Finset.Nat.sum_antidiagonal_eq_sum_range_succ fun a b => (polyOf φ err).coeff a *
    (polyOf φ f.reverse).coeff b, Finset.sum_range_succ']
  simp only [h.coeff_polyOf, coeff_reverse, hlast, h.map_one, one_mul, Nat.sub_zero]
  rw [discrepancyAt, h.map_xor, h.map_xorSum, add_comm]
  simp only [h.map_product]
  refine congrArg (· + φ (f.getD i 0#8)) (Finset.sum_subset (Finset.range_subset_range.mpr (by omega)) fun j _ hj => ?_)
  rw [coeff_of_length_le (by rw [Finset.mem_range] at hj; omega), h.map_zero, zero_mul]

end Model

/-! ### One step (R164) -/

theorem iterationStep_of_zero {f : Poly} {st : Poly × Poly} {i : Nat} (hδ : discrepancyAt f st.1 i = 0#8) :
    iterationStep f st i = (st.1, st.2 ++ [0#8]) := if_pos hδ

/-- A discrepancy that is not 0 is cleared in the same way in both other cases of a step; they differ in the new old. -/
theorem iterationStep_of_ne_zero (h : FieldModel φ) {f : Poly} {st : Poly × Poly} {i : Nat}
    (hδ : discrepancyAt f st.1 i ≠ 0#8) : (iterationStep f st i).1.length = max st.1.length (st.2.length + 1) ∧
      polyOf φ (iterationStep f st i).1 =
        polyOf φ st.1 + C (φ (discrepancyAt f st.1 i)) * (X * polyOf φ st.2) ∧
      (iterationStep f st i).2 = if st.1.length < st.2.length + 1 then
        scalePoly st.1 (inverseOf (discrepancyAt f st.1 i)) else st.2 ++ [0#8] := by
  have hlen : (st.2 ++ [0#8]).length = st.2.length + 1 := List.length_append
  rw [iterationStep, if_neg hδ, hlen]
  split
  · refine ⟨?_, ?_, rfl⟩
    · simp [max_comm]
    · have hne : φ (discrepancyAt f st.1 i) ≠ 0 := by rwa [ne_eq, h.map_eq_zero]
      simp only [h.polyOf_sumPoly, h.polyOf_scalePoly, h.polyOf_append_zero, h.map_inverseOf hδ]
      rw [← mul_assoc (C _) (C _) (polyOf φ st.1), ← C_mul, mul_inv_cancel₀ hne, C_1, one_mul, add_comm]
  · refine ⟨?_, ?_, rfl⟩
    · simp
    · simp only [h.polyOf_sumPoly, h.polyOf_scalePoly, h.polyOf_append_zero]

/-- What i steps make of the pair (err, old), for the polynomial g of the sequence. The lengths of the two lists add up
to i + 2; err annihilates the first i entries, from its degree bound on; and once err is longer than 1, old, moved up by
one power, annihilates them too and gives 1 at entry i, so that a multiple of it clears the next discrepancy. -/
structure Iterated (φ : Byte → K) (g : K[X]) (st : Poly × Poly) (i : Nat) : Prop where
  length_add : st.1.length + st.2.length = i + 2
  old_length : 0 < st.2.length
  err_last : coeff st.1 0 = 1#8
  err_coeff : ∀ j < i, st.1.length ≤ j + 1 → (polyOf φ st.1 * g).coeff j = 0
  old_coeff : 1 < st.1.length → ∀ j ≤ i, st.2.length ≤ j →
    (X * polyOf φ st.2 * g).coeff j = if j = i then 1 else 0

theorem Iterated.start (φ : Byte → K) (g : K[X]) : Iterated φ g ([1#8], [1#8]) 0 :=
  ⟨rfl, Nat.one_pos, rfl, nofun, nofun⟩

section Step
variable {f : Poly} {st : Poly × Poly} {i : Nat}

theorem Iterated.err_length_pos {g : K[X]} (hst : Iterated φ g st i) : 0 < st.1.length := by
  by_contra h0
  have hlast := hst.err_last
  rw [coeff_of_length_le (by omega)] at hlast
  cases hlast

theorem Iterated.discrepancy (h : FieldModel φ) (hst : Iterated φ (polyOf φ f.reverse) st i) :
    φ (discrepancyAt f st.1 i) = (polyOf φ st.1 * polyOf φ f.reverse).coeff i := by
  have hadd := hst.length_add
  have hold := hst.old_length
  exact h.map_discrepancyAt f (by omega) hst.err_last

/-- old moves up by one power. -/
theorem Iterated.shifted_coeff (h : FieldModel φ) {g : K[X]} (hst : Iterated φ g st i) (hlong : 1 < st.1.length)
    (j : Nat) (hj : j ≤ i + 1) (hle : (st.2 ++ [0#8]).length ≤ j) :
    (X * polyOf φ (st.2 ++ [0#8]) * g).coeff j = if j = i + 1 then 1 else 0 := by
  rw [List.length_append, List.length_singleton] at hle
  obtain ⟨k, rfl⟩ := Nat.exists_eq_add_of_le' (show 1 ≤ j by omega)
  rw [h.polyOf_append_zero, mul_assoc, coeff_X_mul, hst.old_coeff hlong k (by omega) (by omega)]
  simp

theorem Iterated.step_of_zero (h : FieldModel φ) (hst : Iterated φ (polyOf φ f.reverse) st i)
    (hδ : discrepancyAt f st.1 i = 0#8) : Iterated φ (polyOf φ f.reverse) (iterationStep f st i) (i + 1) := by
  have hdisc := hst.discrepancy h
  have hadd := hst.length_add
  rw [hδ, h.map_zero] at hdisc
  rw [iterationStep_of_zero hδ]
  refine ⟨by simp; omega, by simp, hst.err_last, fun j hj hle => ?_, fun hlong => hst.shifted_coeff h hlong⟩
  obtain hlt | rfl := Nat.lt_succ_iff_lt_or_eq.mp hj
  · exact hst.err_coeff j hlt hle
  · exact hdisc.symm

section Nonzero
variable (h : FieldModel φ) (hst : Iterated φ (polyOf φ f.reverse) st i) (hδ : discrepancyAt f st.1 i ≠ 0#8)
include h hst hδ

/-- The new err annihilates one entry more: old clears the discrepancy, and nothing else. -/
theorem Iterated.err_coeff_step {j : Nat} (hj : j < i + 1) (hle : (iterationStep f st i).1.length ≤ j + 1) :
    (polyOf φ (iterationStep f st i).1 * polyOf φ f.reverse).coeff j = 0 := by
  have := h.charP
  have hadd := hst.length_add
  obtain ⟨hlen, hpoly, -⟩ := iterationStep_of_ne_zero h hδ
  rw [hlen] at hle
  rw [hpoly, add_mul, coeff_add, mul_assoc, coeff_C_mul, hst.old_coeff (by omega) j (by omega) (by omega)]
  obtain hlt | rfl := Nat.lt_succ_iff_lt_or_eq.mp hj
  · rw [hst.err_coeff j hlt (by omega), if_neg hlt.ne, mul_zero, add_zero]
  · rw [← hst.discrepancy h, if_pos rfl, mul_one, CharTwo.add_self_eq_zero]

/-- After the degree-increase rule, old is the err of before, scaled so that its discrepancy is 1. -/
theorem Iterated.scaled_coeff {j : Nat} (hj : j ≤ i + 1) (hle : st.1.length ≤ j) :
    (X * polyOf φ (scalePoly st.1 (inverseOf (discrepancyAt f st.1 i))) * polyOf φ f.reverse).coeff j =
      if j = i + 1 then 1 else 0 := by
  have hne : φ (discrepancyAt f st.1 i) ≠ 0 := by rwa [ne_eq, h.map_eq_zero]
  have herr := hst.err_length_pos
  obtain ⟨k, rfl⟩ := Nat.exists_eq_add_of_le' (show 1 ≤ j by omega)
  rw [h.polyOf_scalePoly, mul_left_comm, mul_assoc, coeff_C_mul, mul_assoc, coeff_X_mul, h.map_inverseOf hδ]
  obtain hlt | rfl := (Nat.succ_le_succ_iff.mp hj).lt_or_eq
  · rw [hst.err_coeff k hlt hle, mul_zero, if_neg (by omega)]
  · rw [← hst.discrepancy h, inv_mul_cancel₀ hne, if_pos rfl]

theorem Iterated.step_of_ne_zero : Iterated φ (polyOf φ f.reverse) (iterationStep f st i) (i + 1) := by
  have hadd := hst.length_add
  have herr := hst.err_length_pos
  obtain ⟨hlen, hpoly, hkept⟩ := iterationStep_of_ne_zero h hδ
  refine ⟨?_, ?_, ?_, fun j hj hle => hst.err_coeff_step h hδ hj hle, fun hlong j hj hle => ?_⟩
  · rw [hkept, hlen]
    split <;> simp <;> omega
  · rw [hkept]
    split
    · rwa [scalePoly_length]
    · exact List.length_pos_of_ne_nil (by simp)
  · refine h.injective ?_
    rw [← h.coeff_polyOf, hpoly, coeff_add, coeff_C_mul, coeff_X_mul_zero, mul_zero, add_zero, h.coeff_polyOf,
      hst.err_last]
  · rw [hlen] at hlong
    rw [hkept] at hle ⊢
    by_cases hlt : st.1.length < st.2.length + 1
    · rw [if_pos hlt] at hle ⊢
      exact hst.scaled_coeff h hδ hj (by rwa [scalePoly_length] at hle)
    · rw [if_neg hlt] at hle ⊢
      exact hst.shifted_coeff h (by omega) j hj hle

end Nonzero

theorem Iterated.step (h : FieldModel φ) (hst : Iterated φ (polyOf φ f.reverse) st i) :
    Iterated φ (polyOf φ f.reverse) (iterationStep f st i) (i + 1) := by
  by_cases hδ : discrepancyAt f st.1 i = 0#8
  · exact hst.step_of_zero h hδ
  · exact hst.step_of_ne_zero h hδ

end Step

/-! ### Few errors (R164, R207) -/

/-- The pair after k steps. -/
def iterates (f : Poly) (k : Nat) : Poly × Poly := (List.range k).foldl (iterationStep f) ([1#8], [1#8])

theorem iterates_succ (f : Poly) (k : Nat) : iterates f (k + 1) = iterationStep f (iterates f k) k := by
  simp [iterates, List.range_succ]

theorem iterated_iterates (h : FieldModel φ) (f : Poly) (k : Nat) :
    Iterated φ (polyOf φ f.reverse) (iterates f k) k := by
  induction k with
  | zero => exact Iterated.start φ _
  | succ k ih => rw [iterates_succ]; exact ih.step h

section Errors
variable {ι : Type} [DecidableEq ι] {s : Finset ι} {x y : ι → K} {f : Poly} {n : Nat} (h : FieldModel φ)
  (hx : Set.InjOn x s) (hne : ∀ p ∈ s, x p ≠ 0) (hy : ∀ p ∈ s, y p ≠ 0)
  (hf : ∀ j < n, φ (f.getD j 0#8) = powerSum s x y j)
include h hx hne hy hf

/-- The locator never becomes longer than the number of errors asks for. -/
theorem length_iterates_le {k : Nat} (hk : k ≤ n) : (iterates f k).1.length ≤ s.card + 1 := by
  induction k with
  | zero => exact Nat.le_add_left 1 _
  | succ k ih =>
    have hst := iterated_iterates h f k
    have hadd := hst.length_add
    have herr := hst.err_length_pos
    have hdisc := hst.discrepancy h
    rw [iterates_succ]
    by_cases hδ : discrepancyAt f (iterates f k).1 k = 0#8
    · rw [iterationStep_of_zero hδ]
      exact ih (by omega)
    · have hnext : (polyOf φ (iterates f k).1 * polyOf φ f.reverse).coeff k ≠ 0 := by
        rwa [← hdisc, ne_eq, h.map_eq_zero]
      have hlt := lt_add_card_of_not_annihilates hx hne hy (natDegree_polyOf_le φ _)
        (fun j hj => (h.coeff_polyOf_reverse f j).trans (hf j (by omega)))
        (fun j hle hj => hst.err_coeff j hj (by omega)) hnext
      rw [(iterationStep_of_ne_zero h hδ).1]
      have := ih (by omega)
      omega

/-- With twice as many entries as errors, the locator's degree is their number, and its roots are the inverses of their
locators. -/
theorem errorLocator_of_powerSum (hn : 2 * s.card ≤ n) : (errorLocator f n).length = s.card + 1 ∧
    ∀ z, (polyOf φ (errorLocator f n)).eval z = 0 ↔ ∃ p ∈ s, z = (x p)⁻¹ := by
  classical
  have hst := iterated_iterates h f n
  have hlen := length_iterates_le h hx hne hy hf le_rfl
  have hdeg := natDegree_polyOf_le φ (iterates f n).1
  have hroot : ∀ p ∈ s, (polyOf φ (iterates f n).1).eval (x p)⁻¹ = 0 := fun p hp =>
    eval_inv_eq_zero_of_annihilates hx hne hy hdeg (by omega)
      (fun j hj => (h.coeff_polyOf_reverse f j).trans (hf j hj)) (fun j hle hj => hst.err_coeff j hj (by omega)) hp
  have h0 : polyOf φ (iterates f n).1 ≠ 0 := fun hzero => by
    have hlast := h.coeff_polyOf (iterates f n).1 0
    rw [hzero, hst.err_last, h.map_one] at hlast
    simp at hlast
  have hcard : (s.image fun p => (x p)⁻¹).card = s.card :=
    Finset.card_image_of_injOn fun p hp q hq hpq => hx hp hq (inv_injective hpq)
  obtain ⟨hnat, hiff⟩ := natDegree_eq_and_isRoot_iff (r := s.image fun p => (x p)⁻¹) h0 (by omega)
    (by simpa using hroot)
  have hpoly : polyOf φ (errorLocator f n) = polyOf φ (iterates f n).1 := h.polyOf_dropWhile _
  have hhead : (errorLocator f n).head? ≠ some 0#8 := head?_stripZeros _
  refine ⟨?_, fun z => ?_⟩
  · rw [h.length_eq_natDegree_succ hhead (hpoly ▸ h0), hpoly, hnat, hcard]
  · rw [hpoly, hiff, Finset.mem_image]
    simp only [eq_comm]

end Errors

end Sys2Proof.Machine
end

section
/-! SUPPORT. The syndromes and the folded syndromes as power sums of the errors, and the root search as a search for the
inverse locators (spec/43_decoder_stages.md R162, R169, R179). -/

namespace Sys2Proof.Machine
open Sys2Proof.Spec Polynomial
variable {K : Type} [Field K] {φ : Byte → K} {m : Nat} {era : List Byte}

/-! ### The syndromes as power sums (R179) -/

/-- The error at position p: what the word b differs by from w. -/
def errorByte (b w : Poly) (p : Nat) : Byte := b.getD p 0#8 ^^^ w.getD p 0#8

/-- The locator of position p in the field. -/
def fieldLocator (φ : Byte → K) (n p : Nat) : K := φ (locatorOf n p)

/-- The value of a word, by its positions. -/
theorem eval_polyOf (φ : Byte → K) (p : Poly) (z : K) :
    (polyOf φ p).eval z = ∑ i ∈ Finset.range p.length, φ (p.getD i 0#8) * z ^ (p.length - 1 - i) := by
  rw [← Finset.sum_range_reflect, polyOf, eval_finsetSum]
  refine Finset.sum_congr rfl fun j hj => ?_
  have hj := Finset.mem_range.mp hj
  rw [eval_monomial, getD_length_sub p hj, Nat.sub_sub_self (by omega)]

@[simp] theorem foldOnce_length (x : Byte) (f : Poly) : (foldOnce x f).length = f.length := by simp [foldOnce]

theorem foldOnce_getD (x : Byte) {f : Poly} {j : Nat} (hj : j + 1 < f.length) :
    (foldOnce x f).getD j 0#8 = product x (f.getD j 0#8) ^^^ f.getD (j + 1) 0#8 := by
  rw [List.getD_eq_getElem _ _ (by simp; omega)]
  simp [foldOnce, hj]

section Model
variable (h : FieldModel φ)
include h

theorem FieldModel.fieldLocator_injOn {n : Nat} (hn : n ≤ 255) : Set.InjOn (fieldLocator φ n) (Finset.range n) :=
  fun _ hp _ hq hpq => locatorOf_inj hn (Finset.mem_range.mp hp) (Finset.mem_range.mp hq) (h.injective hpq)

theorem FieldModel.fieldLocator_ne_zero (n p : Nat) : fieldLocator φ n p ≠ 0 := by
  rw [fieldLocator, ne_eq, h.map_eq_zero]
  exact locatorOf_ne_zero n p

/-- A syndrome is the sum over the positions of the entry times a power of the locator (R13). -/
theorem FieldModel.map_evalAt_power (cw : Poly) (j : Nat) : φ (evalAt cw (power 2#8 j)) =
    powerSum (Finset.range cw.length) (fieldLocator φ cw.length) (fun p => φ (cw.getD p 0#8)) j := by
  rw [h.map_evalAt, eval_polyOf, powerSum]
  refine Finset.sum_congr rfl fun p _ => ?_
  rw [fieldLocator, locatorOf, h.map_power, h.map_power, ← pow_mul, ← pow_mul, Nat.mul_comm]

/-- Only the errors count: a codeword's own part of the syndromes is 0. -/
theorem FieldModel.map_evalAt_of_codeword {b w : Poly} (hlen : w.length = b.length) (hw : isCodeword w m) {j : Nat}
    (hj : j < m) : φ (evalAt b (power 2#8 j)) =
      powerSum (Finset.range b.length) (fieldLocator φ b.length) (fun p => φ (errorByte b w p)) j := by
  have hzero := h.map_evalAt_power w j
  rw [hw j hj, h.map_zero, hlen] at hzero
  rw [h.map_evalAt_power, ← add_zero (powerSum _ _ _ j), hzero, powerSum, powerSum, powerSum, ← Finset.sum_add_distrib]
  simp only [errorByte, h.map_xor, add_mul]

/-! ### The folded syndromes (R162) -/

/-- Each pass multiplies the magnitude of every error by the sum of its locator and the erasure's, and loses an entry. -/
theorem FieldModel.map_foldl_foldOnce {s : Finset Nat} {x : Nat → K} {n k : Nat} (era : List Byte) {y : Nat → K}
    {f : Poly} (hk : k + era.length ≤ f.length) (hf : ∀ j < k + era.length, φ (f.getD j 0#8) = powerSum s x y j)
    {j : Nat} (hj : j < k) : φ ((era.foldl (fun f p => foldOnce (locatorOf n p.toNat) f) f).getD j 0#8) =
      powerSum s x (fun p => y p * (era.map fun q => fieldLocator φ n q.toNat + x p).prod) j := by
  induction era generalizing f y with
  | nil => simpa using hf j hj
  | cons q era ih =>
    rw [List.length_cons] at hk hf
    rw [List.foldl_cons, ih (y := fun p => y p * (fieldLocator φ n q.toNat + x p)) (by simp; omega) fun j hj => ?_]
    · simp only [List.map_cons, List.prod_cons, mul_assoc]
    · rw [foldOnce_getD _ (by omega), h.map_xor, h.map_product, hf j (by omega), hf (j + 1) (by omega), powerSum,
        powerSum, powerSum, Finset.mul_sum, ← Finset.sum_add_distrib]
      refine Finset.sum_congr rfl fun p _ => ?_
      rw [fieldLocator]
      ring

end Model

/-! ### The root search (R169) -/

/-- The reversed list has the inverse roots. -/
theorem FieldModel.evalAt_reverse_eq_zero_iff (h : FieldModel φ) (p : Poly) {z : Byte} (hz : z ≠ 0#8) :
    evalAt p.reverse z = 0#8 ↔ (polyOf φ p).eval (φ z)⁻¹ = 0 := by
  have hne : φ z ≠ 0 := by rwa [ne_eq, h.map_eq_zero]
  have hmul : φ (evalAt p.reverse z) = φ z ^ (p.length - 1) * (polyOf φ p).eval (φ z)⁻¹ := by
    rw [h.map_evalAt, eval_polyOf, polyOf, eval_finsetSum, Finset.mul_sum, List.length_reverse]
    refine Finset.sum_congr rfl fun j hj => ?_
    have hj := Finset.mem_range.mp hj
    rw [eval_monomial, inv_pow, pow_sub₀ _ hne (by omega), ← coeff_reverse, List.reverse_reverse]
    ring
  rw [← h.map_eq_zero, hmul, mul_eq_zero, or_iff_right (pow_ne_zero _ hne)]

end Sys2Proof.Machine
end

section
/-! SUPPORT. Within the correction capacity DECODE gives the codeword back (spec/44_codec.md R207). -/

namespace Sys2Proof.Machine
open Sys2Proof.Spec Polynomial
variable {K : Type} [Field K] {φ : Byte → K} {m : Nat} {era : List Byte} {w cw : Poly}

/-! ### Where the blanked word differs from the codeword (R207) -/

/-- The undeclared error positions. -/
def undeclaredSet (w c : Poly) (era : List Byte) : Finset Nat :=
  ((List.range c.length).filter fun i =>
    decide (w.getD i 0#8 ≠ c.getD i 0#8) && !(era.any fun p => decide (p.toNat = i))).toFinset

theorem card_undeclaredSet (w c : Poly) (era : List Byte) : (undeclaredSet w c era).card = undeclaredErrors w c era :=
  List.toFinset_card_of_nodup (List.nodup_range.filter _)

theorem mem_undeclaredSet {i : Nat} : i ∈ undeclaredSet w cw era ↔
    i < cw.length ∧ w.getD i 0#8 ≠ cw.getD i 0#8 ∧ ∀ p ∈ era, p.toNat ≠ i := by
  simp [undeclaredSet]

theorem undeclaredSet_subset (w c : Poly) (era : List Byte) : undeclaredSet w c era ⊆ Finset.range c.length :=
  fun _ hi => Finset.mem_range.mpr (mem_undeclaredSet.mp hi).1

/-- At an undeclared error the blanked word is in error. -/
theorem errorByte_blanked_ne_zero {i : Nat} (hi : i ∈ undeclaredSet w cw era) :
    errorByte (blanked cw era) w i ≠ 0#8 := by
  obtain ⟨hi, hdiff, hera⟩ := mem_undeclaredSet.mp hi
  have hany : era.any (fun p => decide (p.toNat = i)) = false := by simpa using hera
  rw [errorByte, blanked_getD hi, hany, ne_eq, BitVec.xor_eq_zero_iff]
  exact hdiff.symm

/-- At every other position but the erasures it is not. -/
theorem errorByte_blanked_eq_zero {i : Nat} (hi : i < cw.length) (hera : ∀ p ∈ era, p.toNat ≠ i)
    (hmem : i ∉ undeclaredSet w cw era) : errorByte (blanked cw era) w i = 0#8 := by
  have hany : era.any (fun p => decide (p.toNat = i)) = false := by simpa using hera
  have heq : w.getD i 0#8 = cw.getD i 0#8 := by
    by_contra hdiff
    exact hmem (mem_undeclaredSet.mpr ⟨hi, hdiff, hera⟩)
  rw [errorByte, blanked_getD hi, hany, heq]
  exact BitVec.xor_self

/-- A word without errors is the codeword. -/
theorem eq_of_errorByte_eq_zero {b : Poly} (hlen : w.length = b.length) (h : ∀ i < b.length, errorByte b w i = 0#8) :
    b = w := by
  refine List.ext_getElem hlen.symm fun i hi hi' => ?_
  have hzero := h i hi
  rwa [errorByte, BitVec.xor_eq_zero_iff, List.getD_eq_getElem _ _ hi, List.getD_eq_getElem _ _ hi'] at hzero

/-! ### A blanked codeword (R206 step 3) -/

/-- What R207 asks of the received word cw: it differs from the codeword w in few enough positions. -/
structure WithinCapacity (w cw : Poly) (era : List Byte) (m : Nat) : Prop extends DecodeLegal cw era m where
  same_length : w.length = cw.length
  codeword : isCodeword w m
  capacity : 2 * undeclaredErrors w cw era + era.length ≤ m

/-- The positions at which the blanked word may be in error. -/
def erroneousSet (w c : Poly) (era : List Byte) : Finset Nat := undeclaredSet w c era ∪ (era.map BitVec.toNat).toFinset

theorem errorByte_blanked_eq_zero_of_not_mem {i : Nat} (hi : i < cw.length)
    (hmem : i ∉ erroneousSet w cw era) : errorByte (blanked cw era) w i = 0#8 := by
  simp only [erroneousSet, Finset.mem_union, List.mem_toFinset, List.mem_map, not_or, not_exists, not_and] at hmem
  exact errorByte_blanked_eq_zero hi hmem.2 hmem.1

/-- The syndromes of the blanked word are the power sums of its errors. -/
theorem WithinCapacity.map_evalAt (hc : WithinCapacity w cw era m) (h : FieldModel φ) {j : Nat} (hj : j < m) :
    φ (evalAt (blanked cw era) (power 2#8 j)) = powerSum (Finset.range cw.length) (fieldLocator φ cw.length)
      (fun p => φ (errorByte (blanked cw era) w p)) j := by
  have hlen := blanked_length cw era
  have hsum := h.map_evalAt_of_codeword (hc.same_length.trans hlen.symm) hc.codeword hj
  rwa [hlen] at hsum

/-- Two codewords as close as that are equal. -/
theorem WithinCapacity.blanked_eq (hc : WithinCapacity w cw era m) (hb : isCodeword (blanked cw era) m) :
    blanked cw era = w := by
  obtain ⟨K, _, φ, h⟩ := exists_fieldModel
  have hsub : erroneousSet w cw era ⊆ Finset.range cw.length := by
    refine Finset.union_subset (undeclaredSet_subset _ _ _) fun i hi => ?_
    obtain ⟨p, hp, rfl⟩ := List.mem_map.mp (List.mem_toFinset.mp hi)
    exact Finset.mem_range.mpr (hc.positions p hp)
  have hcard : (erroneousSet w cw era).card ≤ m := by
    have hera := List.toFinset_card_le (era.map BitVec.toNat)
    have hunion := Finset.card_union_le (undeclaredSet w cw era) (era.map BitVec.toNat).toFinset
    have hcap := hc.capacity
    rw [card_undeclaredSet] at hunion
    rw [List.length_map] at hera
    rw [erroneousSet]
    omega
  have hzero : ∀ j < (erroneousSet w cw era).card, powerSum (erroneousSet w cw era) (fieldLocator φ cw.length)
      (fun p => φ (errorByte (blanked cw era) w p)) j = 0 := fun j hj => by
    rw [← powerSum_of_subset hsub fun p hp hmem => ?_, ← hc.map_evalAt h (hj.trans_le hcard), hb j (hj.trans_le hcard),
      h.map_zero]
    rw [errorByte_blanked_eq_zero_of_not_mem (Finset.mem_range.mp hp) hmem, h.map_zero]
  refine eq_of_errorByte_eq_zero (hc.same_length.trans (blanked_length _ _).symm) fun i hi => ?_
  rw [blanked_length] at hi
  by_cases hmem : i ∈ erroneousSet w cw era
  · exact h.map_eq_zero.mp (eq_zero_of_powerSum_eq_zero ((h.fieldLocator_injOn hc.length_le).mono hsub) hzero hmem)
  · exact errorByte_blanked_eq_zero_of_not_mem hi hmem

/-! ### The located errors (R206 steps 4 to 6) -/

/-- The magnitudes that the folded syndromes give the undeclared errors (R162). -/
def foldedMagnitude (φ : Byte → K) (w c : Poly) (era : List Byte) (p : Nat) : K :=
  φ (errorByte (blanked c era) w p) *
    (era.map fun q => fieldLocator φ c.length q.toNat + fieldLocator φ c.length p).prod

/-- The erasures have gone from the folded syndromes. -/
theorem FieldModel.foldedMagnitude_eq_zero (h : FieldModel φ) {p : Nat} (hp : p < cw.length)
    (hmem : p ∉ undeclaredSet w cw era) : foldedMagnitude φ w cw era p = 0 := by
  have := h.charP
  rw [foldedMagnitude]
  by_cases hera : ∃ q ∈ era, q.toNat = p
  · obtain ⟨q, hq, rfl⟩ := hera
    exact mul_eq_zero_of_right _ (List.prod_eq_zero (List.mem_map.mpr ⟨q, hq, CharTwo.add_self_eq_zero _⟩))
  · rw [errorByte_blanked_eq_zero hp (by simpa using hera) hmem, h.map_zero, zero_mul]

section Located
variable (hc : WithinCapacity w cw era m) (h : FieldModel φ)
include hc h

theorem WithinCapacity.foldedMagnitude_ne_zero {p : Nat} (hp : p ∈ undeclaredSet w cw era) :
    foldedMagnitude φ w cw era p ≠ 0 := by
  have := h.charP
  obtain ⟨hlt, -, hera⟩ := mem_undeclaredSet.mp hp
  refine mul_ne_zero (h.map_eq_zero.not.mpr (errorByte_blanked_ne_zero hp)) (List.prod_ne_zero fun hmem => ?_)
  obtain ⟨q, hq, hsum⟩ := List.mem_map.mp hmem
  rw [CharTwo.add_eq_zero] at hsum
  exact hera q hq (h.fieldLocator_injOn hc.length_le (Finset.mem_coe.mpr (Finset.mem_range.mpr (hc.positions q hq)))
    (Finset.mem_coe.mpr (Finset.mem_range.mpr hlt)) hsum)

theorem WithinCapacity.map_foldedSyndromes {j : Nat} (hj : j < m - era.length) :
    φ ((foldedSyndromes (blanked cw era) era m).getD j 0#8) = powerSum (undeclaredSet w cw era)
      (fieldLocator φ cw.length) (foldedMagnitude φ w cw era) j := by
  have hle := hc.erasures_le
  have htail : (syndromesOf (blanked cw era) m).tail.length = m := by simp [syndromesOf]
  have hget : ∀ j < m - era.length + era.length, φ ((syndromesOf (blanked cw era) m).tail.getD j 0#8) =
      powerSum (Finset.range cw.length) (fieldLocator φ cw.length) (fun p => φ (errorByte (blanked cw era) w p)) j :=
    fun j hj => by
      have hj : j < m := by omega
      rw [← hc.map_evalAt h hj]
      simp [syndromesOf, hj]
  rw [foldedSyndromes, h.map_foldl_foldOnce era (by omega) hget hj, blanked_length]
  exact powerSum_of_subset (undeclaredSet_subset _ _ _)
    (fun p hp hmem => h.foldedMagnitude_eq_zero (Finset.mem_range.mp hp) hmem) j

/-- The locator has the undeclared errors' number as its degree, and the inverses of their locators as its roots. -/
theorem WithinCapacity.locatorFor_eq : (locatorFor (blanked cw era) era m).length = undeclaredErrors w cw era + 1 ∧
    ∀ z, (polyOf φ (locatorFor (blanked cw era) era m)).eval z = 0 ↔
      ∃ p ∈ undeclaredSet w cw era, z = (fieldLocator φ cw.length p)⁻¹ := by
  have hcap := hc.capacity
  have hloc := errorLocator_of_powerSum h
    ((h.fieldLocator_injOn hc.length_le).mono (Finset.coe_subset.mpr (undeclaredSet_subset w cw era)))
    (fun p _ => h.fieldLocator_ne_zero cw.length p) (fun p hp => hc.foldedMagnitude_ne_zero h hp)
    (fun j hj => hc.map_foldedSyndromes h hj) (by rw [card_undeclaredSet]; omega)
  rwa [card_undeclaredSet] at hloc

end Located

theorem WithinCapacity.mem_locatedOf (hc : WithinCapacity w cw era m) (p : Byte) :
    p ∈ locatedOf (blanked cw era) era m ↔ p.toNat ∈ undeclaredSet w cw era := by
  obtain ⟨K, _, φ, h⟩ := exists_fieldModel
  rw [locatedOf, blanked_length, mem_locatedPositions hc.length_le,
    h.evalAt_reverse_eq_zero_iff _ (locatorOf_ne_zero _ _), (hc.locatorFor_eq h).2]
  constructor
  · rintro ⟨hp, q, hq, hinv⟩
    rwa [h.fieldLocator_injOn hc.length_le (Finset.mem_coe.mpr (Finset.mem_range.mpr hp))
      (Finset.mem_coe.mpr (undeclaredSet_subset _ _ _ hq)) (inv_injective hinv)]
  · exact fun hp => ⟨(mem_undeclaredSet.mp hp).1, _, hp, rfl⟩

theorem WithinCapacity.nodup_locatedOf (hc : WithinCapacity w cw era m) : (locatedOf (blanked cw era) era m).Nodup :=
  nodup_locatedPositions _ ((blanked_length cw era).trans_le hc.length_le)

theorem WithinCapacity.length_locatedOf (hc : WithinCapacity w cw era m) :
    (locatedOf (blanked cw era) era m).length = undeclaredErrors w cw era := by
  have hnodup := hc.nodup_locatedOf
  rw [← card_undeclaredSet, ← List.length_map (f := BitVec.toNat),
    ← List.toFinset_card_of_nodup (hnodup.map fun _ _ => BitVec.eq_of_toNat_eq)]
  congr 1
  ext i
  simp only [List.mem_toFinset, List.mem_map, hc.mem_locatedOf]
  constructor
  · rintro ⟨p, hp, rfl⟩
    exact hp
  · intro hi
    have hlt := (mem_undeclaredSet.mp hi).1
    have hn := hc.length_le
    have hp : (BitVec.ofNat 8 i).toNat = i := by rw [BitVec.toNat_ofNat]; omega
    exact ⟨BitVec.ofNat 8 i, hp.symm ▸ hi, hp⟩

/-! ### The magnitudes (R171, R174) -/

/-- Position j of a position list. -/
def positionAt (pos : List Byte) (j : Nat) : Nat := (pos.getD j 0#8).toNat

theorem positionAt_injOn {pos : List Byte} (hnodup : pos.Nodup) :
    Set.InjOn (positionAt pos) (Finset.range pos.length) := by
  intro i hi j hj hij
  have hi := Finset.mem_range.mp hi
  have hj := Finset.mem_range.mp hj
  rw [positionAt, positionAt, List.getD_eq_getElem _ _ hi, List.getD_eq_getElem _ _ hj] at hij
  exact (hnodup.getElem_inj_iff).mp (BitVec.eq_of_toNat_eq hij)

theorem mem_image_positionAt {pos : List Byte} {i : Nat} :
    i ∈ (Finset.range pos.length).image (positionAt pos) ↔ ∃ p ∈ pos, p.toNat = i := by
  simp only [Finset.mem_image, Finset.mem_range, positionAt]
  constructor
  · rintro ⟨j, hj, rfl⟩
    exact ⟨pos[j], List.getElem_mem hj, by rw [List.getD_eq_getElem _ _ hj]⟩
  · rintro ⟨p, hp, rfl⟩
    obtain ⟨j, hj, rfl⟩ := List.getElem_of_mem hp
    exact ⟨j, hj, by rw [List.getD_eq_getElem _ _ hj]⟩

/-- The locator of entry k of a position list, in the field. -/
def listLocator (φ : Byte → K) (pos : List Byte) (n k : Nat) : K := φ (locatorAt pos n k)

omit [Field K] in
theorem map_locatorAt (φ : Byte → K) (pos : List Byte) (n k : Nat) :
    φ (locatorAt pos n k) = listLocator φ pos n k := rfl

/-- The error at the position that entry k of the list holds, in the field. -/
def listError (φ : Byte → K) (b w : Poly) (pos : List Byte) (k : Nat) : K := φ (errorByte b w (positionAt pos k))

/-- The locator product of a list is the product over its indices. -/
theorem FieldModel.polyOf_locatorProduct (h : FieldModel φ) (pos : List Byte) (n : Nat) :
    polyOf φ (locatorProduct pos n) =
      locatorPoly (Finset.range pos.length) (listLocator φ pos n) := by
  have hlist : pos = (List.range pos.length).map fun j => pos.getD j 0#8 :=
    List.ext_getElem (by simp) fun j hj _ => by simp [hj]
  rw [locatorProduct, h.polyOf_foldl_productPoly fun _ => List.cons_ne_nil _ _, h.polyOf_one, one_mul]
  simp only [polyOf_pair, h.map_one, C_1, add_comm _ (1 : K[X])]
  conv_lhs => rw [hlist, List.map_map]
  rfl

/-- What the errata list has to be for its magnitudes to be the errors: distinct positions, at most m of them, and no
error elsewhere. -/
structure CoversErrors (b w : Poly) (pos : List Byte) (m : Nat) : Prop where
  length_le : b.length ≤ 255
  same_length : w.length = b.length
  codeword : isCodeword w m
  positions : positionsOf pos b.length
  nodup : pos.Nodup
  count_le : pos.length ≤ m
  covers : ∀ i < b.length, (∀ p ∈ pos, p.toNat ≠ i) → errorByte b w i = 0#8

section Magnitudes
variable {b : Poly} {pos : List Byte} (hc : CoversErrors b w pos m)
include hc

/-- The syndromes are the power sums of the errors on the list. -/
theorem CoversErrors.map_evalAt (h : FieldModel φ) {j : Nat} (hj : j < m) : φ (evalAt b (power 2#8 j)) =
    powerSum (Finset.range pos.length) (listLocator φ pos b.length) (listError φ b w pos) j := by
  have hsub : (Finset.range pos.length).image (positionAt pos) ⊆ Finset.range b.length := fun i hi => by
    obtain ⟨p, hp, rfl⟩ := mem_image_positionAt.mp hi
    exact Finset.mem_range.mpr (hc.positions p hp)
  rw [h.map_evalAt_of_codeword hc.same_length hc.codeword hj, powerSum_of_subset hsub fun i hi hmem => ?_]
  · exact Finset.sum_image (positionAt_injOn hc.nodup)
  · rw [mem_image_positionAt] at hmem
    rw [hc.covers i (Finset.mem_range.mp hi) fun p hp heq => hmem ⟨p, hp, heq⟩, h.map_zero]

/-- The evaluator of DECODE is the evaluator of the errors on the list: it has no coefficients above x^m that the cut
takes away (R172). -/
theorem CoversErrors.polyOf_evaluator (h : FieldModel φ) :
    polyOf φ (lowCoefficients (syndromesOf b m) (locatorProduct pos b.length) m).reverse =
      evaluatorPoly (Finset.range pos.length) (listLocator φ pos b.length) (listError φ b w pos) := by
  have := h.charP
  have hdvd := dvd_mul_locatorPoly_sub_evaluatorPoly (Finset.range pos.length)
    (listLocator φ pos b.length) (listError φ b w pos)
    (f := polyOf φ (syndromesOf b m).reverse) (m := m) (by rw [h.coeff_polyOf_reverse]; exact h.map_zero) fun i hi => by
      rw [h.coeff_polyOf_reverse, ← hc.map_evalAt h hi]
      simp [syndromesOf, hi]
  refine h.polyOf_eq fun i => ?_
  rw [coeff_reverse]
  by_cases hi : i < m + 1
  · have hcoeff := X_pow_dvd_iff.mp hdvd i hi
    rw [coeff_sub, sub_eq_zero, ← h.polyOf_locatorProduct, ← h.map_productCoeff] at hcoeff
    rw [← hcoeff]
    simp [lowCoefficients, hi]
  · have hdeg := natDegree_evaluatorPoly_le (Finset.range pos.length)
      (listLocator φ pos b.length) (listError φ b w pos)
    rw [Finset.card_range] at hdeg
    have hcount := hc.count_le
    rw [coeff_eq_zero_of_natDegree_lt (by omega), List.getD_eq_default _ _ (by simp [lowCoefficients]; omega),
      h.map_zero]

/-- The magnitude of an entry of the list is the error at its position. -/
theorem CoversErrors.magnitudeOf_eq {i : Nat} (hi : i < pos.length) :
    magnitudeOf (lowCoefficients (syndromesOf b m) (locatorProduct pos b.length) m) pos b.length i =
      errorByte b w (positionAt pos i) := by
  obtain ⟨K, _, φ, h⟩ := exists_fieldModel
  have := h.charP
  have hx : locatorAt pos b.length i ≠ 0#8 := locatorOf_ne_zero _ _
  have hne : listLocator φ pos b.length i ≠ 0 := h.map_eq_zero.not.mpr hx
  have hderiv : φ (derivativeAt pos b.length i) = ∏ j ∈ (Finset.range pos.length).erase i,
      (1 + listLocator φ pos b.length j * (listLocator φ pos b.length i)⁻¹) := by
    rw [derivativeAt, h.map_productOf, ← Finset.prod_erase _ (a := i) (by rw [if_pos rfl, h.map_one])]
    refine Finset.prod_congr rfl fun j hj => ?_
    rw [if_neg (Finset.mem_erase.mp hj).1, h.map_xor, h.map_product, h.map_one, h.map_inverseOf hx, mul_comm]
    rfl
  have hderiv0 := derivativeAt_ne_zero hc.length_le hc.positions hc.nodup hi
  have hderivK : φ (derivativeAt pos b.length i) ≠ 0 := h.map_eq_zero.not.mpr hderiv0
  refine h.injective ?_
  rw [Machine.magnitudeOf_eq, h.map_product, h.map_product, h.map_evalAt, h.map_inverseOf hx, h.map_inverseOf hderiv0,
    hc.polyOf_evaluator h, map_locatorAt φ, eval_evaluatorPoly _ _ _ (Finset.mem_range.mpr hi) hne, ← hderiv,
    mul_assoc, mul_assoc, mul_inv_cancel₀ hderivK, mul_one, mul_comm (listError _ _ _ _ _), mul_inv_cancel_left₀ hne]
  rfl

end Magnitudes

/-! ### The corrected word (R176) -/

/-- An error vector of the errors themselves. -/
theorem errorAt_map {e : Nat → Byte} {pos : List Byte} {i : Nat} (h0 : (∀ p ∈ pos, p.toNat ≠ i) → e i = 0#8) :
    errorAt pos (pos.map fun p => e p.toNat) i = e i := by
  have hzip : pos.zip (pos.map fun p => e p.toNat) = pos.map fun p => (p, e p.toNat) := by
    simpa using List.zip_map' (f := id) (g := fun p : Byte => e p.toNat) (l := pos)
  rw [errorAt_eq_elim, hzip, ← List.map_reverse]
  cases hfind : (pos.reverse.map fun p => (p, e p.toNat)).find? fun pm => decide (pm.1.toNat = i) with
  | none => exact (h0 fun p hp => by simpa using List.find?_eq_none.mp hfind (p, e p.toNat) (by simpa using hp)).symm
  | some pm =>
    obtain ⟨p, -, rfl⟩ := List.mem_map.mp (List.mem_of_find?_eq_some hfind)
    have hpi : p.toNat = i := by simpa using List.find?_some hfind
    exact congrArg e hpi

theorem CoversErrors.correctedWord_eq {b : Poly} {pos : List Byte} (hc : CoversErrors b w pos m) :
    correctedWord b pos m = w := by
  have hmags : (List.range pos.length).map
      (magnitudeOf (lowCoefficients (syndromesOf b m) (locatorProduct pos b.length) m) pos b.length) =
      pos.map fun p => errorByte b w p.toNat := by
    refine List.ext_getElem (by simp) fun i hi _ => ?_
    have hi : i < pos.length := by simpa using hi
    rw [List.getElem_map, List.getElem_range, List.getElem_map, hc.magnitudeOf_eq hi, positionAt,
      List.getD_eq_getElem _ _ hi]
  refine List.ext_getElem ((correctedWord_length _ _ _).trans hc.same_length.symm) fun i hi hi' => ?_
  rw [correctedWord_length] at hi
  simp only [correctedWord, hmags, List.getElem_map, List.getElem_range]
  rw [errorAt_map (hc.covers i hi), errorByte, ← BitVec.xor_assoc, BitVec.xor_self, BitVec.zero_xor,
    List.getD_eq_getElem _ _ hi']

/-! ### The decoder (R207) -/

theorem WithinCapacity.coversErrors (hc : WithinCapacity w cw era m) :
    CoversErrors (blanked cw era) w (era ++ locatedOf (blanked cw era) era m) m where
  length_le := (blanked_length _ _).trans_le hc.length_le
  same_length := hc.same_length.trans (blanked_length _ _).symm
  codeword := hc.codeword
  positions p hp := by
    rw [blanked_length]
    rcases List.mem_append.mp hp with hp | hp
    · exact hc.positions p hp
    · exact (mem_undeclaredSet.mp ((hc.mem_locatedOf p).mp hp)).1
  nodup := by
    refine hc.nodup.append hc.nodup_locatedOf fun p hera hp => ?_
    exact (mem_undeclaredSet.mp ((hc.mem_locatedOf p).mp hp)).2.2 p hera rfl
  count_le := by
    have := hc.capacity
    rw [List.length_append, hc.length_locatedOf]
    omega
  covers i hi hnot := by
    rw [blanked_length] at hi
    refine errorByte_blanked_eq_zero hi (fun p hp => hnot p (List.mem_append_left _ hp)) fun hmem => ?_
    have hn := hc.length_le
    have hp : (BitVec.ofNat 8 i).toNat = i := by rw [BitVec.toNat_ofNat]; omega
    exact hnot _ (List.mem_append_right _ ((hc.mem_locatedOf _).mpr (hp.symm ▸ hmem))) hp

theorem WithinCapacity.correctionOf_eq (hc : WithinCapacity w cw era m) (hb : ¬ isCodeword (blanked cw era) m) :
    correctionOf (blanked cw era) era m = .ok
      { word := w
        clean := false
        nerrata := (era ++ locatedOf (blanked cw era) era m).length
        nerr := (locatedOf (blanked cw era) era m).length } := by
  obtain ⟨K, _, φ, h⟩ := exists_fieldModel
  have hcover := hc.coversErrors
  have hword := hcover.correctedWord_eq
  have hloc := (hc.locatorFor_eq h).1
  have hcount := hc.length_locatedOf
  have hcap := hc.capacity
  have hne : era ++ locatedOf (blanked cw era) era m ≠ [] := fun hnil => by
    have heq := eq_of_errorByte_eq_zero hcover.same_length fun i hi => hcover.covers i hi (by rw [hnil]; nofun)
    exact hb (heq.symm ▸ hc.codeword)
  rw [correctionOf_of_codeword (by omega) (by omega) hne hcover.nodup (hword.symm ▸ hc.codeword), hword]

/-- A word within the capacity is decoded to its codeword. -/
theorem Tables.Built.decodeWord_of_withinCapacity {t : Tables} (h : t.Built) (hc : WithinCapacity w cw era m)
    (hm : m ≤ 254) : ∃ r, decodeWord t cw era m = .ok r ∧ r.word = w := by
  by_cases hb : isCodeword (blanked cw era) m
  · exact ⟨_, h.decodeWord_of_codeword hc.toDecodeLegal hm hb, hc.blanked_eq hb⟩
  · exact ⟨_, (h.decodeWord_of_not_codeword hc.toDecodeLegal hm hb).trans (hc.correctionOf_eq hb), rfl⟩

/-- Settles O58: the located positions are the undeclared errors, and the magnitudes are the errors. -/
theorem decodeCorrectsWithinCapacity : Obligations.DecodeCorrectsWithinCapacity := by
  intro s d e c w h hr hde hlen h0 hn hm hpos hnodup hw hcap
  have hnu : s.era.length = s.elen.toNat := era_length s
  rw [← hnu] at hcap
  have hc : WithinCapacity w (s.poly c) s.era s.nsym.toNat :=
    { length_le := hn, erasures_le := by omega, length_ne := h0, le_length := hm, positions := hpos, nodup := hnodup
      same_length := hlen, codeword := hw, capacity := hcap }
  obtain ⟨r, hdec, rfl⟩ := (h.tables_built hr).decodeWord_of_withinCapacity hc h.nsym_legal
  obtain ⟨hd, he⟩ := poly_writePoly_writePoly ((s.writeSz r.clean).writeInfo r.nerrata r.nerr) h.cells_canonical hde
    (l1 := r.word.take (r.word.length - s.nsym.toNat)) (l2 := r.word.drop (r.word.length - s.nsym.toNat))
    (by rw [List.length_take]; omega) (by rw [List.length_drop]; omega)
  exact ⟨_, exec_decode_of_ok hde hdec (hlen.trans_le hn), rfl, hd, he⟩

end Sys2Proof.Machine
end

section
/-! SUPPORT. Which failures a command can raise, and what a failed command leaves unchanged (spec/60_exceptions.md R230-R234). -/

namespace Sys2Proof.Machine
open Sys2Proof.Spec
variable {s : State}

/-- Settles O24: of the shapes of a completed command only the failure leaves ERR = 1, and `raiseFail` is the record update
of the statement. -/
theorem failedCommandWritesOnlyStatus : Obligations.FailedCommandWritesOnlyStatus := by
  intro i s t he herr
  obtain ⟨t', he', hc⟩ := exec_completion s i
  cases he'.symm.trans he
  cases hc with
  | failed c ht => exact ⟨c, ht⟩
  | scalar _ _ ht | poly _ _ _ ht | polySz _ _ _ _ ht | polys _ _ _ _ _ _ ht | polysInfo _ _ _ _ _ _ _ _ _ ht =>
    simp [ht] at herr

/-! ### The failures of a computation

A command's rule is a list of checks followed by a computation, so its failures are read off along its definition. -/

/-- Every failure of r is one of the listed codes. -/
def RaisesOnly {α : Type} (codes : List Failure) (r : Except Failure α) : Prop := ∀ c, r = .error c → c ∈ codes

namespace RaisesOnly
variable {α β : Type} {codes : List Failure} {r : Except Failure α}

theorem ok {a : α} : RaisesOnly codes (.ok a) := nofun

theorem error {c : Failure} (h : c ∈ codes) : RaisesOnly (α := α) codes (.error c) := by
  rintro _ ⟨⟩
  exact h

theorem mono {codes' : List Failure} (h : RaisesOnly codes r) (hsub : codes ⊆ codes') : RaisesOnly codes' r :=
  fun c hc => hsub (h c hc)

/-- A check that raises c in front of a computation. -/
theorem check {p : Prop} [Decidable p] {c : Failure} (hc : c ∈ codes) (h : RaisesOnly codes r) :
    RaisesOnly codes (if p then .error c else r) := by
  split
  · exact .error hc
  · exact h

/-- A check that raises c instead of a computation. -/
theorem checkElse {p : Prop} [Decidable p] {c : Failure} (hc : c ∈ codes) (h : RaisesOnly codes r) :
    RaisesOnly codes (if p then r else .error c) := by
  split
  · exact h
  · exact .error hc

theorem bind {f : α → Except Failure β} (h : RaisesOnly codes r) (hf : ∀ a, r = .ok a → RaisesOnly codes (f a)) :
    RaisesOnly codes (r.bind f) := by
  cases r with
  | error c => exact .error (h c rfl)
  | ok a => exact hf a rfl

/-- A failure passed on from a computation inside another. -/
theorem passOn {codes' : List Failure} {c : Failure} (h : RaisesOnly codes r) (hr : r = .error c)
    (hsub : codes ⊆ codes') : RaisesOnly (α := β) codes' (.error c) :=
  .error (hsub (h c hr))

theorem map {f : α → β} (h : RaisesOnly codes r) : RaisesOnly codes (r.map f) := by
  cases r with
  | error c => exact .error (h c rfl)
  | ok a => exact .ok

end RaisesOnly

/-! ### The field and polynomial functions (R121-R125, R144-R149) -/

section Functions
variable {t : Tables}

theorem gdiv_raisesOnly {x y : Byte} : RaisesOnly [.divisionByZero] (gdiv t x y) := .check (by simp) .ok

theorem ginv_raisesOnly {x : Byte} : RaisesOnly [.inverseOfZero] (ginv t x) := .check (by simp) .ok

theorem gpow_raisesOnly {x : Byte} {n : Int} : RaisesOnly [.inverseOfZero] (gpow t x n) := by
  rw [gpow]
  split
  · split
    · exact .ok
    · exact .checkElse (by simp) .ok
  · exact .ok

theorem logRead_raisesOnly {x : Byte} : RaisesOnly [.logOfZero] (logRead t x) := .check (by simp) .ok

theorem expRead_raisesOnly {k : Nat} : RaisesOnly [.rangeError] (expRead t k) := .check (by simp) .ok

theorem peval_raisesOnly {p : Poly} {x : Byte} : RaisesOnly [.rangeError] (peval t p x) := .check (by simp) .ok

theorem pmul_raisesOnly {p q : Poly} : RaisesOnly [.rangeError] (pmul t p q) := .check (by simp) .ok

theorem pmulChecked_raisesOnly {p q : Poly} : RaisesOnly [.rangeError] (pmulChecked t p q) :=
  .check (by simp) <| .check (by simp) pmul_raisesOnly

theorem pdivmod_raisesOnly {a b : Poly} : RaisesOnly [.rangeError, .nonMonicDivisor] (pdivmod t a b) :=
  .check (by simp) <| .check (by simp) <| .check (by simp) .ok

/-! ### The decoder stages (R160-R177) -/

theorem cwlen_raisesOnly {c : Poly} : RaisesOnly [.messageTooLong, .rangeError] (cwlen c) :=
  .check (by simp) <| .check (by simp) .ok

theorem checkPos_raisesOnly {l : List Byte} {n : Nat} {distinct : Bool} :
    RaisesOnly [.badPosition] (checkPos l n distinct) :=
  .check (by simp) <| .check (by simp) .ok

theorem bmLocator_raisesOnly {f : Poly} {nu m : Nat} : RaisesOnly [.tooManyErrors] (bmLocator t f nu m) :=
  .check (by simp) .ok

theorem chienRoots_raisesOnly {loc : Poly} {n : Nat} : RaisesOnly [.couldNotLocateErrors] (chienRoots t loc n) :=
  .check (by simp) .ok

theorem magnitudeAt_raisesOnly {ev : Poly} {xs : List Byte} {i : Nat} :
    RaisesOnly [.cannotComputeMagnitude] (magnitudeAt t ev xs i) :=
  .check (by simp) .ok

theorem magnitudes_raisesOnly {ev : Poly} {xs : List Byte} {is : List Nat} :
    RaisesOnly [.cannotComputeMagnitude] (magnitudes t ev xs is) := by
  induction is with
  | nil => exact .ok
  | cons i is ih =>
    rw [magnitudes]
    split
    · next hmag => exact magnitudeAt_raisesOnly.passOn hmag (by simp)
    · split
      · next hrest => exact ih.passOn hrest (by simp)
      · exact .ok

theorem forneyMag_raisesOnly {ev : Poly} {pos : List Byte} {n : Nat} :
    RaisesOnly [.cannotComputeMagnitude] (forneyMag t ev pos n) := magnitudes_raisesOnly

theorem syndChecked_raisesOnly {c : Poly} {m : Nat} : RaisesOnly [.messageTooLong, .rangeError] (syndChecked t c m) := by
  rw [syndChecked]
  split
  · next hlen => exact cwlen_raisesOnly.passOn hlen (by simp)
  · exact .ok

theorem fsyndChecked_raisesOnly {synd cw : Poly} {era : List Byte} {m : Nat} :
    RaisesOnly [.rangeError, .messageTooLong, .badPosition] (fsyndChecked t synd cw era m) := by
  refine .check (by simp) ?_
  split
  · next hlen => exact cwlen_raisesOnly.passOn hlen (by simp)
  · split
    · next hpos => exact checkPos_raisesOnly.passOn hpos (by simp)
    · exact .ok

theorem elocChecked_raisesOnly {f : Poly} {nu m : Nat} :
    RaisesOnly [.rangeError, .tooManyErasures, .tooManyErrors] (elocChecked t f nu m) :=
  .check (by simp) <| .check (by simp) <| bmLocator_raisesOnly.mono (by simp)

theorem chienChecked_raisesOnly {loc cw : Poly} :
    RaisesOnly [.rangeError, .messageTooLong, .couldNotLocateErrors] (chienChecked t loc cw) := by
  refine .check (by simp) ?_
  split
  · next hlen => exact cwlen_raisesOnly.passOn hlen (by simp)
  · exact chienRoots_raisesOnly.mono (by simp)

theorem plocChecked_raisesOnly {pos cw : Poly} :
    RaisesOnly [.messageTooLong, .rangeError, .badPosition] (plocChecked t pos cw) := by
  rw [plocChecked]
  split
  · next hlen => exact cwlen_raisesOnly.passOn hlen (by simp)
  · split
    · next hpos => exact checkPos_raisesOnly.passOn hpos (by simp)
    · exact .check (by simp) .ok

theorem eevalChecked_raisesOnly {synd l : Poly} {m : Nat} : RaisesOnly [.rangeError] (eevalChecked t synd l m) :=
  .check (by simp) <| .check (by simp) .ok

theorem fmagChecked_raisesOnly {ev pos cw : Poly} :
    RaisesOnly [.rangeError, .messageTooLong, .badPosition, .cannotComputeMagnitude] (fmagChecked t ev pos cw) := by
  refine .check (by simp) ?_
  split
  · next hlen => exact cwlen_raisesOnly.passOn hlen (by simp)
  · split
    · next hpos => exact checkPos_raisesOnly.passOn hpos (by simp)
    · exact forneyMag_raisesOnly.mono (by simp)

theorem corrChecked_raisesOnly {cw pos mags : Poly} :
    RaisesOnly [.messageTooLong, .rangeError, .badPosition] (corrChecked cw pos mags) := by
  rw [corrChecked]
  split
  · next hlen => exact cwlen_raisesOnly.passOn hlen (by simp)
  · refine .check (by simp) ?_
    split
    · next hpos => exact checkPos_raisesOnly.passOn hpos (by simp)
    · exact .ok

/-! ### The encoder and the decoder (R203-R206) -/

theorem encodeChecked_raisesOnly {data : Poly} {m : Nat} : RaisesOnly [.messageTooLong] (encodeChecked t data m) :=
  .check (by simp) .ok

theorem decodeChecks_raisesOnly {c : Poly} {era : List Byte} {m : Nat} :
    RaisesOnly [.messageTooLong, .tooManyErasures, .rangeError, .badPosition] (decodeChecks c era m) :=
  .check (by simp) <| .check (by simp) <| .check (by simp) <| checkPos_raisesOnly.mono (by simp)

theorem correct_raisesOnly {c synd : Poly} {pos : List Byte} {nerr m : Nat} :
    RaisesOnly [.cannotComputeMagnitude, .couldNotCorrect] (correct t c synd pos nerr m) := by
  rw [correct]
  split
  · next hmag => exact forneyMag_raisesOnly.passOn hmag (by simp)
  · exact .checkElse (by simp) .ok

theorem locateAndCorrect_raisesOnly {c synd : Poly} {era : List Byte} {m : Nat} :
    RaisesOnly [.tooManyErrors, .couldNotLocateErrors, .cannotComputeMagnitude, .couldNotCorrect]
      (locateAndCorrect t c synd era m) := by
  rw [locateAndCorrect]
  split
  · next hloc => exact bmLocator_raisesOnly.passOn hloc (by simp)
  · split
    · next hroots => exact chienRoots_raisesOnly.passOn hroots (by simp)
    · exact .check (by simp) <| correct_raisesOnly.mono (by simp)

theorem decodeBlanked_raisesOnly {c : Poly} {era : List Byte} {m : Nat} :
    RaisesOnly [.tooManyErrors, .couldNotLocateErrors, .cannotComputeMagnitude, .couldNotCorrect]
      (decodeBlanked t c era m) := by
  rw [decodeBlanked]
  split
  · exact .ok
  · exact locateAndCorrect_raisesOnly

theorem decodeWord_raisesOnly {c : Poly} {era : List Byte} {m : Nat} :
    RaisesOnly [.messageTooLong, .tooManyErasures, .rangeError, .badPosition, .tooManyErrors, .couldNotLocateErrors,
      .cannotComputeMagnitude, .couldNotCorrect] (decodeWord t c era m) := by
  rw [decodeWord]
  split
  · next hcheck => exact decodeChecks_raisesOnly.passOn hcheck (by simp)
  · exact decodeBlanked_raisesOnly.mono (by simp)

end Functions

/-! ### Completion -/

/-- Every code with which the outcome leaves ERRCODE is one of the listed codes. -/
def CompletesWithin (codes : List Failure) (o : Host.Outcome State Fault Refusal) : Prop :=
  ∀ t c, o = .next t → t.errcode = some c → c ∈ codes

theorem storePoly_raisesOnly {d : PReg} {l : Poly} : RaisesOnly [.rangeError] (s.storePoly d l) :=
  .checkElse (by simp) .ok

theorem storePolys_raisesOnly {d e : PReg} {l1 l2 : Poly} : RaisesOnly [.rangeError] (s.storePolys d l1 e l2) :=
  .checkElse (by simp) .ok

namespace CompletesWithin
variable {codes : List Failure}

/-- A completed command leaves the code of its failure in ERRCODE, and none where it succeeds (R230, R235). -/
theorem ofResult {r : Except Failure State} (h : RaisesOnly codes r) : CompletesWithin codes (complete s r) := by
  intro t c ht hc
  rcases complete_cases s r with ⟨u, -, hu⟩ | ⟨e, he, hu⟩ <;> cases hu.symm.trans ht
  · exact nomatch hc
  · cases hc
    exact h c he

theorem ofG {d : GReg} {r : Except Failure Byte} (h : RaisesOnly codes r) : CompletesWithin codes (completeG s d r) :=
  .ofResult h.map

theorem ofP {d : PReg} {r : Except Failure Poly} (h : RaisesOnly codes r) (hrange : .rangeError ∈ codes) :
    CompletesWithin codes (completeP s d r) :=
  .ofResult <| h.bind fun _ _ => storePoly_raisesOnly.mono (by simpa using hrange)

/-- A result that always fits its register adds no RangeError (R27). -/
theorem ofFittingP {d : PReg} {r : Except Failure Poly} (h : RaisesOnly codes r)
    (hfits : ∀ l, r = .ok l → l.length ≤ Config.pmax) : CompletesWithin codes (completeP s d r) :=
  .ofResult <| h.bind fun l hl => storePoly_ok s d l (hfits l hl) ▸ .ok

theorem ofPP {d e : PReg} {r : Except Failure (Poly × Poly)} (h : RaisesOnly codes r) (hrange : .rangeError ∈ codes) :
    CompletesWithin codes (completePP s d e r) :=
  .ofResult <| h.bind fun _ _ => storePolys_raisesOnly.mono (by simpa using hrange)

end CompletesWithin

/-! ### The commands (R231) -/

/-- A codeword that ENCODE computes has at most 255 entries (R203). -/
theorem length_of_encodeChecked {t : Tables} {data l : Poly} {m : Nat} (h : encodeChecked t data m = .ok l) :
    l.length ≤ 255 := by
  rw [encodeChecked] at h
  split at h
  · exact nomatch h
  · next hlen =>
    cases h
    simpa using hlen

/-- The failures of each command, in which the operands of legal lengths keep PADD, PSCALE, GENPOLY and ENCODE from a
RangeError. -/
theorem exec_completesWithin (i : Instr) (h : s.Inv) : CompletesWithin (mayRaise i) (exec i s) := by
  cases i with
  | gadd | gmul | gmulnt => exact .ofG .ok
  | gdiv => exact .ofG gdiv_raisesOnly
  | gpow => exact .ofG gpow_raisesOnly
  | ginv => exact .ofG ginv_raisesOnly
  | logr => exact .ofG logRead_raisesOnly
  | expr => exact .ofG expRead_raisesOnly
  | peval => exact .ofG peval_raisesOnly
  | padd d p q =>
    refine .ofFittingP .ok fun l hl => ?_
    cases hl
    exact (padd_length _ _).trans_le (max_le (h.poly_length_le p) (h.poly_length_le q))
  | pscale d p x =>
    refine .ofFittingP .ok fun l hl => ?_
    cases hl
    exact (pscale_length _ _ _).trans_le (h.poly_length_le p)
  | genpoly d =>
    refine .ofFittingP .ok fun l hl => ?_
    cases hl
    have := h.nsym_legal
    rw [genpoly_length, State.m, Config.pmax]
    omega
  | encode d a => exact .ofFittingP encodeChecked_raisesOnly fun l hl => (length_of_encodeChecked hl).trans (by decide)
  | pmul => exact .ofP pmulChecked_raisesOnly (by simp [mayRaise])
  | fsynd => exact .ofP fsyndChecked_raisesOnly (by simp [mayRaise])
  | eloc => exact .ofP elocChecked_raisesOnly (by simp [mayRaise])
  | chien => exact .ofP chienChecked_raisesOnly (by simp [mayRaise])
  | ploc => exact .ofP plocChecked_raisesOnly (by simp [mayRaise])
  | eeval => exact .ofP eevalChecked_raisesOnly (by simp [mayRaise])
  | fmag => exact .ofP fmagChecked_raisesOnly (by simp [mayRaise])
  | corr => exact .ofP corrChecked_raisesOnly (by simp [mayRaise])
  | pdivmod =>
    exact .ofPP (.check (by simp [mayRaise]) <| pdivmod_raisesOnly.mono (by simp [mayRaise])) (by simp [mayRaise])
  | synd => exact .ofResult <| syndChecked_raisesOnly.bind fun _ _ => storePoly_raisesOnly.mono (by simp)
  | decode =>
    exact .ofResult <| .bind (.check (by simp [mayRaise]) <| decodeWord_raisesOnly.mono (by simp [mayRaise]))
      fun _ _ => storePolys_raisesOnly.mono (by simp [mayRaise])

/-- Settles O25: each command's checks raise codes of its rows, and its result fits its register unless RangeError is one. -/
theorem commandsRaiseOnlyTheirCodes : Obligations.CommandsRaiseOnlyTheirCodes :=
  fun i _ t code h he hc => exec_completesWithin i h t code he hc

end Sys2Proof.Machine
end

section
/-! SUPPORT. The busy protocol: steps while BUSY = 1, acceptance, and accesses that are dropped or see no register
(spec/70_reset_and_hazards.md R260-R277). -/

namespace Sys2Proof.Machine
open Sys2Proof.Spec
variable {s t : State}

/-! ### Every busy state becomes idle (R275) -/

/-- While BUSY = 1 a host write changes neither the sequencer nor the schedule (R272). -/
theorem hostWrite_seq_turns_of_busy (addr : Addr) (v : Word) (hb : s.busy = true) :
    (hostWrite s addr v).seq = s.seq ∧ (hostWrite s addr v).turns = s.turns := by
  rw [hostWrite_of_busy addr v hb]
  split <;> exact ⟨rfl, rfl⟩

theorem hostTurn_seq_turns_of_busy (hb : s.busy = true) :
    (hostTurn s).seq = s.seq ∧ (hostTurn s).turns = s.turns := by
  cases ho : s.hostOps with
  | nil => rw [hostTurn_nil s ho]; exact ⟨rfl, rfl⟩
  | cons op rest =>
    cases op with
    | read addr => rw [hostTurn_read s addr rest ho]; exact ⟨rfl, rfl⟩
    | write addr v =>
      rw [hostTurn_write s addr v rest ho]
      exact hostWrite_seq_turns_of_busy (s := { s with hostOps := rest }) addr v hb
    | wait => rw [hostTurn_wait_busy s rest ho hb]; exact ⟨rfl, rfl⟩

/-- The sequencer's turn leaves the core idle: it completes the build or the accepted word, or has nothing to do. -/
theorem sequencerTurn_idles (s : State) : ∃ t, sequencerTurn s = .next t ∧ t.busy = false := by
  cases hq : s.seq with
  | idle => exact ⟨s, sequencerTurn_idle s hq, (busy_eq_false_iff s).mpr hq⟩
  | building => exact ⟨_, sequencerTurn_building s hq, completeBuild_busy s⟩
  | command w =>
    rw [sequencerTurn_command s w hq]
    cases hd : decode w with
    | none => exact ⟨_, executeWord_none s w hd, raiseFail_busy s _⟩
    | some i =>
      rw [executeWord_some s w i hd]
      obtain ⟨t, he, hidle, -⟩ := everyCommandCompletes i s
      exact ⟨t, he, hidle⟩

/-- While BUSY = 1 only the schedule can give the turn to another than the sequencer (log 5). -/
theorem turns_eq_cons_of_busy (hb : s.busy = true) (hn : s.nextTurn ≠ .sequencer) :
    ∃ turn, s.turns = turn :: s.turns.tail := by
  cases h : s.turns with
  | nil => exact absurd (nextTurn_nil_busy s h hb) hn
  | cons turn rest => exact ⟨turn, rfl⟩

/-- A step at BUSY = 1 reaches an idle state, or it is a turn of the schedule after which BUSY is still 1. -/
theorem step_of_busy (hb : s.busy = true) :
    ∃ t, step s = .next t ∧ (t.busy = false ∨ (t.busy = true ∧ ∃ turn, s.turns = turn :: t.turns)) := by
  cases hn : s.nextTurn with
  | sequencer =>
    obtain ⟨t, ht, hidle⟩ := sequencerTurn_idles s.popTurn
    exact ⟨t, (step_of_sequencer s hn).trans ht, .inl hidle⟩
  | host =>
    have hturns := turns_eq_cons_of_busy hb (by simp [hn])
    obtain ⟨hq, ht⟩ := hostTurn_seq_turns_of_busy (s := s.popTurn) hb
    exact ⟨_, step_of_host s hn, .inr ⟨by simpa [State.busy, hq] using hb, by simpa [ht] using hturns⟩⟩
  | reset =>
    have hturns := turns_eq_cons_of_busy hb (by simp [hn])
    exact ⟨_, step_of_reset s hn, .inr ⟨rfl, hturns⟩⟩

theorem run_succ_of_step (h : step s = .next t) (k : Nat) : core.run (k + 1) s = core.run k t := by
  simp only [Host.Core.run]
  rw [show core.step s = .next t from h]

/-- Settles O13: by induction on the length of the schedule, from which each step that leaves BUSY = 1 takes a turn. -/
theorem busyStatesBecomeIdle : Obligations.BusyStatesBecomeIdle := by
  intro s hb
  induction hlen : s.turns.length using Nat.strong_induction_on generalizing s with
  | _ n ih =>
    obtain ⟨t, ht, hidle | ⟨hbusy, turn, hcons⟩⟩ := step_of_busy hb
    · exact ⟨1, t, by omega, run_succ_of_step ht 0, hidle⟩
    · have hlt : n = t.turns.length + 1 := by simp [← hlen, hcons]
      obtain ⟨k, u, hk, hrun, hidle⟩ := ih t.turns.length (by omega) t hbusy rfl
      exact ⟨k + 1, u, by omega, (run_succ_of_step ht k).trans hrun, hidle⟩

/-! ### Acceptance and execution (R270) -/

/-- The step of the sequencer on an accepted word that decodes. -/
theorem step_of_command {w : Word} {i : Instr} (hn : s.nextTurn = .sequencer) (hq : s.seq = .command w)
    (hd : decode w = some i) : step s = exec i s.popTurn := by
  rw [step_of_sequencer s hn, sequencerTurn_command s.popTurn w hq, executeWord_some s.popTurn w i hd]

theorem decode_tableWord {nbits w : Nat} {i : Instr} (h : decodeTableWord nbits w = some i) :
    decode (tableWord nbits w) = some i := by
  rw [decodeTableWord] at h
  split at h
  · exact h
  · exact nomatch h

/-- Settles O6: `withFetchWord` accepts the word and puts the sequencer first on the schedule. -/
theorem stepRunsTheDecodedCommand : Obligations.StepRunsTheDecodedCommand :=
  ⟨fun _ _ _ hn hq hd => step_of_command hn hq hd,
    fun _ _ _ _ hd => ⟨rfl, step_of_command rfl rfl (decode_tableWord hd)⟩⟩

/-- Settles O18: the address names CMD, and a write there at BUSY = 0 is `acceptCommand`. -/
theorem commandAcceptance : Obligations.CommandAcceptance := by
  intro s v hb
  have hw : hostWrite s 0x0008 v = acceptCommand s v := hostWrite_of_idle 0x0008 v hb
  rw [hw]
  exact ⟨rfl, acceptCommand_cmdq s v, acceptCommand_busy s v⟩

/-! ### The host's accesses (R271, R272, R277) -/

/-- Settles O7: one clause for each of the host's actions. -/
theorem stepMakesTheHostsAccess : Obligations.StepMakesTheHostsAccess := by
  intro s op rest hn ho
  have hstep := step_of_host s hn
  refine ⟨?_, ?_, ?_, ?_⟩
  · rintro addr rfl
    rw [hstep, hostTurn_read s.popTurn addr rest ho]
  · rintro addr v rfl
    rw [hstep, hostTurn_write s.popTurn addr v rest ho]
  · rintro rfl hb
    rw [hstep, hostTurn_wait_busy s.popTurn rest ho hb]
  · rintro rfl hb
    rw [hstep, hostTurn_wait_idle s.popTurn rest ho hb]

/-- Settles O19: the writable addresses are those whose targets overrun. -/
theorem writesWhileBusyAreDropped : Obligations.WritesWhileBusyAreDropped := by
  intro s addr v hb
  refine ⟨fun hw => ?_, fun hw => ?_⟩
  · rw [hostWrite_of_busy addr v hb, if_pos ((decodeAddr_overruns addr).mpr hw)]
  · exact hostWrite_of_not_overruns (Bool.eq_false_iff.mpr (mt (decodeAddr_overruns addr).mp hw)) v

/-- A register that is not command-owned reads as its word, whatever BUSY is (R271). -/
theorem readAt_of_not_commandOwned {addr : Addr} (h : (decodeAddr addr).commandOwned = false) :
    readAt s addr = registerWord s (decodeAddr addr) := by
  simp [readAt_eq, readWord, readsUnspecified, h]

/-- Settles O20: ID, STATUS and CMD are not command-owned, the other addresses name no register, and a read adds to the
host's side only. -/
theorem readsWhileBusy : Obligations.ReadsWhileBusy :=
  ⟨fun s addr _ => ⟨readAt_of_not_commandOwned rfl, readAt_of_not_commandOwned rfl, readAt_of_not_commandOwned rfl,
    fun h => (misalignedAndReservedIgnored s addr 0 h).1⟩, fun _ _ => ⟨rfl, rfl⟩⟩

end Sys2Proof.Machine
end
